-- ==== Sys2Proof/Word.lean ====
section
/-! DEFINITION. The widths the block's values have (R9): bytes of the two buses and of the frame buffer, 16-bit words,
32-bit results, the 40-bit host command word, and slot numbers. -/

namespace Sys2Proof

/-- A byte of a bus transfer or of the frame buffer (R9). -/
abbrev Byte := BitVec 8

/-- A 16-bit value: a decoded identifier or checksum, a sensor register or its address, a word of `P` (R9, R32). -/
abbrev Word := BitVec 16

/-- A 32-bit value: `c_r32` and the telemetry dwords (R30, R224). -/
abbrev DWord := BitVec 32

/-- The host command word `CW` (R125). -/
abbrev CmdWord := BitVec 40

/-- The number of a segment slot: 0 to `N_SEG - 1`, the two bits `CW[25:24]` of the command word (R19, R126). -/
abbrev Slot := Fin 4

end Sys2Proof
end

