-- ==== Sys2Proof/Syntax.lean ====
section
/-! DEFINITION. The eighteen host operations (R130) as syntax, one constructor per row of the operation map, with the
operands R126 gives each. -/

namespace Sys2Proof

/-- The two command ports (R128). -/
inductive Port where
  | video
  | control
deriving DecidableEq, Repr

/-- A host operation with its operands (R126, R130). A slot is two bits, so every slot is in range (R127); packet indexes
and word counts are numbers, whose range `WellFormed` checks. -/
inductive Instr where
  /-- `CFG_SESSION tlm` (0x01, format C, R186) -/
  | cfgSession (tlm : Bool)
  /-- `RD_PKT s, p` (0x02, format S, R150) -/
  | rdPkt (s : Slot) (p : Nat)
  /-- `RD_SEG s` (0x03, format S, R170): `p` is ignored but for R127's check -/
  | rdSeg (s : Slot) (p : Nat)
  /-- `SYNC` (0x04, format N, R190) -/
  | sync
  /-- `XFER` (0x05, format N, R202) -/
  | xfer
  /-- `SET_MAX_RESETS value` (0x06, format V, R188) -/
  | setMaxResets (value : Word)
  /-- `TLM_DEC s, p` (0x10, format S, R220) -/
  | tlmDec (s : Slot) (p : Nat)
  /-- `REG_WR addr, value` (0x20, format W, R260) -/
  | regWr (addr value : Word)
  /-- `REG_RD addr` (0x21, format A, R262) -/
  | regRd (addr : Word)
  /-- `CCI_CMD opc, np, nr` (0x22, format G, R270) -/
  | cciCmd (opc : Word) (np nr : Nat)
  /-- `RUN_FFC` (0x30, format N, R290) -/
  | runFfc
  /-- `GET_UPTIME` (0x31, format N, R291) -/
  | getUptime
  /-- `GET_TLM_EN` (0x32, format N, R292) -/
  | getTlmEn
  /-- `SET_TLM_EN value` (0x33, format V, R293) -/
  | setTlmEn (value : Word)
  /-- `GET_TLM_LOC` (0x34, format N, R294) -/
  | getTlmLoc
  /-- `SET_TLM_LOC value` (0x35, format V, R295) -/
  | setTlmLoc (value : Word)
  /-- `GET_AGC_EN` (0x36, format N, R296) -/
  | getAgcEn
  /-- `SET_AGC_EN value` (0x37, format V, R297) -/
  | setAgcEn (value : Word)
deriving DecidableEq, Repr

end Sys2Proof
end

