-- ==== Sys2Proof/WellFormed.lean ====
section
/-! DEFINITION. Which terms of `Instr` a command word can carry: the operand widths of R126. -/

namespace Sys2Proof

/-- `p` fits `A[6:0]`; `np` fits `B[4:0]` and `nr` fits `B[12:8]` (R126). Every other operand fits by its type. -/
def WellFormed : Instr → Bool
  | .cfgSession _ => true
  | .rdPkt _ p => decide (p < 128)
  | .rdSeg _ p => decide (p < 128)
  | .sync => true
  | .xfer => true
  | .setMaxResets _ => true
  | .tlmDec _ p => decide (p < 128)
  | .regWr _ _ => true
  | .regRd _ => true
  | .cciCmd _ np nr => decide (np < 32) && decide (nr < 32)
  | .runFfc => true
  | .getUptime => true
  | .getTlmEn => true
  | .setTlmEn _ => true
  | .getTlmLoc => true
  | .setTlmLoc _ => true
  | .getAgcEn => true
  | .setAgcEn _ => true

end Sys2Proof
end

