-- ==== Sys2Proof/Decode.lean ====
section
/-! DEFINITION. The host command word (R125 to R131): bit slices, the decoder with its rejections, the encoder, and the
reading of a table word the host asks for. -/

namespace Sys2Proof

/-- `v[hi:lo]` as a number (R9). -/
def slice {n : Nat} (v : BitVec n) (hi lo : Nat) : Nat := v.toNat / 2 ^ lo % 2 ^ (hi - lo + 1)

/-- Why a port does not take a command word as an operation (R128, R131). -/
inductive DecodeError where
  /-- the code is in no row of R130 -/
  | reservedOp (op : Nat)
  /-- the code belongs to the other port -/
  | wrongPort (op : Nat)
deriving DecidableEq, Repr

/-- The operation code of each row of R130. -/
def Instr.opcode : Instr → Nat
  | .cfgSession _ => 0x01
  | .rdPkt _ _ => 0x02
  | .rdSeg _ _ => 0x03
  | .sync => 0x04
  | .xfer => 0x05
  | .setMaxResets _ => 0x06
  | .tlmDec _ _ => 0x10
  | .regWr _ _ => 0x20
  | .regRd _ => 0x21
  | .cciCmd _ _ _ => 0x22
  | .runFfc => 0x30
  | .getUptime => 0x31
  | .getTlmEn => 0x32
  | .setTlmEn _ => 0x33
  | .getTlmLoc => 0x34
  | .setTlmLoc _ => 0x35
  | .getAgcEn => 0x36
  | .setAgcEn _ => 0x37

/-- The port of each row of R130: `op[7:4]` is 0x0 or 0x1 on the video port, 0x2 or 0x3 on the control port (R128). -/
def Instr.port : Instr → Port
  | .cfgSession _ => .video
  | .rdPkt _ _ => .video
  | .rdSeg _ _ => .video
  | .sync => .video
  | .xfer => .video
  | .setMaxResets _ => .video
  | .tlmDec _ _ => .video
  | .regWr _ _ => .control
  | .regRd _ => .control
  | .cciCmd _ _ _ => .control
  | .runFfc => .control
  | .getUptime => .control
  | .getTlmEn => .control
  | .setTlmEn _ => .control
  | .getTlmLoc => .control
  | .setTlmLoc _ => .control
  | .getAgcEn => .control
  | .setAgcEn _ => .control

/-- `CW[39:32]` (R125). -/
def opField (cw : CmdWord) : Nat := slice cw 39 32

/-- `A = CW[31:16]` (R125). -/
def fieldA (cw : CmdWord) : Word := BitVec.ofNat 16 (slice cw 31 16)

/-- `B = CW[15:0]` (R125). -/
def fieldB (cw : CmdWord) : Word := BitVec.ofNat 16 (slice cw 15 0)

/-- Format S, slot: `A[9:8]` (R126). -/
def slotField (cw : CmdWord) : Slot := Fin.ofNat 4 (slice (fieldA cw) 9 8)

/-- Format S, packet index: `A[6:0]` (R126). -/
def packetField (cw : CmdWord) : Nat := slice (fieldA cw) 6 0

/-- Format C: `B[0]` (R126). -/
def tlmField (cw : CmdWord) : Bool := slice (fieldB cw) 0 0 == 1

/-- Format G, parameter words: `B[4:0]` (R126). -/
def npField (cw : CmdWord) : Nat := slice (fieldB cw) 4 0

/-- Format G, result words: `B[12:8]` (R126). -/
def nrField (cw : CmdWord) : Nat := slice (fieldB cw) 12 8

/-- The operation a command word stands for, whichever port it is on; a code outside R130 is rejected (R130, R131). -/
def decode (cw : CmdWord) : Except DecodeError Instr :=
  match opField cw with
  | 0x01 => .ok (.cfgSession (tlmField cw))
  | 0x02 => .ok (.rdPkt (slotField cw) (packetField cw))
  | 0x03 => .ok (.rdSeg (slotField cw) (packetField cw))
  | 0x04 => .ok .sync
  | 0x05 => .ok .xfer
  | 0x06 => .ok (.setMaxResets (fieldB cw))
  | 0x10 => .ok (.tlmDec (slotField cw) (packetField cw))
  | 0x20 => .ok (.regWr (fieldA cw) (fieldB cw))
  | 0x21 => .ok (.regRd (fieldA cw))
  | 0x22 => .ok (.cciCmd (fieldA cw) (npField cw) (nrField cw))
  | 0x30 => .ok .runFfc
  | 0x31 => .ok .getUptime
  | 0x32 => .ok .getTlmEn
  | 0x33 => .ok (.setTlmEn (fieldB cw))
  | 0x34 => .ok .getTlmLoc
  | 0x35 => .ok (.setTlmLoc (fieldB cw))
  | 0x36 => .ok .getAgcEn
  | 0x37 => .ok (.setAgcEn (fieldB cw))
  | op => .error (.reservedOp op)

/-- What a port takes a presented command word for: the operation if the word has one and it belongs to this port
(R128). -/
def decodeOn (p : Port) (cw : CmdWord) : Except DecodeError Instr :=
  match decode cw with
  | .error e => .error e
  | .ok i => if i.port = p then .ok i else .error (.wrongPort (opField cw))

/-- The command word with code `op` and operands `a` and `b` (R125). -/
def encodeWord (op : Nat) (a b : Nat) : CmdWord := BitVec.ofNat 40 (op * 2 ^ 32 + a * 2 ^ 16 + b)

/-- Operand `A` of format S (R126), the ignored bits 0. -/
def encodeS (s : Slot) (p : Nat) : Nat := s.val * 2 ^ 8 + p % 2 ^ 7

/-- Operand `B` of format G (R126), the ignored bits 0. -/
def encodeG (np nr : Nat) : Nat := nr % 2 ^ 5 * 2 ^ 8 + np % 2 ^ 5

/-- The command word of an operation (R125, R126, R130), the bits its format does not name written as 0. -/
def encode (i : Instr) : CmdWord :=
  match i with
  | .cfgSession tlm => encodeWord i.opcode 0 tlm.toNat
  | .rdPkt s p => encodeWord i.opcode (encodeS s p) 0
  | .rdSeg s p => encodeWord i.opcode (encodeS s p) 0
  | .sync => encodeWord i.opcode 0 0
  | .xfer => encodeWord i.opcode 0 0
  | .setMaxResets value => encodeWord i.opcode 0 value.toNat
  | .tlmDec s p => encodeWord i.opcode (encodeS s p) 0
  | .regWr addr value => encodeWord i.opcode addr.toNat value.toNat
  | .regRd addr => encodeWord i.opcode addr.toNat 0
  | .cciCmd opc np nr => encodeWord i.opcode opc.toNat (encodeG np nr)
  | .runFfc => encodeWord i.opcode 0 0
  | .getUptime => encodeWord i.opcode 0 0
  | .getTlmEn => encodeWord i.opcode 0 0
  | .setTlmEn value => encodeWord i.opcode 0 value.toNat
  | .getTlmLoc => encodeWord i.opcode 0 0
  | .setTlmLoc value => encodeWord i.opcode 0 value.toNat
  | .getAgcEn => encodeWord i.opcode 0 0
  | .setAgcEn value => encodeWord i.opcode 0 value.toNat

/-- The command word of a table row's bits: the table numbers the bits of the one 40-bit word as `CW` does (R125), and
every bit above `nbits` is 0. -/
def tableWord (nbits w : Nat) : CmdWord := BitVec.ofNat 40 (w % 2 ^ nbits)

/-- The instruction the decoder reads from a table row's bits. -/
def decodeTableWord (nbits w : Nat) : Option Instr :=
  match decode (tableWord nbits w) with
  | .ok i => some i
  | .error _ => none

end Sys2Proof
end

