-- ==== Sys2Proof/Config.lean ====
section
/-! DEFINITION. The parameter record `Cfg` of R7 with its constraints (R8), the plain data
that crosses the block's boundary (a sensor answer, a telemetry row), and the free values: constants without a body, for
what the spec leaves to the environment or calls unspecified. -/

namespace Sys2Proof

/-! ## The telemetry layout (R222) -/

/-- `TLM_LAYOUT` (R222): the byte offset in the payload of each field of R221, the offset of the status dword and the bit
positions inside it. The defaults are R222's table, which the spec marks as general knowledge (log 1). -/
structure TlmLayout where
  revision : Nat := 0
  msecSinceBoot : Nat := 2
  status : Nat := 6
  swRevision : Nat := 26
  frameCounter : Nat := 40
  frameMean : Nat := 44
  fpaTempRaw : Nat := 46
  fpaTempK100 : Nat := 48
  fpaTempLastFfc : Nat := 58
  msecLastFfc : Nat := 60
  agcRoiTop : Nat := 68
  agcRoiLeft : Nat := 70
  agcRoiBottom : Nat := 72
  agcRoiRight : Nat := 74
  agcClipHigh : Nat := 76
  agcClipLow : Nat := 78
  videoFormat : Nat := 144
  /-- bit of `ffc_desired` in the status dword -/
  ffcDesiredBit : Nat := 3
  /-- lower bit of the two bits of `ffc_state` -/
  ffcStateLsb : Nat := 4
  agcStateBit : Nat := 12
  shutterLockoutBit : Nat := 15
  overtempImminentBit : Nat := 20
deriving DecidableEq, Repr

/-- The byte ranges of a layout as (offset, length), in R222's order. -/
def TlmLayout.ranges (l : TlmLayout) : List (Nat × Nat) :=
  [(l.revision, 2), (l.msecSinceBoot, 4), (l.status, 4), (l.swRevision, 8), (l.frameCounter, 4), (l.frameMean, 2),
   (l.fpaTempRaw, 2), (l.fpaTempK100, 2), (l.fpaTempLastFfc, 2), (l.msecLastFfc, 4), (l.agcRoiTop, 2),
   (l.agcRoiLeft, 2), (l.agcRoiBottom, 2), (l.agcRoiRight, 2), (l.agcClipHigh, 2), (l.agcClipLow, 2),
   (l.videoFormat, 4)]

/-- The bits of the status dword a layout uses, in R222's order. -/
def TlmLayout.statusBits (l : TlmLayout) : List Nat :=
  [l.ffcDesiredBit, l.ffcStateLsb, l.ffcStateLsb + 1, l.agcStateBit, l.shutterLockoutBit, l.overtempImminentBit]

/-- R8 for the layout: every field inside the `payload` bytes of a payload, no two fields sharing a byte, and (R222) the
status fields inside the 32 bits and disjoint in bits. -/
abbrev TlmLayout.Valid (l : TlmLayout) (payload : Nat) : Prop :=
  (∀ r ∈ l.ranges, r.1 + r.2 ≤ payload) ∧
  l.ranges.Pairwise (fun r q => r.1 + r.2 ≤ q.1 ∨ q.1 + q.2 ≤ r.1) ∧
  (∀ b ∈ l.statusBits, b < 32) ∧ l.statusBits.Nodup

/-! ## The parameter record (R7) -/

/-- `Cfg` (R7). A default is the source's value or the spec's suggested default (log 1); the two optional bounds have none
in the spec, and `none` is the source's own unbounded loop (log 2). The first seven are fixed by the source and written as
numbers in the spec's other rules; `fixedBySource` says that no configuration has another value. -/
structure Cfg where
  nSeg : Nat := 4
  idBytes : Nat := 2
  crcBytes : Nat := 2
  payloadBytes : Nat := 160
  tttFirst : Nat := 1
  tttStale : Nat := 0
  uptimeWords : Nat := 2
  fixedBySource : nSeg = 4 ∧ idBytes = 2 ∧ crcBytes = 2 ∧ payloadBytes = 160 ∧ tttFirst = 1 ∧ tttStale = 0 ∧
    uptimeWords = 2 := by decide
  discardMask : Word := 0xF000
  anchor : Nat := 20
  backoffMs : Nat := 185
  maxResetsDefault : Nat := 30
  nNormal : Nat := 60
  nTlm : Nat := 61
  maxInvalidFrames : Nat := 25
  maxDiscardSkips : Option Nat := none
  cciPollLimit : Option Nat := none
  cciDevAddr : BitVec 7 := 0x2A
  regStatus : Word := 0x0002
  regCommand : Word := 0x0004
  regLength : Word := 0x0006
  regData0 : Word := 0x0008
  regStride : Nat := 2
  nData : Nat := 16
  busyMask : Word := 0x0001
  opcRunFfc : Word := 0x0242
  opcGetUptime : Word := 0x020C
  opcGetTlmEn : Word := 0x0218
  opcSetTlmEn : Word := 0x0219
  opcGetTlmLoc : Word := 0x021C
  opcSetTlmLoc : Word := 0x021D
  opcGetAgcEn : Word := 0x0100
  opcSetAgcEn : Word := 0x0101
  enumWords : Nat := 1
  tlmLayout : TlmLayout := {}
  tlmDwordMswFirst : Bool := true
  /-- `VIDEO_CLOCK_HZ`: informative only, no rule reads it (R7, R390). The spec gives a range, "typical 18–20 MHz", and no
  value; 20 MHz is the model's own. DESIGN CHOICE (log 31). -/
  videoClockHz : Nat := 20000000
deriving DecidableEq, Repr

/-! Seven parameters by their fixed values. -/

@[simp] theorem Cfg.nSeg_eq (c : Cfg) : c.nSeg = 4 := c.fixedBySource.1
@[simp] theorem Cfg.idBytes_eq (c : Cfg) : c.idBytes = 2 := c.fixedBySource.2.1
@[simp] theorem Cfg.crcBytes_eq (c : Cfg) : c.crcBytes = 2 := c.fixedBySource.2.2.1
@[simp] theorem Cfg.payloadBytes_eq (c : Cfg) : c.payloadBytes = 160 := c.fixedBySource.2.2.2.1
@[simp] theorem Cfg.tttFirst_eq (c : Cfg) : c.tttFirst = 1 := c.fixedBySource.2.2.2.2.1
@[simp] theorem Cfg.tttStale_eq (c : Cfg) : c.tttStale = 0 := c.fixedBySource.2.2.2.2.2.1
@[simp] theorem Cfg.uptimeWords_eq (c : Cfg) : c.uptimeWords = 2 := c.fixedBySource.2.2.2.2.2.2

/-- `PACKET_BYTES` = `ID_BYTES + CRC_BYTES + PAYLOAD_BYTES` (R7, R110). -/
def Cfg.packetBytes (c : Cfg) : Nat := c.idBytes + c.crcBytes + c.payloadBytes

@[simp] theorem Cfg.packetBytes_eq (c : Cfg) : c.packetBytes = 164 := by simp [Cfg.packetBytes]

/-- `SEG_CAP` = `N_TLM` (R7). -/
def Cfg.segCap (c : Cfg) : Nat := c.nTlm

/-- `INVALID_LIMIT` = `N_SEG * MAX_INVALID_FRAMES` (R7). -/
def Cfg.invalidLimit (c : Cfg) : Nat := c.nSeg * c.maxInvalidFrames

/-- Number of bytes of the frame buffer (R20). -/
def Cfg.fbSize (c : Cfg) : Nat := c.nSeg * c.segCap * c.packetBytes

/-- The address of data register `i` before it is cut to 16 bits (R36). -/
def Cfg.dataAddrNat (c : Cfg) (i : Nat) : Nat := c.regData0.toNat + c.regStride * i

/-- The register addresses the block uses: status, command, length and the data window (R87). -/
def Cfg.regAddrs (c : Cfg) : List Nat :=
  [c.regStatus.toNat, c.regCommand.toNat, c.regLength.toNat] ++ (List.range c.nData).map c.dataAddrNat

/-- The constraints of R7 and R8; a model refuses a `Cfg` that breaks one of them. The status bits of
the layout and the poll bound 0 are counted among them (log 20). -/
abbrev Cfg.Valid (c : Cfg) : Prop :=
  c.payloadBytes % 2 = 0 ∧
  c.anchor < c.nNormal ∧ c.nNormal < c.nTlm ∧ c.nTlm ≤ 128 ∧ c.anchor ≤ 255 ∧
  c.maxResetsDefault ≤ 254 ∧ c.invalidLimit ≤ 65534 ∧
  2 ≤ c.nData ∧ c.nData ≤ 16 ∧
  (∃ k ∈ List.range 16, c.busyMask.toNat = 2 ^ k) ∧
  c.regAddrs.Nodup ∧ (∀ a ∈ c.regAddrs, a < 65536) ∧
  c.tlmLayout.Valid c.payloadBytes ∧
  c.cciPollLimit ≠ some 0

/-- The instance that `State.reset` uses: the source's values and the spec's suggested defaults (log 1, log 2). -/
def Cfg.default : Cfg := {}

/-! ## What crosses the block's boundary -/

/-- What the sensor does to end the wait of the video engine at hand: the bytes a `VideoRead` delivers, in wire order (R11,
R79), and the level of `cancel_v` from then on (R12). In a `Backoff` only the level counts (log 4, log 17). -/
structure VideoAnswer where
  bytes : List Byte
  cancel : Bool
deriving DecidableEq, Repr, Inhabited

/-- What the sensor does to end a control-bus transaction: whether it acknowledged (R81, R82), the two bytes it returned
if the transaction is a read, and the level of `cancel_c` from then on (log 4). -/
structure CciAnswer where
  ack : Bool
  r0 : Byte
  r1 : Byte
  cancel : Bool
deriving DecidableEq, Repr, Inhabited

/-- `TelemetryRow`, the value of the telemetry output file `T` (R221). -/
structure TelemetryRow where
  revision : Word
  msecSinceBoot : DWord
  ffcDesired : Bool
  ffcState : BitVec 2
  agcState : Bool
  shutterLockout : Bool
  overtempImminent : Bool
  swRevision : BitVec 64
  frameCounter : DWord
  frameMean : Word
  fpaTempRaw : Word
  fpaTempK100 : Word
  fpaTempLastFfc : Word
  msecLastFfc : DWord
  agcRoiTop : Word
  agcRoiLeft : Word
  agcRoiBottom : Word
  agcRoiRight : Word
  agcClipHigh : Word
  agcClipLow : Word
  videoFormat : DWord
deriving DecidableEq, Repr, Inhabited

/-! ## Free values: no body, so nothing can be proved of what they are -/

/-- The byte at an address of the frame buffer that nothing has written since the reset that began the epoch (R62, R362;
log 10). -/
opaque Config.freeFbByte (epoch address : Nat) : Byte

/-- A word of `P` right after the reset that began the epoch (R62, R362; log 11). -/
opaque Config.freeParamWord (epoch index : Nat) : Word

/-- `T` right after the reset that began the epoch (R62, R362; log 12). -/
opaque Config.freeTelemetry (epoch : Nat) : TelemetryRow

/-- What the sensor does next on the video bus when no answer of the input list is left (R14; log 3). -/
opaque Config.freeVideoAnswer (tick : Nat) : VideoAnswer

/-- What the sensor does next on the control bus when no answer of the input list is left (R14; log 3). -/
opaque Config.freeCciAnswer (tick : Nat) : CciAnswer

/-- A read of the frame read port to which the spec gives no value (R72; log 13). -/
opaque Config.freePortByte (tick address : Nat) : Byte

/-- A read of `P` while the control engine is busy, or of a word `P` does not have (R32; log 13). -/
opaque Config.freePortWord (tick index : Nat) : Word

/-- A read of `T` while the video engine is busy (R33, R388; log 13). -/
opaque Config.freePortTelemetry (tick : Nat) : TelemetryRow

end Sys2Proof
end

