-- ==== Sys2Proof/Machine/State.lean ====
section
/-! DEFINITION. The state of the block (10_state.md), engine by engine, with the input lists the outside world drives, the
reasons a step can stop, and the state after reset (R62). -/

namespace Sys2Proof.Machine

open Sys2Proof

/-- No step of the block stops with a fault: a fault of an operation is a status code and the machine goes on (R310,
R325), so there is no constructor. Nothing raises it (log 27). -/
inductive Fault where
deriving DecidableEq, Repr

/-- Why a step has no meaning. -/
inductive Refusal where
  /-- An operation whose meaning is not written. Raised by a refused arm of `exec` only; no arm is refused. Safe. -/
  | notModelled (mnemonic : String)
  /-- The configuration breaks a constraint of R8, so the block is not instantiated (R8, U10). Raised by `step` only. Safe. -/
  | invalidConfig
deriving DecidableEq, Repr

/-- Status codes of an operation (R310). -/
inductive Status where
  | ok
  | ioFault
  | syncFailure
  | frameInvalid
  | cciTimeout
  | discardTimeout
  | cancelled
  | illegalOp
  | notSynchronized
  | badOperand
deriving DecidableEq, Repr

/-- States of the frame synchronizer (R22). -/
inductive FsState where
  | unsynchronized
  | seekingFirstSegment
  | synchronized
  | failed
deriving DecidableEq, Repr

/-- The operation the video engine is running (R24's `v_op`). -/
inductive VideoOp where
  | cfgSession
  | rdPkt
  | rdSeg
  | sync
  | xfer
  | setMaxResets
  | tlmDec
deriving DecidableEq, Repr

/-- Where the video engine stands in its pseudocode (R24): each label but `idle` is a wait for the outside world. -/
inductive VideoAt where
  /-- no operation in progress -/
  | idle
  /-- in `ReadPacket(slot, p)`, waiting for the bytes of one packet (R152) -/
  | packet (slot : Slot) (p : Nat)
  /-- in `ReadSegment(slot)`, waiting for the bulk read (R171) -/
  | bulk (slot : Slot)
  /-- in `Backoff`, at label `misalign` of `SYNC` (R190, R193) -/
  | backoff
deriving DecidableEq, Repr

/-- The operation the control engine is running (R24's `c_op`). -/
inductive ControlOp where
  | regWr
  | regRd
  | cciCmd
  | runFfc
  | getUptime
  | getTlmEn
  | setTlmEn
  | getTlmLoc
  | setTlmLoc
  | getAgcEn
  | setAgcEn
deriving DecidableEq, Repr

/-- The arguments of one run of the command handshake (R270). -/
structure Handshake where
  opc : Word
  np : Nat
  nr : Nat
deriving DecidableEq, Repr

/-- Where the control engine stands (R24's `cci_step`): each label but `idle` is a bus transaction in flight. -/
inductive ControlAt where
  /-- no operation in progress -/
  | idle
  /-- the write of `REG_WR` (R260) -/
  | regWrite (addr value : Word)
  /-- the read of `REG_RD` (R262) -/
  | regRead (addr : Word)
  /-- the write of parameter word `i` (R270) -/
  | param (h : Handshake) (i : Nat)
  /-- the write of the length register (R270, R271) -/
  | length (h : Handshake)
  /-- the write of the command register (R270) -/
  | command (h : Handshake)
  /-- a read of the status register after `polls` others (R270, R272) -/
  | poll (h : Handshake) (polls : Nat)
  /-- the read of result word `i` (R270) -/
  | result (h : Handshake) (i : Nat)
deriving DecidableEq, Repr

/-- The inputs of one command port (R125, R128): `cmd_valid`, `cmd_word` and the cancel level. -/
structure CmdPort where
  valid : Bool
  word : CmdWord
  cancel : Bool
deriving DecidableEq, Repr

/-- What the video engine did on its side of the boundary, for the record of `Video.bus`: a `VideoRead` of `asked` bytes
that delivered `got` (R79), or a `Backoff` (R332). -/
inductive VideoXact where
  | read (asked got : Nat)
  | backoff (ms : Nat)
deriving DecidableEq, Repr

/-- One control-bus transaction as it stood on the bus (R81, R82): the device address, the bytes the block sent, the bytes
it received, and whether the device acknowledged. -/
structure CciXact where
  dev : BitVec 7
  sent : List Byte
  received : List Byte
  ack : Bool
deriving DecidableEq, Repr

/-- The frame buffer as address and byte pairs, the addresses strictly rising; an unlisted byte has no value (R20, R62,
log 10). -/
abbrev Memory := List Host.Cell

/-- The canonical form of a memory: addresses strictly rising, so equal memories are equal lists. -/
abbrev Memory.wf (m : Memory) : Prop := m.Pairwise (fun x y => x.1 < y.1)

/-- The video side (R335): everything the video engine owns, its port and its sensor bus. -/
structure Video where
  /-- the video command port (R128) -/
  cmd : CmdPort
  /-- the sensor's answers still to come on the video bus (R14; log 3) -/
  sensor : List VideoAnswer
  /-- free answers taken so far (log 3) -/
  tick : Nat
  /-- resets so far (log 10) -/
  epoch : Nat
  /-- the frame buffer (R20) -/
  fb : Memory
  /-- packets per segment slot (R21) -/
  pktCount : Vector Nat 4
  /-- synchronizer state (R22) -/
  fsState : FsState
  /-- reset counter (R23) -/
  resets : Nat
  /-- stale re-read counter (R25) -/
  invalid : Nat
  /-- discard-skip counter (R26) -/
  skips : Nat
  /-- slot being filled by `SYNC` or `XFER`, 0 while no operation is in progress (R24, R62) -/
  seg : Nat
  /-- configuration register (R27) -/
  maxResets : Nat
  vBusy : Bool
  vDone : Bool
  frameValid : Bool
  vStatus : Status
  /-- frames the last `SYNC` or `XFER` transferred (R29) -/
  vFrames : Nat
  /-- resets of the last `SYNC` (R29) -/
  vResets : Nat
  /-- the telemetry output file `T` (R33) -/
  tlm : TelemetryRow
  /-- `v_op` while busy (R24) -/
  vOp : Option VideoOp
  /-- the label in progress (R24) -/
  vAt : VideoAt
  /-- transactions and backoffs made so far, oldest first (log 16) -/
  bus : List VideoXact
deriving DecidableEq, Repr

/-- The control side (R335): everything the control engine owns, its port and its bus. -/
structure Control where
  /-- the control command port (R128) -/
  cmd : CmdPort
  /-- the sensor's answers still to come on the control bus (R14; log 3) -/
  sensor : List CciAnswer
  /-- free answers taken so far (log 3) -/
  tick : Nat
  /-- resets so far (log 11) -/
  epoch : Nat
  /-- the parameter and result file `P` (R32) -/
  params : Vector Word 16
  cBusy : Bool
  cDone : Bool
  cStatus : Status
  /-- R30 -/
  cRdata : Word
  /-- R30 -/
  cR32 : DWord
  /-- `c_op` while busy (R24) -/
  cOp : Option ControlOp
  /-- the label in progress (R24) -/
  cAt : ControlAt
  /-- transactions made so far, oldest first (log 16) -/
  bus : List CciXact
deriving DecidableEq, Repr

/-- A move of the outside world between steps of the engines (R14, R32, R125, R316, R360). -/
inductive HostMove where
  /-- drive `cmd_valid = 1` and `cmd_word` on a port -/
  | present (p : Port) (word : CmdWord)
  /-- drive `cmd_valid = 0` on a port -/
  | withdraw (p : Port)
  /-- drive a port's cancel input -/
  | setCancel (p : Port) (level : Bool)
  /-- the parameter write port: `p_we` with `p_idx` and `p_wdata` -/
  | writeParam (idx : BitVec 4) (data : Word)
  /-- the sensor's next answers on the video bus -/
  | videoAnswers (answers : List VideoAnswer)
  /-- the sensor's next answers on the control bus -/
  | cciAnswers (answers : List CciAnswer)
  /-- drive the reset input `rst` -/
  | setReset (level : Bool)
deriving DecidableEq, Repr

/-- Who moves next: the outside world, or one of the two engines (R14, R91). -/
inductive Move where
  | host (m : HostMove)
  | serve (p : Port)
deriving DecidableEq, Repr

/-- The whole block with what drives it. The two engines share no field (R335). -/
structure State where
  /-- the parameters, fixed for the instance (R7; log 1) -/
  cfg : Cfg
  video : Video
  ctl : Control
  /-- the level of the reset input `rst` (R360) -/
  rst : Bool
  /-- the moves still to come; when there is none left an engine that has work moves (log 5) -/
  agenda : List Move
deriving DecidableEq, Repr

/-- No command presented, cancel low. -/
def CmdPort.quiet : CmdPort := { valid := false, word := 0, cancel := false }

/-- Every word of `P` right after a reset: free values (R62; log 11). -/
def paramsAtReset (epoch : Nat) : Vector Word 16 :=
  #v[Config.freeParamWord epoch 0, Config.freeParamWord epoch 1, Config.freeParamWord epoch 2,
     Config.freeParamWord epoch 3, Config.freeParamWord epoch 4, Config.freeParamWord epoch 5,
     Config.freeParamWord epoch 6, Config.freeParamWord epoch 7, Config.freeParamWord epoch 8,
     Config.freeParamWord epoch 9, Config.freeParamWord epoch 10, Config.freeParamWord epoch 11,
     Config.freeParamWord epoch 12, Config.freeParamWord epoch 13, Config.freeParamWord epoch 14,
     Config.freeParamWord epoch 15]

/-- The video side after reset (R62, R360): the table's values; the inputs, the sensor's answers and the record of the bus
are the outside world's and are given. -/
def Video.atReset (c : Cfg) (epoch : Nat) (cmd : CmdPort) (sensor : List VideoAnswer) (tick : Nat)
    (bus : List VideoXact) : Video where
  cmd := cmd
  sensor := sensor
  tick := tick
  epoch := epoch
  fb := []
  pktCount := #v[c.nNormal, c.nNormal, c.nNormal, c.nNormal]
  fsState := .unsynchronized
  resets := 0
  invalid := 0
  skips := 0
  seg := 0
  maxResets := c.maxResetsDefault
  vBusy := false
  vDone := false
  frameValid := false
  vStatus := .ok
  vFrames := 0
  vResets := 0
  tlm := Config.freeTelemetry epoch
  vOp := none
  vAt := .idle
  bus := bus

/-- The control side after reset (R62, R360). -/
def Control.atReset (epoch : Nat) (cmd : CmdPort) (sensor : List CciAnswer) (tick : Nat)
    (bus : List CciXact) : Control where
  cmd := cmd
  sensor := sensor
  tick := tick
  epoch := epoch
  params := paramsAtReset epoch
  cBusy := false
  cDone := false
  cStatus := .ok
  cRdata := 0
  cR32 := 0
  cOp := none
  cAt := .idle
  bus := bus

/-- The block with configuration `c` right after its first reset, `rst` released, with nothing presented and nothing
scripted. -/
def State.resetWith (c : Cfg) : State where
  cfg := c
  video := Video.atReset c 0 CmdPort.quiet [] 0 []
  ctl := Control.atReset 0 CmdPort.quiet [] 0 []
  rst := false
  agenda := []

/-- The machine right after reset (R62, R360), in the instance of `Cfg.default` (log 1). -/
def State.reset : State := State.resetWith Cfg.default

end Sys2Proof.Machine
end

