-- ==== Sys2Proof/Machine/Flags.lean ====
section
/-! DEFINITION. Status codes and the five one-bit flags (R31, R310): what acceptance and completion of an operation do to
them, on either port. -/

namespace Sys2Proof.Machine

open Sys2Proof

/-- The 4-bit status code (R310). -/
def Status.code : Status → BitVec 4
  | .ok => 0
  | .ioFault => 1
  | .syncFailure => 2
  | .frameInvalid => 3
  | .cciTimeout => 4
  | .discardTimeout => 5
  | .cancelled => 6
  | .illegalOp => 7
  | .notSynchronized => 8
  | .badOperand => 9

/-- The 2-bit code of the synchronizer state, the value of `fs_state_o` (R22). -/
def FsState.code : FsState → BitVec 2
  | .unsynchronized => 0
  | .seekingFirstSegment => 1
  | .synchronized => 2
  | .failed => 3

/-- The value of `v_op` (R24, R130). -/
def VideoOp.code : VideoOp → BitVec 8
  | .cfgSession => 0x01
  | .rdPkt => 0x02
  | .rdSeg => 0x03
  | .sync => 0x04
  | .xfer => 0x05
  | .setMaxResets => 0x06
  | .tlmDec => 0x10

/-- The value of `c_op` (R24, R130). -/
def ControlOp.code : ControlOp → BitVec 8
  | .regWr => 0x20
  | .regRd => 0x21
  | .cciCmd => 0x22
  | .runFfc => 0x30
  | .getUptime => 0x31
  | .getTlmEn => 0x32
  | .setTlmEn => 0x33
  | .getTlmLoc => 0x34
  | .setTlmLoc => 0x35
  | .getAgcEn => 0x36
  | .setAgcEn => 0x37

/-- Whether accepting the operation clears `frame_valid` (R31). -/
def VideoOp.clearsFrameValid : VideoOp → Bool
  | .cfgSession => true
  | .rdPkt => true
  | .rdSeg => true
  | .sync => true
  | .xfer => true
  | .setMaxResets => false
  | .tlmDec => false

/-- Acceptance on the video port (R125, R31): busy set, done cleared, `frame_valid` cleared by the operations that write
the frame buffer or reconfigure it. -/
def Video.accept (op : VideoOp) (v : Video) : Video :=
  { v with vBusy := true, vDone := false, vOp := some op, frameValid := v.frameValid && !op.clearsFrameValid }

/-- Completion on the video port (R132): status, done and busy in one step; of the sequencer's position, operation, label
and slot, nothing survives (R24, log 14). -/
def Video.complete (st : Status) (v : Video) : Video :=
  { v with vStatus := st, vDone := true, vBusy := false, vOp := none, vAt := .idle, seg := 0 }

/-- Acceptance on the control port (R125, R31). -/
def Control.accept (op : ControlOp) (k : Control) : Control :=
  { k with cBusy := true, cDone := false, cOp := some op }

/-- Completion on the control port (R132). -/
def Control.complete (st : Status) (k : Control) : Control :=
  { k with cStatus := st, cDone := true, cBusy := false, cOp := none, cAt := .idle }

end Sys2Proof.Machine
end

