-- ==== Sys2Proof/Machine/Ops.lean ====
section
/-! DEFINITION. The named operations over memory, registers and buses: byte order, the frame buffer's address formula and
its reads and writes, the parameter file, the records of the buses, and the taking of a fault (R325). There is no return
from a fault to stand beside it (R328). -/

namespace Sys2Proof.Machine

open Sys2Proof

/-! ## Byte order (R74, R77, R117) -/

/-- Two bytes as a 16-bit value, the first most significant: `hi ++ lo`. -/
def beWord (hi lo : Byte) : Word := hi ++ lo

/-- `v[15:8]`. -/
def hiByte (v : Word) : Byte := v.extractLsb' 8 8

/-- `v[7:0]`. -/
def loByte (v : Word) : Byte := v.extractLsb' 0 8

/-! ## The frame buffer (R20, R71, R73) -/

/-- Byte `x` of a memory, if something has written it. -/
def Memory.read (m : Memory) (x : Nat) : Option Byte := m.lookup x

/-- A run of cells: `bs` from address `x` up. -/
def Memory.run (x : Nat) : List Byte → Memory
  | [] => []
  | b :: bs => (x, b) :: Memory.run (x + 1) bs

/-- Writes the bytes `bs` from address `x` up, in one pass that keeps the canonical form. -/
def Memory.write (m : Memory) (x : Nat) (bs : List Byte) : Memory :=
  m.filter (fun e => decide (e.1 < x)) ++ Memory.run x bs ++ m.filter (fun e => decide (x + bs.length ≤ e.1))

/-- `addr(s, p, b)` (R71). -/
def fbAddr (c : Cfg) (s p b : Nat) : Nat := (s * c.segCap + p) * c.packetBytes + b

/-- `MemRead(FB, x, 1)` (R11, R72): the byte written there, or any value where nothing has been written since reset
(R362, log 10). -/
def Video.fbByte (v : Video) (x : Nat) : Byte := (v.fb.read x).getD (Config.freeFbByte v.epoch x)

/-- `FB[s][p].id` (R73). -/
def Video.entryId (c : Cfg) (v : Video) (s : Slot) (p : Nat) : Word :=
  beWord (v.fbByte (fbAddr c s p 1)) (v.fbByte (fbAddr c s p 0))

/-- `FB[s][p].crc` (R73). -/
def Video.entryCrc (c : Cfg) (v : Video) (s : Slot) (p : Nat) : Word :=
  beWord (v.fbByte (fbAddr c s p 3)) (v.fbByte (fbAddr c s p 2))

/-- `FB[s][p].payload[i]` (R73). -/
def Video.entryPayload (c : Cfg) (v : Video) (s : Slot) (p i : Nat) : Byte :=
  v.fbByte (fbAddr c s p (c.idBytes + c.crcBytes + i))

/-- `pkt_count[s]` (R21). -/
def Video.count (v : Video) (s : Slot) : Nat := v.pktCount.get s

/-! ## The video bus (R79) -/

/-- The bytes a `VideoRead(n)` delivers: at most `n` (R11; log 18). -/
def deliveredBytes (a : VideoAnswer) (n : Nat) : List Byte := a.bytes.take n

/-- Ends one wait on the video side: the transaction is recorded and `cancel_v` has the level the answer carries (log 4,
log 16). -/
def Video.observe (x : VideoXact) (cancel : Bool) (v : Video) : Video :=
  { v with bus := v.bus ++ [x], cmd := { v.cmd with cancel := cancel } }

/-! ## The control bus (R81, R82) -/

/-- One `CciWrite(a, v)` as it stands on the bus (R81). -/
def CciXact.ofWrite (c : Cfg) (a v : Word) (ack : Bool) : CciXact :=
  { dev := c.cciDevAddr, sent := [hiByte a, loByte a, hiByte v, loByte v], received := [], ack := ack }

/-- One `CciRead(a)` as it stands on the bus (R82). -/
def CciXact.ofRead (c : Cfg) (a : Word) (ans : CciAnswer) : CciXact :=
  { dev := c.cciDevAddr, sent := [hiByte a, loByte a], received := if ans.ack then [ans.r0, ans.r1] else [],
    ack := ans.ack }

/-- The value a `CciRead` returns on `ok`: `r0 ++ r1` (R82). -/
def answerValue (a : CciAnswer) : Word := beWord a.r0 a.r1

/-- Ends one transaction on the control side: it is recorded and `cancel_c` has the level the answer carries (log 4,
log 16). -/
def Control.observe (x : CciXact) (cancel : Bool) (k : Control) : Control :=
  { k with bus := k.bus ++ [x], cmd := { k.cmd with cancel := cancel } }

/-- The address of data register `i` (R36, R87). -/
def dataAddr (c : Cfg) (i : Nat) : Word := BitVec.ofNat 16 (c.dataAddrNat i)

/-! ## The parameter file (R32) -/

/-- `P[i]`; `P` has the words 0 to 15 and every index the engine uses is below `N_DATA` (R8, R127; log 28). -/
def Control.param (k : Control) (i : Nat) : Word := k.params[i]?.getD 0

/-- `P[i] <- w`. -/
def Control.setParam (k : Control) (i : Nat) (w : Word) : Control :=
  { k with params := k.params.setIfInBounds i w }

/-! ## Taking a fault (R325): the state changes of its table, the status code, done and busy, in one step -/

/-- The `fs_state` column of R325's table: what a fault of `op` leaves. -/
def faultFsState (op : Option VideoOp) (f : Status) (fs : FsState) : FsState :=
  match op with
  | some .sync => if f = .syncFailure then .failed else .unsynchronized
  | some .xfer => if f = .notSynchronized then fs else .unsynchronized
  | some .cfgSession => fs
  | some .rdPkt => fs
  | some .rdSeg => fs
  | some .setMaxResets => fs
  | some .tlmDec => fs
  | none => fs

/-- The `v_frames` column: 0 for `SYNC` and `XFER`, else unchanged. -/
def faultFrames (op : Option VideoOp) (frames : Nat) : Nat :=
  match op with
  | some .sync => 0
  | some .xfer => 0
  | some .cfgSession => frames
  | some .rdPkt => frames
  | some .rdSeg => frames
  | some .setMaxResets => frames
  | some .tlmDec => frames
  | none => frames

/-- The `v_resets` column: `resets` for `SYNC`, else unchanged. -/
def faultResets (op : Option VideoOp) (resets old : Nat) : Nat :=
  match op with
  | some .sync => resets
  | some .xfer => old
  | some .cfgSession => old
  | some .rdPkt => old
  | some .rdSeg => old
  | some .setMaxResets => old
  | some .tlmDec => old
  | none => old

/-- `raise f` on the video port (R12, R325). `frame_valid` was cleared when the operation was accepted (R31). -/
def Video.raise (f : Status) (v : Video) : Video :=
  ({ v with
      fsState := faultFsState v.vOp f v.fsState
      vFrames := faultFrames v.vOp v.vFrames
      vResets := faultResets v.vOp v.resets v.vResets } : Video).complete f

/-- `raise f` on the control port (R12, R325): nothing but status, done and busy; what the handshake has written stays
written (R275). -/
def Control.raise (f : Status) (k : Control) : Control := k.complete f

/-- `IllegalOp` on a port (R128, R325): only its status, done and busy flags change. -/
def raiseIllegalOp (p : Port) (s : State) : State :=
  match p with
  | .video => { s with video := s.video.complete .illegalOp }
  | .control => { s with ctl := s.ctl.complete .illegalOp }

end Sys2Proof.Machine
end

