-- ==== Sys2Proof/Machine/Operands.lean ====
section
/-! DEFINITION. The operand checks made at acceptance, before any bus transaction (R127). No other operand is checked. -/

namespace Sys2Proof.Machine

open Sys2Proof

/-- Format S: `p >= SEG_CAP` is a bad operand. -/
def badPacketIndex (c : Cfg) (p : Nat) : Bool := decide (c.segCap ≤ p)

/-- Format G: `np > N_DATA` or `nr > N_DATA` is a bad operand. -/
def badWordCounts (c : Cfg) (np nr : Nat) : Bool := decide (c.nData < np) || decide (c.nData < nr)

/-- `SET_MAX_RESETS`: `value > 254` is a bad operand. -/
def badMaxResets (value : Word) : Bool := decide (254 < value.toNat)

end Sys2Proof.Machine
end

