-- ==== Sys2Proof/Machine/CciEngine.lean ====
section
/-! DEFINITION. CciChannel's sequencer (44_cci_primitives.md): the register primitives, the command handshake line by line
(R270), what one answer of the sensor does at each label, and the run of an operation over the answers at hand. -/

namespace Sys2Proof.Machine

open Sys2Proof

/-- The value of the length register: `max(np, nr)` in 16-bit words (R271). -/
def lengthWord (h : Handshake) : Word := BitVec.ofNat 16 (max h.np h.nr)

/-- Whether a status value shows busy (R35). -/
def isBusy (c : Cfg) (status : Word) : Bool := status &&& c.busyMask != 0

/-- Whether the status read just made was the last the bound allows (R273). -/
def pollLimitReached (c : Cfg) (polls : Nat) : Bool :=
  match c.cciPollLimit with
  | none => false
  | some limit => decide (limit ≤ polls)

/-- A `CciWrite(a, w)` that the answer `ans` ends (R81). -/
def Control.wrote (c : Cfg) (a w : Word) (ans : CciAnswer) (k : Control) : Control :=
  k.observe (CciXact.ofWrite c a w ans.ack) ans.cancel

/-- A `CciRead(a)` that the answer `ans` ends (R82). -/
def Control.didRead (c : Cfg) (a : Word) (ans : CciAnswer) (k : Control) : Control :=
  k.observe (CciXact.ofRead c a ans) ans.cancel

/-- The last step of an operation whose handshake returned (R286, R288): the copy of a `GET_*` from `P`; then `Ok`. -/
def Control.finish (k : Control) : Control :=
  match k.cOp with
  | some .getUptime => ({ k with cR32 := k.param 1 ++ k.param 0 } : Control).complete .ok
  | some .getTlmEn => ({ k with cRdata := k.param 0 } : Control).complete .ok
  | some .getTlmLoc => ({ k with cRdata := k.param 0 } : Control).complete .ok
  | some .getAgcEn => ({ k with cRdata := k.param 0 } : Control).complete .ok
  | some .cciCmd => k.complete .ok
  | some .runFfc => k.complete .ok
  | some .setTlmEn => k.complete .ok
  | some .setTlmLoc => k.complete .ok
  | some .setAgcEn => k.complete .ok
  | some .regWr => k.complete .ok
  | some .regRd => k.complete .ok
  | none => k.complete .ok

/-- Where the parameter loop stands at index `i` (R270). -/
def Control.paramLoop (h : Handshake) (i : Nat) (k : Control) : Control :=
  { k with cAt := if i < h.np then .param h i else .length h }

/-- Where the result loop stands at index `i` (R270, label `done`). -/
def Control.resultLoop (h : Handshake) (i : Nat) (k : Control) : Control :=
  if i < h.nr then { k with cAt := .result h i } else k.finish

/-- The lines after one status read (R270, R272, R273, R276): `polls` counts it already. -/
def Control.afterPoll (c : Cfg) (h : Handshake) (polls : Nat) (status : Word) (k : Control) : Control :=
  if isBusy c status then
    if pollLimitReached c polls then k.raise .cciTimeout
    else if k.cmd.cancel then k.raise .cancelled
    else { k with cAt := .poll h polls }
  else k.resultLoop h 0

/-- One answer of the sensor, at the label where the engine waits. A transaction that is not acknowledged is an I/O fault
(R270, R311). -/
def Control.answer (c : Cfg) (a : CciAnswer) (k : Control) : Control :=
  match k.cAt with
  | .idle => k
  | .regWrite addr value =>
    let k := k.wrote c addr value a
    if a.ack then k.complete .ok else k.raise .ioFault
  | .regRead addr =>
    let k := k.didRead c addr a
    if a.ack then ({ k with cRdata := answerValue a } : Control).complete .ok else k.raise .ioFault
  | .param h i =>
    let k := k.wrote c (dataAddr c i) (k.param i) a
    if a.ack then k.paramLoop h (i + 1) else k.raise .ioFault
  | .length h =>
    let k := k.wrote c c.regLength (lengthWord h) a
    if a.ack then { k with cAt := .command h } else k.raise .ioFault
  | .command h =>
    let k := k.wrote c c.regCommand h.opc a
    if a.ack then { k with cAt := .poll h 0 } else k.raise .ioFault
  | .poll h polls =>
    let k := k.didRead c c.regStatus a
    if a.ack then k.afterPoll c h (polls + 1) (answerValue a) else k.raise .ioFault
  | .result h i =>
    let k := k.didRead c (dataAddr c i) a
    if a.ack then (k.setParam i (answerValue a)).resultLoop h (i + 1) else k.raise .ioFault

/-- Runs the operation in progress over the answers `as`, until it completes or none is left. -/
def Control.runOver (c : Cfg) : List CciAnswer → Control → Control
  | [], k => { k with sensor := [] }
  | a :: as, k => if k.cBusy then Control.runOver c as (k.answer c a) else { k with sensor := a :: as }

/-- Runs the operation in progress over the answers at hand. -/
def Control.run (c : Cfg) (k : Control) : Control := Control.runOver c k.sensor k

/-- Goes on with an operation in progress: over the answers at hand, or over one free answer if there is none (R14,
log 3). -/
def Control.resume (c : Cfg) (k : Control) : Control :=
  match k.sensor with
  | [] => Control.answer c (Config.freeCciAnswer k.tick) { k with tick := k.tick + 1 }
  | a :: as => Control.runOver c (a :: as) k

/-- The body of `CCI_CMD(opc, np, nr)` for the operation just accepted (R270, R286): the check, then the handshake. -/
def Control.handshake (c : Cfg) (h : Handshake) (k : Control) : Control :=
  if badWordCounts c h.np h.nr then k.raise .badOperand else (k.paramLoop h 0).run c

end Sys2Proof.Machine
end

