-- ==== Sys2Proof/Machine/CciOps.lean ====
section
/-! DEFINITION. The register primitives and the bare command handshake as operations of the control port (R260, R262,
R270). Each acts on the control side alone (R335); a command on a busy port is not accepted (R125, log 8). -/

namespace Sys2Proof.Machine

open Sys2Proof

/-- Runs `f` on the control side if the port is idle (R125). -/
def onControl (s : State) (f : Cfg → Control → Control) : Host.Outcome State Fault Refusal :=
  .next (if s.ctl.cBusy then s else { s with ctl := f s.cfg s.ctl })

/-- `REG_WR addr, value` (R260). -/
def regWr (addr value : Word) (c : Cfg) (k : Control) : Control :=
  ({ k.accept .regWr with cAt := .regWrite addr value } : Control).run c

/-- `REG_RD addr` (R262). -/
def regRd (addr : Word) (c : Cfg) (k : Control) : Control :=
  ({ k.accept .regRd with cAt := .regRead addr } : Control).run c

/-- `CCI_CMD opc, np, nr` (R270). -/
def cciCmd (opc : Word) (np nr : Nat) (c : Cfg) (k : Control) : Control :=
  (k.accept .cciCmd).handshake c { opc := opc, np := np, nr := nr }

/-- Meaning of `REG_WR` (R260). -/
def execRegWr (addr value : Word) (s : State) : Host.Outcome State Fault Refusal := onControl s (regWr addr value)

/-- Meaning of `REG_RD` (R262). -/
def execRegRd (addr : Word) (s : State) : Host.Outcome State Fault Refusal := onControl s (regRd addr)

/-- Meaning of `CCI_CMD` (R270). -/
def execCciCmd (opc : Word) (np nr : Nat) (s : State) : Host.Outcome State Fault Refusal :=
  onControl s (cciCmd opc np nr)

end Sys2Proof.Machine
end

