-- ==== Sys2Proof/Machine/CciCommands.lean ====
section
/-! DEFINITION. The eight composed commands (45_cci_commands.md): each is one handshake with fixed arguments, with a write
of `P[0]` before it for a `SET_*` and a copy from `P` after it for a `GET_*` (R286; the copy is `Control.finish`). -/

namespace Sys2Proof.Machine

open Sys2Proof

/-- A command with a result block and no parameter block (R286). -/
def getCommand (op : ControlOp) (opc : Word) (words : Nat) (c : Cfg) (k : Control) : Control :=
  (k.accept op).handshake c { opc := opc, np := 0, nr := words }

/-- A command with a parameter block and no result block: `P[0] <- value` first (R286). DESIGN CHOICE: the word stays written
where the handshake's check is `BadOperand` (log 20). -/
def setCommand (op : ControlOp) (opc : Word) (value : Word) (c : Cfg) (k : Control) : Control :=
  ((k.accept op).setParam 0 value).handshake c { opc := opc, np := c.enumWords, nr := 0 }

/-- Meaning of `RUN_FFC` (R290). -/
def execRunFfc (s : State) : Host.Outcome State Fault Refusal :=
  onControl s (fun c k => getCommand .runFfc c.opcRunFfc 0 c k)

/-- Meaning of `GET_UPTIME` (R291). -/
def execGetUptime (s : State) : Host.Outcome State Fault Refusal :=
  onControl s (fun c k => getCommand .getUptime c.opcGetUptime c.uptimeWords c k)

/-- Meaning of `GET_TLM_EN` (R292). -/
def execGetTlmEn (s : State) : Host.Outcome State Fault Refusal :=
  onControl s (fun c k => getCommand .getTlmEn c.opcGetTlmEn c.enumWords c k)

/-- Meaning of `SET_TLM_EN` (R293). -/
def execSetTlmEn (value : Word) (s : State) : Host.Outcome State Fault Refusal :=
  onControl s (fun c k => setCommand .setTlmEn c.opcSetTlmEn value c k)

/-- Meaning of `GET_TLM_LOC` (R294). -/
def execGetTlmLoc (s : State) : Host.Outcome State Fault Refusal :=
  onControl s (fun c k => getCommand .getTlmLoc c.opcGetTlmLoc c.enumWords c k)

/-- Meaning of `SET_TLM_LOC` (R295). -/
def execSetTlmLoc (value : Word) (s : State) : Host.Outcome State Fault Refusal :=
  onControl s (fun c k => setCommand .setTlmLoc c.opcSetTlmLoc value c k)

/-- Meaning of `GET_AGC_EN` (R296). -/
def execGetAgcEn (s : State) : Host.Outcome State Fault Refusal :=
  onControl s (fun c k => getCommand .getAgcEn c.opcGetAgcEn c.enumWords c k)

/-- Meaning of `SET_AGC_EN` (R297). -/
def execSetAgcEn (value : Word) (s : State) : Host.Outcome State Fault Refusal :=
  onControl s (fun c k => setCommand .setAgcEn c.opcSetAgcEn value c k)

end Sys2Proof.Machine
end

