-- ==== Sys2Proof/Machine/PacketCodec.lean ====
section
/-! DEFINITION. PacketCodec (40_packet_codec.md): decoding one packet into the frame buffer and the discard predicate. -/

namespace Sys2Proof.Machine

open Sys2Proof

/-- The identifier of a packet from its wire bytes: `w[0] ++ w[1]` (R74). -/
def wireId (w : List Byte) : Word := beWord (w.getD 0 0) (w.getD 1 0)

/-- The checksum of a packet from its wire bytes: `w[2] ++ w[3]` (R74). -/
def wireCrc (w : List Byte) : Word := beWord (w.getD 2 0) (w.getD 3 0)

/-- The bytes of a packet entry in address order: identifier and checksum least significant byte first, payload as it came
(R73, R151). -/
def entryBytes (c : Cfg) (w : List Byte) : List Byte :=
  [loByte (wireId w), hiByte (wireId w), loByte (wireCrc w), hiByte (wireCrc w)] ++ (w.drop (c.idBytes + c.crcBytes)).take c.payloadBytes

/-- `DecodePacket(s, p, w)` (R151). -/
def Video.decodePacket (c : Cfg) (s : Slot) (p : Nat) (w : List Byte) (v : Video) : Video :=
  { v with fb := v.fb.write (fbAddr c s p 0) (entryBytes c w) }

/-- `is_discard(id)` (R112), on the decoded identifier. -/
def isDiscard (c : Cfg) (id : Word) : Bool := id &&& c.discardMask == c.discardMask

/-- Whether `skips` now exceeds the bound, where one is set (R152). -/
def tooManySkips (c : Cfg) (skips : Nat) : Bool :=
  match c.maxDiscardSkips with
  | none => false
  | some bound => decide (bound < skips)

/-- The start of `ReadPacket(s, p)`: `skips <- 0`, then the first read is asked for (R152, R26). -/
def Video.startPacket (s : Slot) (p : Nat) (v : Video) : Video := { v with skips := 0, vAt := .packet s p }

/-- The lines of `ReadPacket` after a discard packet (R152): count it, test the bound, sample cancel, read again. -/
def Video.skipDiscard (c : Cfg) (v : Video) : Video :=
  let v := { v with skips := v.skips + 1 }
  if tooManySkips c v.skips then v.raise .discardTimeout
  else if v.cmd.cancel then v.raise .cancelled
  else v

end Sys2Proof.Machine
end

