-- ==== Sys2Proof/Machine/FrameSync.lean ====
section
/-! DEFINITION. FrameSynchronizer (42_frame_sync.md): the anchor check, and the lines of the `SYNC` and `XFER` pseudocode
between two waits. A wait is a segment read, which starts with its packet 0, or the backoff. -/

namespace Sys2Proof.Machine

open Sys2Proof

/-- Outcomes of the anchor check (R191). -/
inductive Anchor where
  | misaligned
  | matched
  | stale
  | wrongSegment
deriving DecidableEq, Repr

/-- The line field `id[7:0]` (R111). -/
def lineOf (id : Word) : Nat := slice id 7 0

/-- The TTT field `id[15:12]` (R111). -/
def tttOf (id : Word) : Nat := slice id 15 12

/-- The anchor check on an identifier, for the slot `s` (R191): the line field first. -/
def anchorOutcome (c : Cfg) (s : Slot) (id : Word) : Anchor :=
  if lineOf id ≠ c.anchor then .misaligned
  else if tttOf id = s.val + c.tttFirst then .matched
  else if tttOf id = c.tttStale then .stale
  else .wrongSegment

/-- `CheckAnchor(s)` (R191). -/
def Video.checkAnchor (c : Cfg) (v : Video) (s : Slot) : Anchor := anchorOutcome c s (v.entryId c s c.anchor)

/-- Labels `step1` and `reread` (R190, R202, R210): sample cancel, then start `ReadSegment(s)`; `seg` is the slot being
filled (R24; log 14). -/
def Video.readSlot (s : Slot) (v : Video) : Video :=
  if v.cmd.cancel then v.raise .cancelled else ({ v with seg := s.val } : Video).startPacket s 0

/-- One stale re-read more (R198, R204): past `INVALID_LIMIT` the operation ends, else the same slot is read again. -/
def Video.staleReread (c : Cfg) (s : Slot) (v : Video) : Video :=
  let v := { v with invalid := v.invalid + 1 }
  if c.invalidLimit < v.invalid then v.raise .frameInvalid else v.readSlot s

/-! ## SYNC (R190) -/

/-- `SYNC` completes `Ok` (R200). -/
def Video.syncSuccess (v : Video) : Video :=
  ({ v with
      fsState := .synchronized
      invalid := 0
      frameValid := true
      vFrames := 1
      vResets := v.resets } : Video).complete .ok

/-- `SYNC`, a segment numbered neither as expected nor 0, or at slot 0 any other than 1 (R195, R199): back to `step1`. -/
def Video.seekFirst (v : Video) : Video := Video.readSlot 0 { v with fsState := .seekingFirstSegment }

/-- `SYNC`, label `next` (R190). -/
def Video.syncNext (c : Cfg) (v : Video) : Video :=
  if h : v.seg < c.nSeg then v.readSlot ⟨v.seg, c.nSeg_eq ▸ h⟩ else v.syncSuccess

/-- `SYNC` after `ReadSegment(s)` (R190): the anchor check and its four outcomes. At slot 0 every outcome but `Match` and
`Misaligned` is "TTT is not 1". -/
def Video.syncAfterSegment (c : Cfg) (s : Slot) (v : Video) : Video :=
  match v.checkAnchor c s with
  | .matched => ({ v with seg := s.val + 1 } : Video).syncNext c
  | .misaligned => { v with vAt := .backoff }
  | .stale => if s = 0 then v.seekFirst else v.staleReread c s
  | .wrongSegment => v.seekFirst

/-- `SYNC` after `Backoff` (R190, R193): count the misalignment, then fail past `max_resets` or go back to `step1`. -/
def Video.syncAfterBackoff (v : Video) : Video :=
  let v := { v with resets := v.resets + 1, fsState := .unsynchronized }
  if v.maxResets < v.resets then v.raise .syncFailure else v.readSlot 0

/-! ## XFER (R202) -/

/-- `XFER` completes `Ok` (R202). -/
def Video.xferSuccess (v : Video) : Video :=
  ({ v with invalid := 0, frameValid := true, vFrames := 1 } : Video).complete .ok

/-- `XFER`, label `next` (R202). -/
def Video.xferNext (c : Cfg) (v : Video) : Video :=
  if h : v.seg < c.nSeg then v.readSlot ⟨v.seg, c.nSeg_eq ▸ h⟩ else v.xferSuccess

/-- `XFER` after `ReadSegment(s)` (R202, R205). -/
def Video.xferAfterSegment (c : Cfg) (s : Slot) (v : Video) : Video :=
  match v.checkAnchor c s with
  | .matched => ({ v with seg := s.val + 1 } : Video).xferNext c
  | .stale => v.staleReread c s
  | .misaligned => v.raise .frameInvalid
  | .wrongSegment => v.raise .frameInvalid

end Sys2Proof.Machine
end

