-- ==== Sys2Proof/Machine/SegmentReader.lean ====
section
/-! DEFINITION. SegmentReader (41_segment_reader.md): storing the bulk read, and where control goes when `ReadPacket` and
`ReadSegment` return. -/

namespace Sys2Proof.Machine

open Sys2Proof

/-- The entries of `k` packets one after another, from their wire bytes (R171, step 3): each packet is decoded once. -/
def bulkBytes (c : Cfg) : Nat → List Byte → List Byte
  | 0, _ => []
  | k + 1, w => entryBytes c (w.take c.packetBytes) ++ bulkBytes c k (w.drop c.packetBytes)

/-- How many bytes the bulk read of slot `s` asks for: `PACKET_BYTES * (pkt_count[s] - 1)` (R79, R171). -/
def Video.bulkLen (c : Cfg) (v : Video) (s : Slot) : Nat := c.packetBytes * (v.count s - 1)

/-- Stores the bulk bytes as the entries 1 to `pkt_count[s] - 1` of slot `s`, in one step (R85, R171). -/
def Video.storeBulk (c : Cfg) (s : Slot) (w : List Byte) (v : Video) : Video :=
  { v with fb := v.fb.write (fbAddr c s 1 0) (bulkBytes c (v.count s - 1) w) }

/-- `ReadSegment(s)` has returned: `RD_SEG` is done (R170), `SYNC` and `XFER` check the anchor. No other operation reads
segments. -/
def Video.afterSegment (c : Cfg) (s : Slot) (v : Video) : Video :=
  match v.vOp with
  | some .rdSeg => v.complete .ok
  | some .sync => v.syncAfterSegment c s
  | some .xfer => v.xferAfterSegment c s
  | some .rdPkt => v.complete .ok
  | some .cfgSession => v.complete .ok
  | some .setMaxResets => v.complete .ok
  | some .tlmDec => v.complete .ok
  | none => v.complete .ok

/-- `ReadPacket(s, 0)` has returned inside `ReadSegment(s)`: the bulk read follows unless the segment is one packet
(R171). -/
def Video.afterFirstPacket (c : Cfg) (s : Slot) (v : Video) : Video :=
  if 1 < v.count s then { v with vAt := .bulk s } else v.afterSegment c s

/-- `ReadPacket(s, p)` has returned: `RD_PKT` is done (R150), the others are inside `ReadSegment` (R171). -/
def Video.afterPacket (c : Cfg) (s : Slot) (v : Video) : Video :=
  match v.vOp with
  | some .rdPkt => v.complete .ok
  | some .rdSeg => v.afterFirstPacket c s
  | some .sync => v.afterFirstPacket c s
  | some .xfer => v.afterFirstPacket c s
  | some .cfgSession => v.complete .ok
  | some .setMaxResets => v.complete .ok
  | some .tlmDec => v.complete .ok
  | none => v.complete .ok

end Sys2Proof.Machine
end

