-- ==== Sys2Proof/Machine/VideoEngine.lean ====
section
/-! DEFINITION. The video engine's sequencer (R24): what one answer of the outside world does at each label, and the run of
an operation over the answers at hand. A run that uses up its answers leaves the operation in progress (log 9). -/

namespace Sys2Proof.Machine

open Sys2Proof

/-- One pass of `ReadPacket(s, p)` (R152): a short read is an I/O fault and stores nothing (R154); else the packet is
decoded, the predicate evaluated on the stored identifier, and a discard packet skipped. -/
def Video.packetPass (c : Cfg) (s : Slot) (p : Nat) (a : VideoAnswer) (v : Video) : Video :=
  let w := deliveredBytes a c.packetBytes
  let v := v.observe (.read c.packetBytes w.length) a.cancel
  if w.length < c.packetBytes then v.raise .ioFault
  else
    let v := v.decodePacket c s p w
    if isDiscard c (v.entryId c s p) then v.skipDiscard c else v.afterPacket c s

/-- The bulk read of `ReadSegment(s)` (R171): a short read is an I/O fault and stores nothing; no packet of it is tested
(R173). -/
def Video.bulkPass (c : Cfg) (s : Slot) (a : VideoAnswer) (v : Video) : Video :=
  let w := deliveredBytes a (v.bulkLen c s)
  let n := v.bulkLen c s
  let v := v.observe (.read n w.length) a.cancel
  if w.length < n then v.raise .ioFault else (v.storeBulk c s w).afterSegment c s

/-- The end of `Backoff(BACKOFF_MS)` (R193, R332): the bus was idle, no state changed meanwhile. -/
def Video.backoffPass (c : Cfg) (a : VideoAnswer) (v : Video) : Video :=
  (v.observe (.backoff c.backoffMs) a.cancel).syncAfterBackoff

/-- One answer of the outside world, at the label where the engine waits. -/
def Video.answer (c : Cfg) (a : VideoAnswer) (v : Video) : Video :=
  match v.vAt with
  | .idle => v
  | .packet s p => v.packetPass c s p a
  | .bulk s => v.bulkPass c s a
  | .backoff => v.backoffPass c a

/-- Runs the operation in progress over the answers `as`, until it completes or none is left; what is left stays for the
next operation. -/
def Video.runOver (c : Cfg) : List VideoAnswer → Video → Video
  | [], v => { v with sensor := [] }
  | a :: as, v => if v.vBusy then Video.runOver c as (v.answer c a) else { v with sensor := a :: as }

/-- Runs the operation in progress over the answers at hand. -/
def Video.run (c : Cfg) (v : Video) : Video := Video.runOver c v.sensor v

/-- Goes on with an operation in progress: over the answers at hand, or over one free answer if there is none (R14,
log 3). -/
def Video.resume (c : Cfg) (v : Video) : Video :=
  match v.sensor with
  | [] => Video.answer c (Config.freeVideoAnswer v.tick) { v with tick := v.tick + 1 }
  | a :: as => Video.runOver c (a :: as) v

end Sys2Proof.Machine
end

