-- ==== Sys2Proof/Machine/Telemetry.lean ====
section
/-! DEFINITION. TelemetryDecoder (43_telemetry.md): fixed-offset fields of one packet's payload, for any layout (R222). -/

namespace Sys2Proof.Machine

open Sys2Proof

/-- `word(o)` (R223). -/
def tlmWord (payload : Nat → Byte) (o : Nat) : Word := beWord (payload o) (payload (o + 1))

/-- `dword(o)` (R224): which half comes first is `TLM_DWORD_MSW_FIRST`. -/
def tlmDword (c : Cfg) (payload : Nat → Byte) (o : Nat) : DWord :=
  if c.tlmDwordMswFirst then tlmWord payload o ++ tlmWord payload (o + 2)
  else tlmWord payload (o + 2) ++ tlmWord payload o

/-- The eight bytes of the software revision, the first most significant (R226). -/
def tlmSwRevision (payload : Nat → Byte) (o : Nat) : BitVec 64 :=
  tlmWord payload o ++ tlmWord payload (o + 2) ++ tlmWord payload (o + 4) ++ tlmWord payload (o + 6)

/-- `DecodeTelemetry(payload)` (R229): pure and total; no conversion on any field (R227). -/
def decodeTelemetry (c : Cfg) (payload : Nat → Byte) : TelemetryRow :=
  let l := c.tlmLayout
  let st := tlmDword c payload l.status
  { revision := tlmWord payload l.revision
    msecSinceBoot := tlmDword c payload l.msecSinceBoot
    ffcDesired := st.getLsbD l.ffcDesiredBit
    ffcState := st.extractLsb' l.ffcStateLsb 2
    agcState := st.getLsbD l.agcStateBit
    shutterLockout := st.getLsbD l.shutterLockoutBit
    overtempImminent := st.getLsbD l.overtempImminentBit
    swRevision := tlmSwRevision payload l.swRevision
    frameCounter := tlmDword c payload l.frameCounter
    frameMean := tlmWord payload l.frameMean
    fpaTempRaw := tlmWord payload l.fpaTempRaw
    fpaTempK100 := tlmWord payload l.fpaTempK100
    fpaTempLastFfc := tlmWord payload l.fpaTempLastFfc
    msecLastFfc := tlmDword c payload l.msecLastFfc
    agcRoiTop := tlmWord payload l.agcRoiTop
    agcRoiLeft := tlmWord payload l.agcRoiLeft
    agcRoiBottom := tlmWord payload l.agcRoiBottom
    agcRoiRight := tlmWord payload l.agcRoiRight
    agcClipHigh := tlmWord payload l.agcClipHigh
    agcClipLow := tlmWord payload l.agcClipLow
    videoFormat := tlmDword c payload l.videoFormat }

end Sys2Proof.Machine
end

