-- ==== Sys2Proof/Machine/VideoOps.lean ====
section
/-! DEFINITION. The seven operations of the video port. Each acts on the video side alone (R335); a command on a busy port
is not accepted and nothing happens (R125, log 8). -/

namespace Sys2Proof.Machine

open Sys2Proof

/-- Runs `f` on the video side if the port is idle (R125). -/
def onVideo (s : State) (f : Cfg → Video → Video) : Host.Outcome State Fault Refusal :=
  .next (if s.video.vBusy then s else { s with video := f s.cfg s.video })

/-- `CFG_SESSION tlm` (R186). -/
def cfgSession (tlm : Bool) (c : Cfg) (v : Video) : Video :=
  let n := if tlm then c.nTlm else c.nNormal
  ({ v.accept .cfgSession with
      pktCount := #v[n, n, n, n]
      fsState := .unsynchronized
      invalid := 0
      frameValid := false } : Video).complete .ok

/-- `RD_PKT s, p` (R150): `frame_valid` falls at acceptance, before the operand check (C10). -/
def rdPkt (slot : Slot) (p : Nat) (c : Cfg) (v : Video) : Video :=
  let v := v.accept .rdPkt
  if badPacketIndex c p then v.raise .badOperand else (v.startPacket slot p).run c

/-- `RD_SEG s` (R170): the ignored `p` still has to pass the check of R127. -/
def rdSeg (slot : Slot) (p : Nat) (c : Cfg) (v : Video) : Video :=
  let v := v.accept .rdSeg
  if badPacketIndex c p then v.raise .badOperand else (v.startPacket slot 0).run c

/-- `SYNC` (R190), from its first line to `step1`. -/
def syncOp (c : Cfg) (v : Video) : Video :=
  ({ v.accept .sync with resets := 0, invalid := 0, fsState := .unsynchronized } : Video).readSlot 0 |>.run c

/-- `XFER` (R202), from its first line to `reread` of slot 0. -/
def xferOp (c : Cfg) (v : Video) : Video :=
  let v := v.accept .xfer
  if v.fsState ≠ .synchronized then v.raise .notSynchronized
  else ({ v with seg := 0 } : Video).xferNext c |>.run c

/-- `SET_MAX_RESETS value` (R188). -/
def setMaxResets (value : Word) (_ : Cfg) (v : Video) : Video :=
  let v := v.accept .setMaxResets
  if badMaxResets value then v.raise .badOperand else ({ v with maxResets := value.toNat } : Video).complete .ok

/-- `TLM_DEC s, p` (R220). -/
def tlmDec (slot : Slot) (p : Nat) (c : Cfg) (v : Video) : Video :=
  let v := v.accept .tlmDec
  if badPacketIndex c p then v.raise .badOperand
  else ({ v with tlm := decodeTelemetry c (v.entryPayload c slot p) } : Video).complete .ok

/-- Meaning of `CFG_SESSION` (R186). -/
def execCfgSession (tlm : Bool) (s : State) : Host.Outcome State Fault Refusal := onVideo s (cfgSession tlm)

/-- Meaning of `RD_PKT` (R150). -/
def execRdPkt (slot : Slot) (p : Nat) (s : State) : Host.Outcome State Fault Refusal := onVideo s (rdPkt slot p)

/-- Meaning of `RD_SEG` (R170). -/
def execRdSeg (slot : Slot) (p : Nat) (s : State) : Host.Outcome State Fault Refusal := onVideo s (rdSeg slot p)

/-- Meaning of `SYNC` (R190). -/
def execSync (s : State) : Host.Outcome State Fault Refusal := onVideo s syncOp

/-- Meaning of `XFER` (R202). -/
def execXfer (s : State) : Host.Outcome State Fault Refusal := onVideo s xferOp

/-- Meaning of `SET_MAX_RESETS` (R188). -/
def execSetMaxResets (value : Word) (s : State) : Host.Outcome State Fault Refusal := onVideo s (setMaxResets value)

/-- Meaning of `TLM_DEC` (R220). -/
def execTlmDec (slot : Slot) (p : Nat) (s : State) : Host.Outcome State Fault Refusal := onVideo s (tlmDec slot p)

end Sys2Proof.Machine
end

