-- ==== Sys2Proof/Machine/Dispatch.lean ====
section
/-! DEFINITION. One arm per operation (R130): each calls its meaning. -/

namespace Sys2Proof.Machine

open Sys2Proof

-- The effect of an accepted operation, run to completion or until the sensor's answers at hand are used up (log 9).
def exec (i : Instr) (s : State) : Host.Outcome State Fault Refusal :=
  match i with
  | .cfgSession tlm => Sys2Proof.Machine.execCfgSession tlm s
  | .rdPkt slot p => Sys2Proof.Machine.execRdPkt slot p s
  | .rdSeg slot p => Sys2Proof.Machine.execRdSeg slot p s
  | .sync => Sys2Proof.Machine.execSync s
  | .xfer => Sys2Proof.Machine.execXfer s
  | .setMaxResets value => Sys2Proof.Machine.execSetMaxResets value s
  | .tlmDec slot p => Sys2Proof.Machine.execTlmDec slot p s
  | .regWr addr value => Sys2Proof.Machine.execRegWr addr value s
  | .regRd addr => Sys2Proof.Machine.execRegRd addr s
  | .cciCmd opc np nr => Sys2Proof.Machine.execCciCmd opc np nr s
  | .runFfc => Sys2Proof.Machine.execRunFfc s
  | .getUptime => Sys2Proof.Machine.execGetUptime s
  | .getTlmEn => Sys2Proof.Machine.execGetTlmEn s
  | .setTlmEn value => Sys2Proof.Machine.execSetTlmEn value s
  | .getTlmLoc => Sys2Proof.Machine.execGetTlmLoc s
  | .setTlmLoc value => Sys2Proof.Machine.execSetTlmLoc value s
  | .getAgcEn => Sys2Proof.Machine.execGetAgcEn s
  | .setAgcEn value => Sys2Proof.Machine.execSetAgcEn value s

end Sys2Proof.Machine
end

