-- ==== Sys2Proof/Machine/HostPorts.lean ====
section
/-! DEFINITION. The boundary to the host: its moves between steps of the engines (commands, cancel inputs, the parameter
write port, reset), the outputs it reads, and taking a presented command word. -/

namespace Sys2Proof.Machine

open Sys2Proof

/-- Changes the inputs of one command port. -/
def State.onPort (s : State) (p : Port) (f : CmdPort → CmdPort) : State :=
  match p with
  | .video => { s with video := { s.video with cmd := f s.video.cmd } }
  | .control => { s with ctl := { s.ctl with cmd := f s.ctl.cmd } }

/-- The inputs of one command port. -/
def State.port (s : State) (p : Port) : CmdPort :=
  match p with
  | .video => s.video.cmd
  | .control => s.ctl.cmd

/-- The busy flag of one port (R31). -/
def State.busy (s : State) (p : Port) : Bool :=
  match p with
  | .video => s.video.vBusy
  | .control => s.ctl.cBusy

/-- A write through the parameter port: ignored while `c_busy = 1` (R32), and for a word `P` does not have (log 21). -/
def Control.hostWrite (c : Cfg) (idx : BitVec 4) (data : Word) (k : Control) : Control :=
  if k.cBusy || decide (c.nData ≤ idx.toNat) then k else k.setParam idx.toNat data

/-- The registers of the block at the table of R62, for both engines (R360): an operation in progress is abandoned without a
status. The sensor, the host's inputs and the records of what went over the buses are not reset (log 19). -/
def State.applyReset (s : State) : State :=
  { s with
    video := Video.atReset s.cfg (s.video.epoch + 1) s.video.cmd s.video.sensor s.video.tick s.video.bus
    ctl := Control.atReset (s.ctl.epoch + 1) s.ctl.cmd s.ctl.sensor s.ctl.tick s.ctl.bus }

/-- The host drives `rst` (R360): the table of R62 holds from the assertion on and when `rst` is released. Driving the
released input low again is no reset. -/
def State.driveReset (level : Bool) (s : State) : State :=
  if level || s.rst then { s.applyReset with rst := level } else s

/-- One move of the outside world. -/
def hostMove (m : HostMove) (s : State) : State :=
  match m with
  | .present p word => s.onPort p fun q => { q with valid := true, word := word }
  | .withdraw p => s.onPort p fun q => { q with valid := false }
  | .setCancel p level => s.onPort p fun q => { q with cancel := level }
  | .writeParam idx data => { s with ctl := s.ctl.hostWrite s.cfg idx data }
  | .videoAnswers answers => { s with video := { s.video with sensor := s.video.sensor ++ answers } }
  | .cciAnswers answers => { s with ctl := { s.ctl with sensor := s.ctl.sensor ++ answers } }
  | .setReset level => s.driveReset level

/-- The accepted command leaves the port: the host lowers `cmd_valid` when its command is accepted (log 7). -/
def State.takeCommand (s : State) (p : Port) : State := s.onPort p fun q => { q with valid := false }

/-- The port that `op[7:4]` of a word belongs to (R128); a word of neither port is given to the video port, which answers
`IllegalOp` (log 22). -/
def portOfWord (cw : CmdWord) : Port :=
  if slice cw 39 36 = 2 ∨ slice cw 39 36 = 3 then .control else .video

/-- The port idle, with `cw` presented on it and `rst` released: what a port needs to accept `cw` in its next turn (R125,
R360). -/
def State.presentIdle (s : State) (p : Port) (cw : CmdWord) : State :=
  match p with
  | .video =>
    { s with rst := false, video := { s.video with
        cmd := { s.video.cmd with valid := true, word := cw }, vBusy := false, vOp := none, vAt := .idle, seg := 0 } }
  | .control =>
    { s with rst := false, ctl := { s.ctl with
        cmd := { s.ctl.cmd with valid := true, word := cw }, cBusy := false, cOp := none, cAt := .idle } }

/-- Which engine moves when the agenda is empty: one that has work, the video engine first (log 5). -/
def State.nextPort (s : State) : Port :=
  if s.video.vBusy || s.video.cmd.valid then .video else .control

/-- Goes on with the operation in progress on a port. -/
def State.resume (s : State) (p : Port) : State :=
  match p with
  | .video => { s with video := s.video.resume s.cfg }
  | .control => { s with ctl := s.ctl.resume s.cfg }

/-! ## Outputs the host reads -/

/-- `fs_state_o` (R22). -/
def State.fsStateOut (s : State) : BitVec 2 := s.video.fsState.code

/-- `fb_rdata` for `fb_raddr = x` (R72): any value beyond the buffer and while an operation that writes `FB` is in progress
(log 13). After a fault the port gives what the pseudocode left in the slots the operation touched; R326 leaves a model the
choice between that and any value. DESIGN CHOICE (log 32). -/
def State.fbRdata (s : State) (x : Word) : Byte :=
  if s.video.vBusy || decide (s.cfg.fbSize ≤ x.toNat) then Config.freePortByte s.video.tick x.toNat
  else s.video.fbByte x.toNat

/-- The parameter read port (R32): any value while the control engine is busy, and for a word `P` does not have
(log 13). -/
def State.paramRdata (s : State) (idx : BitVec 4) : Word :=
  if s.ctl.cBusy || decide (s.cfg.nData ≤ idx.toNat) then Config.freePortWord s.ctl.tick idx.toNat
  else s.ctl.param idx.toNat

/-- `T` as the host reads it (R33): any value while the video engine is busy (log 13). -/
def State.telemetryOut (s : State) : TelemetryRow :=
  if s.video.vBusy then Config.freePortTelemetry s.video.tick else s.video.tlm

end Sys2Proof.Machine
end

