-- ==== Sys2Proof/Machine/Step.lean ====
section
/-! DEFINITION. One step of the block with what drives it: the next move of the agenda, or, when the agenda is empty, an
engine that has work (R14, R16, R91). -/

namespace Sys2Proof.Machine

open Sys2Proof

/-- A turn of the engine of port `p`: go on with the operation in progress, or accept the presented command (R125, R128), or
stay idle (R334). While `rst` is asserted the engine is idle and accepts nothing (R360). -/
def serve (p : Port) (s : State) : Host.Outcome State Fault Refusal :=
  if s.rst then .next s
  else if s.busy p then .next (s.resume p)
  else if (s.port p).valid then
    match decodeOn p (s.port p).word with
    | .ok i => exec i (s.takeCommand p)
    | .error _ => .next (raiseIllegalOp p (s.takeCommand p))
  else .next s

/-- One step. A configuration that breaks R8 is refused: the block is not instantiated (U10). -/
def step (s : State) : Host.Outcome State Fault Refusal :=
  if s.cfg.Valid then
    match s.agenda with
    | [] => serve s.nextPort s
    | .host m :: rest => .next (hostMove m { s with agenda := rest })
    | .serve p :: rest => serve p { s with agenda := rest }
  else .refused .invalidConfig

/-- `s` with the command word of a table row presented on its port, the port idle and its turn next, so that the very next
step accepts and runs it (log 6). -/
def State.withFetchWord (s : State) (nbits w : Nat) : State :=
  let cw := tableWord nbits w
  let s := s.presentIdle (portOfWord cw) cw
  { s with agenda := .serve (portOfWord cw) :: s.agenda }

end Sys2Proof.Machine
end

