-- ==== Sys2Proof/Safety.lean ====
section
/-! DEFINITION. What a safe run is: the invariant of the block, engine by engine, and the terms the statements use. The
invariant says that the counters fit their registers (R209), that the sequencer's position and the flags agree (R24, R31),
that the frame buffer is in canonical form and in range (R71), and what `frame_valid` promises (R208). -/

namespace Sys2Proof.Machine

open Sys2Proof

/-- Every byte of packet entry `p` of slot `s` has been written since reset. -/
def EntryWritten (c : Cfg) (v : Video) (s : Slot) (p : Nat) : Prop :=
  ∀ b < c.packetBytes, (v.fb.read (fbAddr c s p b)).isSome

/-- What R208 promises of one slot of a delivered frame: the anchor's line and TTT fields, packet 0 no discard packet, and
the active entries written. -/
structure SlotGood (c : Cfg) (v : Video) (k : Slot) : Prop where
  anchorLine : lineOf (v.entryId c k c.anchor) = c.anchor
  anchorTtt : tttOf (v.entryId c k c.anchor) = k.val + 1
  firstNotDiscard : isDiscard c (v.entryId c k 0) = false
  written : ∀ p < v.count k, EntryWritten c v k p

/-- The operation assembles a frame. -/
def Assembles (op : Option VideoOp) : Prop := op = some .sync ∨ op = some .xfer

/-- The operation reads whole segments. -/
def ReadsSegments (op : Option VideoOp) : Prop := op = some .rdSeg ∨ Assembles op

/-- The label in progress belongs to the operation in progress (R24). -/
def VideoAtLegal (c : Cfg) (v : Video) : Prop :=
  match v.vAt with
  | .idle => v.vOp = none
  | .packet _ p => p < c.segCap ∧ (v.vOp = some .rdPkt ∨ (p = 0 ∧ ReadsSegments v.vOp))
  | .bulk _ => ReadsSegments v.vOp
  | .backoff => v.vOp = some .sync

/-- While a frame is being assembled, the slots before the one being read are good, and once packet 0 of that one is in it
is no discard packet. -/
def FrameSoFar (c : Cfg) (v : Video) : Prop :=
  match v.vAt with
  | .idle => True
  | .packet s _ => ∀ k < s, SlotGood c v k
  | .bulk s => (∀ k < s, SlotGood c v k) ∧ isDiscard c (v.entryId c s 0) = false ∧ EntryWritten c v s 0
  | .backoff => True

/-- While a frame is being assembled, `seg` is the slot being filled (R24). -/
def SegOfSlot (v : Video) : Prop :=
  match v.vAt with
  | .idle => True
  | .packet s _ => v.seg = s.val
  | .bulk s => v.seg = s.val
  | .backoff => True

/-- The discard-skip counter against its bound (R26, R152): one past the bound only once the operation has ended. -/
def SkipsBounded (c : Cfg) (v : Video) : Prop :=
  ∀ bound, c.maxDiscardSkips = some bound → v.skips ≤ bound + 1 ∧ (v.vBusy = true → v.skips ≤ bound)

/-- The invariant of the video side. -/
structure Video.Inv (c : Cfg) (v : Video) : Prop where
  fbCanonical : v.fb.wf
  fbInRange : ∀ e ∈ v.fb, e.1 < c.fbSize
  counts : (∀ k, v.count k = c.nNormal) ∨ (∀ k, v.count k = c.nTlm)
  maxResetsLegal : v.maxResets ≤ 254
  resetsFit : v.resets ≤ 255
  vResetsFit : v.vResets ≤ 255
  vFramesFit : v.vFrames ≤ 1
  segFits : v.seg < c.nSeg
  segZero : ¬ Assembles v.vOp → v.seg = 0
  segOfSlot : Assembles v.vOp → SegOfSlot v
  invalidFits : v.invalid ≤ c.invalidLimit + 1
  skipsBounded : SkipsBounded c v
  busyIff : v.vBusy = true ↔ v.vAt ≠ .idle
  notDoneWhileBusy : v.vBusy = true → v.vDone = false
  atLegal : VideoAtLegal c v
  syncState : v.vOp = some .sync → v.fsState = .unsynchronized ∨ v.fsState = .seekingFirstSegment
  syncResets : v.vOp = some .sync → v.resets ≤ v.maxResets
  xferState : v.vOp = some .xfer → v.fsState = .synchronized
  invalidWithinLimit : v.fsState = .synchronized ∨ v.vOp = some .sync → v.invalid ≤ c.invalidLimit
  frameSoFar : Assembles v.vOp → FrameSoFar c v
  frameInvalidWhileBusy : v.vBusy = true → v.frameValid = false
  frameSynchronized : v.frameValid = true → v.fsState = .synchronized ∧ v.vFrames = 1
  frameGood : v.frameValid = true → ∀ k, SlotGood c v k

/-- The arguments a handshake has, for the operation that runs it (R270, R286). -/
def HandshakeOf (c : Cfg) (op : Option ControlOp) (h : Handshake) : Prop :=
  match op with
  | some .cciCmd => h.np ≤ c.nData ∧ h.nr ≤ c.nData
  | some .runFfc => h = ⟨c.opcRunFfc, 0, 0⟩
  | some .getUptime => h = ⟨c.opcGetUptime, 0, c.uptimeWords⟩
  | some .getTlmEn => h = ⟨c.opcGetTlmEn, 0, c.enumWords⟩
  | some .setTlmEn => h = ⟨c.opcSetTlmEn, c.enumWords, 0⟩
  | some .getTlmLoc => h = ⟨c.opcGetTlmLoc, 0, c.enumWords⟩
  | some .setTlmLoc => h = ⟨c.opcSetTlmLoc, c.enumWords, 0⟩
  | some .getAgcEn => h = ⟨c.opcGetAgcEn, 0, c.enumWords⟩
  | some .setAgcEn => h = ⟨c.opcSetAgcEn, c.enumWords, 0⟩
  | some .regWr => False
  | some .regRd => False
  | none => False

/-- The label in progress belongs to the operation in progress, and its index and poll count are within their bounds
(R24, R270, R273). -/
def ControlAtLegal (c : Cfg) (k : Control) : Prop :=
  match k.cAt with
  | .idle => k.cOp = none
  | .regWrite _ _ => k.cOp = some .regWr
  | .regRead _ => k.cOp = some .regRd
  | .param h i => HandshakeOf c k.cOp h ∧ i < h.np
  | .length h => HandshakeOf c k.cOp h
  | .command h => HandshakeOf c k.cOp h
  | .poll h polls => HandshakeOf c k.cOp h ∧ ∀ limit, c.cciPollLimit = some limit → polls < limit
  | .result h i => HandshakeOf c k.cOp h ∧ i < h.nr

/-- The invariant of the control side. -/
structure Control.Inv (c : Cfg) (k : Control) : Prop where
  busyIff : k.cBusy = true ↔ k.cAt ≠ .idle
  notDoneWhileBusy : k.cBusy = true → k.cDone = false
  atLegal : ControlAtLegal c k

/-- The invariant of the block: a legal configuration, the two engines' own, and both engines idle while `rst` is asserted
(R360). -/
structure State.Inv (s : State) : Prop where
  cfgValid : s.cfg.Valid
  video : s.video.Inv s.cfg
  ctl : s.ctl.Inv s.cfg
  heldIdle : s.rst = true → s.video.vBusy = false ∧ s.ctl.cBusy = false

/-! ## Scripts of the sensor's answers, in which the statements say what an operation meets -/

/-- A whole discard packet (R79, R112) that leaves `cancel_v` low. -/
structure DiscardAnswer (c : Cfg) (a : VideoAnswer) : Prop where
  whole : c.packetBytes ≤ a.bytes.length
  discard : isDiscard c (wireId a.bytes) = true
  noCancel : a.cancel = false

/-- What the sensor sends for one `ReadSegment`: discard packets, packet 0, and the other packets (R115). -/
structure Segment where
  discards : List VideoAnswer
  first : VideoAnswer
  bulk : VideoAnswer
deriving DecidableEq, Repr

/-- The answers of a segment of `n` packets in order; there is no bulk read when `n` is 1 (R171). -/
def Segment.answers (n : Nat) (g : Segment) : List VideoAnswer :=
  g.discards ++ g.first :: (if 1 < n then [g.bulk] else [])

/-- The reads of a segment of `n` packets (R171, R176). -/
def Segment.reads (c : Cfg) (n : Nat) (g : Segment) : List VideoXact :=
  List.replicate (g.discards.length + 1) (.read c.packetBytes c.packetBytes) ++
    (if 1 < n then [.read (c.packetBytes * (n - 1)) (c.packetBytes * (n - 1))] else [])

/-- The level of `cancel_v` after the last read of the segment. -/
def Segment.cancel (n : Nat) (g : Segment) : Bool := if 1 < n then g.bulk.cancel else g.first.cancel

/-- `ReadSegment` returns on this segment: the discards are within the bound, packet 0 is none, nothing is short (R152,
R171). -/
structure Segment.Readable (c : Cfg) (n : Nat) (g : Segment) : Prop where
  discards : ∀ d ∈ g.discards, DiscardAnswer c d
  bounded : ∀ bound, c.maxDiscardSkips = some bound → g.discards.length ≤ bound
  firstWhole : c.packetBytes ≤ g.first.bytes.length
  firstValid : isDiscard c (wireId g.first.bytes) = false
  bulkWhole : c.packetBytes * (n - 1) ≤ g.bulk.bytes.length

/-- The identifier of the packet at the anchor index, as the segment carries it (R74, R191). -/
def Segment.anchorId (c : Cfg) (g : Segment) : Word :=
  if c.anchor = 0 then wireId g.first.bytes else wireId (g.bulk.bytes.drop (c.packetBytes * (c.anchor - 1)))

/-- The frame buffer after the segment has been read into slot `s` (R171). -/
def Segment.stored (c : Cfg) (s : Slot) (n : Nat) (g : Segment) (m : Memory) : Memory :=
  let m := m.write (fbAddr c s 0 0) (entryBytes c (g.first.bytes.take c.packetBytes))
  if 1 < n then m.write (fbAddr c s 1 0) (bulkBytes c (n - 1) (g.bulk.bytes.take (c.packetBytes * (n - 1)))) else m

/-- One pass of `SYNC` through `step1` that does not find the frame start: a segment and, if its anchor is misaligned, the
backoff after it (R193, R195). -/
structure Attempt where
  seg : Segment
  backoff : Option VideoAnswer
deriving DecidableEq, Repr

def Attempt.answers (n : Nat) (t : Attempt) : List VideoAnswer := t.seg.answers n ++ t.backoff.toList

/-- A misaligned anchor with a backoff, or an aligned one whose TTT is not 1 without; cancel low at the sampling point that
follows. -/
def Attempt.Missed (c : Cfg) (n : Nat) (t : Attempt) : Prop :=
  t.seg.Readable c n ∧
  match t.backoff with
  | some b => lineOf (t.seg.anchorId c) ≠ c.anchor ∧ b.cancel = false
  | none => lineOf (t.seg.anchorId c) = c.anchor ∧ tttOf (t.seg.anchorId c) ≠ c.tttFirst ∧ t.seg.cancel n = false

/-- How many of the attempts were misaligned. -/
def misalignments (ts : List Attempt) : Nat := ts.countP fun t => t.backoff.isSome

/-- What the attempts put on the record of the bus. -/
def attemptBus (c : Cfg) (n : Nat) (ts : List Attempt) : List VideoXact :=
  ts.flatMap fun t => t.seg.reads c n ++ t.backoff.toList.map fun _ => .backoff c.backoffMs

/-- The frame buffer after the attempts: each was read into slot 0. -/
def attemptStored (c : Cfg) (n : Nat) (ts : List Attempt) (m : Memory) : Memory :=
  ts.foldl (fun m t => t.seg.stored c 0 n m) m

/-- Four segments that match at the anchor of their slots, cancel low after the first three (R197, R200). -/
structure GoodFrame (c : Cfg) (n : Nat) (g : Slot → Segment) : Prop where
  readable : ∀ k, (g k).Readable c n
  line : ∀ k, lineOf ((g k).anchorId c) = c.anchor
  ttt : ∀ k, tttOf ((g k).anchorId c) = k.val + 1
  noCancel : ∀ k, k ≠ 3 → (g k).cancel n = false

/-- The answers of four segments in slot order. -/
def frameAnswers (n : Nat) (g : Slot → Segment) : List VideoAnswer :=
  (g 0).answers n ++ ((g 1).answers n ++ ((g 2).answers n ++ (g 3).answers n))

/-- The reads of four segments in slot order. -/
def frameReads (c : Cfg) (n : Nat) (g : Slot → Segment) : List VideoXact :=
  (g 0).reads c n ++ ((g 1).reads c n ++ ((g 2).reads c n ++ (g 3).reads c n))

/-- The frame buffer after four segments have been read into their slots. -/
def frameStored (c : Cfg) (n : Nat) (g : Slot → Segment) (m : Memory) : Memory :=
  (g 3).stored c 3 n ((g 2).stored c 2 n ((g 1).stored c 1 n ((g 0).stored c 0 n m)))

/-- What the sensor does in one run of the command handshake that succeeds (R270): the acknowledgements of the writes, the
busy status answers, the ready one, and the result words. -/
structure HandshakeScript where
  paramAcks : List CciAnswer
  lengthAck : CciAnswer
  commandAck : CciAnswer
  busy : List CciAnswer
  ready : CciAnswer
  results : List CciAnswer
deriving DecidableEq, Repr

/-- The answers up to and with the opcode write. -/
def HandshakeScript.writeAnswers (x : HandshakeScript) : List CciAnswer := x.paramAcks ++ [x.lengthAck, x.commandAck]

def HandshakeScript.answers (x : HandshakeScript) : List CciAnswer :=
  x.writeAnswers ++ (x.busy ++ x.ready :: x.results)

/-- The writes of `np` parameter words, of the length and of the opcode are all acknowledged. -/
structure HandshakeScript.WritesAcked (np : Nat) (x : HandshakeScript) : Prop where
  paramCount : x.paramAcks.length = np
  params : ∀ a ∈ x.paramAcks, a.ack = true
  length : x.lengthAck.ack = true
  command : x.commandAck.ack = true

/-- A status answer with the busy bit set (R35), acknowledged, that leaves `cancel_c` low. -/
structure BusyAnswer (c : Cfg) (a : CciAnswer) : Prop where
  ack : a.ack = true
  busy : isBusy c (answerValue a) = true
  noCancel : a.cancel = false

/-- The handshake succeeds on this script: everything acknowledged, the busy answers below the poll bound, then a ready
one, then `nr` result words. -/
structure HandshakeScript.Succeeds (c : Cfg) (np nr : Nat) (x : HandshakeScript) : Prop
    extends x.WritesAcked np where
  busyAnswers : ∀ a ∈ x.busy, BusyAnswer c a
  belowLimit : ∀ limit, c.cciPollLimit = some limit → x.busy.length < limit
  readyAck : x.ready.ack = true
  readyValue : isBusy c (answerValue x.ready) = false
  resultCount : x.results.length = nr
  resultAcks : ∀ a ∈ x.results, a.ack = true

/-- The writes of a handshake as they stand on the bus, in order (R270, R271). -/
def handshakeWrites (c : Cfg) (h : Handshake) (k : Control) : List CciXact :=
  (List.range h.np).map (fun i => CciXact.ofWrite c (dataAddr c i) (k.param i) true) ++
    [CciXact.ofWrite c c.regLength (lengthWord h) true, CciXact.ofWrite c c.regCommand h.opc true]

/-- The transactions of a handshake that succeeds, in order (R270, R274). -/
def handshakeBus (c : Cfg) (h : Handshake) (k : Control) (x : HandshakeScript) : List CciXact :=
  handshakeWrites c h k ++ (x.busy.map (CciXact.ofRead c c.regStatus) ++
    CciXact.ofRead c c.regStatus x.ready ::
      x.results.zipIdx.map fun e => CciXact.ofRead c (dataAddr c e.2) e.1)

/-- What a handshake that succeeds leaves behind, whatever operation ran it: `s` and `t` are the states before and after,
`k` the control side the handshake started from (R270, R132). -/
structure HandshakeDone (s : State) (h : Handshake) (k : Control) (x : HandshakeScript) (rest : List CciAnswer)
    (t : State) : Prop where
  status : t.ctl.cStatus = .ok
  done : t.ctl.cDone = true
  idle : t.ctl.cBusy = false
  sensor : t.ctl.sensor = rest
  bus : t.ctl.bus = s.ctl.bus ++ handshakeBus s.cfg h k x
  results : ∀ j a, x.results[j]? = some a → t.ctl.param j = answerValue a
  otherParams : ∀ j, x.results.length ≤ j → t.ctl.param j = k.param j
  video : t.video = s.video
  cfg : t.cfg = s.cfg
  agenda : t.agenda = s.agenda

/-! ## What a fault inside an operation leaves (R325) -/

/-- The columns of R325's table for `IoFault`, `DiscardTimeout` and `Cancelled` in the operation in progress on the video
port, from `v` to `v'`: `fs_state`, `v_frames` and `v_resets` by the operation; `invalid`, `resets` and `frame_valid` keep
their values. -/
structure FaultColumns (v v' : Video) : Prop where
  invalid : v'.invalid = v.invalid
  resets : v'.resets = v.resets
  frameValid : v'.frameValid = v.frameValid
  sync : v.vOp = some .sync → v'.fsState = .unsynchronized ∧ v'.vFrames = 0 ∧ v'.vResets = v.resets
  xfer : v.vOp = some .xfer → v'.fsState = .unsynchronized ∧ v'.vFrames = 0 ∧ v'.vResets = v.vResets
  other : v.vOp ≠ some .sync → v.vOp ≠ some .xfer →
    v'.fsState = v.fsState ∧ v'.vFrames = v.vFrames ∧ v'.vResets = v.vResets

/-! ## Result registers between two completions (R29, R132) -/

/-- The result registers of the video port hold their values from `v` to `v'`. -/
structure ResultsHeld (v v' : Video) : Prop where
  status : v'.vStatus = v.vStatus
  frames : v'.vFrames = v.vFrames
  resets : v'.vResets = v.vResets

/-! ## What a control operation may write (R30, R32, R260, R262, R270, R286) -/

/-- Whether the operation may write `c_rdata`. -/
def writesRdata : Instr → Bool
  | .regRd _ => true
  | .getTlmEn => true
  | .getTlmLoc => true
  | .getAgcEn => true
  | .cfgSession _ => false
  | .rdPkt _ _ => false
  | .rdSeg _ _ => false
  | .sync => false
  | .xfer => false
  | .setMaxResets _ => false
  | .tlmDec _ _ => false
  | .regWr _ _ => false
  | .cciCmd _ _ _ => false
  | .runFfc => false
  | .getUptime => false
  | .setTlmEn _ => false
  | .setTlmLoc _ => false
  | .setAgcEn _ => false

/-- Whether the operation may write `c_r32`. -/
def writesR32 : Instr → Bool
  | .getUptime => true
  | .regRd _ => false
  | .getTlmEn => false
  | .getTlmLoc => false
  | .getAgcEn => false
  | .cfgSession _ => false
  | .rdPkt _ _ => false
  | .rdSeg _ _ => false
  | .sync => false
  | .xfer => false
  | .setMaxResets _ => false
  | .tlmDec _ _ => false
  | .regWr _ _ => false
  | .cciCmd _ _ _ => false
  | .runFfc => false
  | .setTlmEn _ => false
  | .setTlmLoc _ => false
  | .setAgcEn _ => false

/-- Whether the operation in progress may write `c_rdata` (R262, R286). -/
def ControlOp.writesRdata : ControlOp → Bool
  | .regRd => true
  | .getTlmEn => true
  | .getTlmLoc => true
  | .getAgcEn => true
  | .regWr => false
  | .cciCmd => false
  | .runFfc => false
  | .getUptime => false
  | .setTlmEn => false
  | .setTlmLoc => false
  | .setAgcEn => false

/-- How many result words the handshake in progress has (R270). -/
def ControlAt.resultWords : ControlAt → Nat
  | .idle => 0
  | .regWrite _ _ => 0
  | .regRead _ => 0
  | .param h _ => h.nr
  | .length h => h.nr
  | .command h => h.nr
  | .poll h _ => h.nr
  | .result h _ => h.nr

/-- How many words of `P`, from `P[0]` up, the operation may write. -/
def paramsWritten (c : Cfg) : Instr → Nat
  | .cciCmd _ _ nr => nr
  | .getUptime => c.uptimeWords
  | .getTlmEn => c.enumWords
  | .getTlmLoc => c.enumWords
  | .getAgcEn => c.enumWords
  | .setTlmEn _ => 1
  | .setTlmLoc _ => 1
  | .setAgcEn _ => 1
  | .regRd _ => 0
  | .cfgSession _ => 0
  | .rdPkt _ _ => 0
  | .rdSeg _ _ => 0
  | .sync => 0
  | .xfer => 0
  | .setMaxResets _ => 0
  | .tlmDec _ _ => 0
  | .regWr _ _ => 0
  | .runFfc => 0

/-! ## Telemetry payloads -/

/-- Two payloads of `n` bytes have the same bytes outside the `len` bytes from offset `o` (R246). -/
def AgreeOutside (n o len : Nat) (payload payload' : Nat → Byte) : Prop :=
  ∀ i < n, (i < o ∨ o + len ≤ i) → payload i = payload' i

end Sys2Proof.Machine
end

