-- ==== Sys2Proof/Certificates/Slice0/Obligations.lean ====
section
/-! DEFINITION. The statements for the provers, from the numbered rules of the spec: encoding, the step, each operation's
effect and frame, the faults, reset, and the invariant of the block. In each, the hypotheses are on the state, the operands
and the sensor's answers alone. A port that is idle has `v_busy = 0` (`c_busy = 0`); an equation
for a completed operation also says that no operation, no label and no slot is in progress (R24). -/

open Sys2Proof Sys2Proof.Machine

/-! ## Encodings -/

/-- R125, R126, R128, R130: the word of a well-formed operation decodes to the operation, on its own port; the other port
does not take it. -/
def Obligations.DecodeInvertsEncode : Prop :=
  ∀ i : Instr, WellFormed i = true →
    decode (encode i) = .ok i ∧
    ∀ p : Port, decodeOn p (encode i) = if i.port = p then .ok i else .error (.wrongPort i.opcode)

/-- R128, R130, R131: a word decodes exactly if its code is in the table; then the operation has that code, is well-formed,
and belongs to the video port if `op[7:4]` is 0 or 1. Every other code is reserved. -/
def Obligations.DecoderTakesExactlyTheListedCodes : Prop :=
  ∀ cw : CmdWord,
    let codes := [0x01, 0x02, 0x03, 0x04, 0x05, 0x06, 0x10, 0x20, 0x21, 0x22, 0x30, 0x31, 0x32, 0x33, 0x34, 0x35, 0x36,
      0x37]
    (∀ i, decode cw = .ok i →
      i.opcode = opField cw ∧ WellFormed i = true ∧ i.port = if slice cw 39 36 < 2 then .video else .control) ∧
    (opField cw ∈ codes → ∃ i, decode cw = .ok i) ∧
    (opField cw ∉ codes → decode cw = .error (.reservedOp (opField cw)))

/-- R126: two words with one code and the same bits in the fields their format names decode alike. -/
def Obligations.UnnamedBitsAreIgnored : Prop :=
  ∀ cw cw' : CmdWord, opField cw = opField cw' →
    (opField cw ∈ [0x04, 0x05, 0x30, 0x31, 0x32, 0x34, 0x36] → decode cw = decode cw') ∧
    (opField cw ∈ [0x02, 0x03, 0x10] → slice cw 25 24 = slice cw' 25 24 → slice cw 22 16 = slice cw' 22 16 →
      decode cw = decode cw') ∧
    (opField cw = 0x01 → slice cw 0 0 = slice cw' 0 0 → decode cw = decode cw') ∧
    (opField cw = 0x20 → slice cw 31 16 = slice cw' 31 16 → slice cw 15 0 = slice cw' 15 0 → decode cw = decode cw') ∧
    (opField cw = 0x21 → slice cw 31 16 = slice cw' 31 16 → decode cw = decode cw') ∧
    (opField cw ∈ [0x06, 0x33, 0x35, 0x37] → slice cw 15 0 = slice cw' 15 0 → decode cw = decode cw') ∧
    (opField cw = 0x22 → slice cw 31 16 = slice cw' 31 16 → slice cw 4 0 = slice cw' 4 0 →
      slice cw 12 8 = slice cw' 12 8 → decode cw = decode cw')

/-- R135: the example words decode to the operations they stand for. -/
def Obligations.ExampleWordsDecode : Prop :=
  decodeOn .video 0x0400000000 = .ok .sync ∧
  decodeOn .video 0x0500000000 = .ok .xfer ∧
  decodeOn .video 0x0100000001 = .ok (.cfgSession true) ∧
  decodeOn .video 0x0302000000 = .ok (.rdSeg 2 0) ∧
  decodeOn .video 0x0200140000 = .ok (.rdPkt 0 20) ∧
  decodeOn .video 0x1000000000 = .ok (.tlmDec 0 0) ∧
  decodeOn .video 0x060000001E = .ok (.setMaxResets 30) ∧
  decodeOn .control 0x2000040242 = .ok (.regWr 0x0004 0x0242) ∧
  decodeOn .control 0x2100020000 = .ok (.regRd 0x0002) ∧
  decodeOn .control 0x22020C0200 = .ok (.cciCmd 0x020C 0 2) ∧
  decodeOn .control 0x3300000001 = .ok (.setTlmEn 1) ∧
  decodeOn .control 0x3100000000 = .ok .getUptime

/-! ## The step -/

/-- R125: with `rst` released, an idle port whose turn it is, with a word presented that decodes on it, runs that operation; the command has left
the port (log 7) and the turn is used up. The turn is the next of the agenda, or with an empty agenda the engine's that has
work (log 5). -/
def Obligations.StepRunsDecodedOperation : Prop :=
  ∀ (s : State) (p : Port) (rest : List Move) (i : Instr), s.cfg.Valid →
    (s.agenda = .serve p :: rest ∨ (s.agenda = [] ∧ rest = [] ∧ p = s.nextPort)) →
    s.rst = false → s.busy p = false → (s.port p).valid = true → decodeOn p (s.port p).word = .ok i →
    step s = exec i (({ s with agenda := rest } : State).takeCommand p)

/-- R14, R125, R334 and the model's own turns (log 5, log 9): a busy engine goes on with its operation, an idle port without
a command does nothing, a move of the host is made. R360: while `rst` is asserted neither engine does anything, whatever is
presented. R8: a configuration that breaks a constraint is refused. R125, R316, R388 (d), (e): what the host's moves at a
command port and the sensor's answers change, and that they change nothing else; a busy engine leaves the presented command
alone; only the word present and the level driven last count, and a command withdrawn is gone. -/
def Obligations.StepWithoutNewCommand : Prop :=
  ∀ (s : State) (rest : List Move),
    (s.cfg.Valid → ∀ p, s.agenda = .serve p :: rest → s.rst = false → s.busy p = true →
      step s = .next (({ s with agenda := rest } : State).resume p)) ∧
    (s.cfg.Valid → ∀ p, s.agenda = .serve p :: rest → s.busy p = false → (s.port p).valid = false →
      step s = .next { s with agenda := rest }) ∧
    (s.cfg.Valid → ∀ p, s.agenda = .serve p :: rest → s.rst = true → step s = .next { s with agenda := rest }) ∧
    (s.cfg.Valid → ∀ m, s.agenda = .host m :: rest → step s = .next (hostMove m { s with agenda := rest })) ∧
    (s.cfg.Valid → s.agenda = [] → step s = serve s.nextPort s) ∧
    (¬ s.cfg.Valid → step s = .refused .invalidConfig) ∧
    (∀ p, ((s.resume p).port p).valid = (s.port p).valid ∧ ((s.resume p).port p).word = (s.port p).word) ∧
    (∀ word,
      hostMove (.present .video word) s =
        { s with video := { s.video with cmd := { valid := true, word := word, cancel := s.video.cmd.cancel } } } ∧
      hostMove (.present .control word) s =
        { s with ctl := { s.ctl with cmd := { valid := true, word := word, cancel := s.ctl.cmd.cancel } } }) ∧
    (hostMove (.withdraw .video) s =
        { s with video := { s.video with
          cmd := { valid := false, word := s.video.cmd.word, cancel := s.video.cmd.cancel } } } ∧
      hostMove (.withdraw .control) s =
        { s with ctl := { s.ctl with
          cmd := { valid := false, word := s.ctl.cmd.word, cancel := s.ctl.cmd.cancel } } }) ∧
    (∀ level,
      hostMove (.setCancel .video level) s =
        { s with video := { s.video with
          cmd := { valid := s.video.cmd.valid, word := s.video.cmd.word, cancel := level } } } ∧
      hostMove (.setCancel .control level) s =
        { s with ctl := { s.ctl with
          cmd := { valid := s.ctl.cmd.valid, word := s.ctl.cmd.word, cancel := level } } }) ∧
    (∀ as, hostMove (.videoAnswers as) s = { s with video := { s.video with sensor := s.video.sensor ++ as } }) ∧
    (∀ as, hostMove (.cciAnswers as) s = { s with ctl := { s.ctl with sensor := s.ctl.sensor ++ as } }) ∧
    (∀ p word word' level level',
      hostMove (.present p word') (hostMove (.present p word) s) = hostMove (.present p word') s ∧
      hostMove (.setCancel p level') (hostMove (.setCancel p level) s) = hostMove (.setCancel p level') s)

/-- R128, R317, R325: a word whose code is reserved, or of the other port, completes at once with `IllegalOp`: only the
status, done and busy flags of the port change (the command leaves the port, log 7; an idle engine has no operation, no
label and no slot, log 14). -/
def Obligations.UnlistedCommandIsIllegal : Prop :=
  ∀ (s : State) (rest : List Move) (e : DecodeError), s.cfg.Valid → s.rst = false →
    (s.agenda = .serve .video :: rest → s.video.vBusy = false → s.video.cmd.valid = true →
      decodeOn .video s.video.cmd.word = .error e →
      step s = .next { s with
        agenda := rest
        video := { s.video with
          cmd := { s.video.cmd with valid := false }
          vStatus := .illegalOp, vDone := true, vBusy := false, vOp := none, vAt := .idle, seg := 0 } }) ∧
    (s.agenda = .serve .control :: rest → s.ctl.cBusy = false → s.ctl.cmd.valid = true →
      decodeOn .control s.ctl.cmd.word = .error e →
      step s = .next { s with
        agenda := rest
        ctl := { s.ctl with
          cmd := { s.ctl.cmd with valid := false }
          cStatus := .illegalOp, cDone := true, cBusy := false, cOp := none, cAt := .idle } })

/-- R125 (the model's form, log 8): a busy port takes no command, nothing changes. -/
def Obligations.BusyPortTakesNoCommand : Prop :=
  ∀ (i : Instr) (s : State), s.busy i.port = true → exec i s = .next s

/-- R16 (the model's form, log 9): where an operation pauses does not matter. What a turn leaves over the answers at hand and
then a turn over further answers leaves, one turn over all of them leaves; the same of the turn that accepts the operation;
a completed operation takes no further answer. A turn without an answer at hand is a turn over one free answer (log 3). -/
def Obligations.PausingIsTransparent : Prop :=
  (∀ (s : State) (more : List VideoAnswer), more ≠ [] →
    let feed := hostMove (.videoAnswers more)
    (∀ (i : Instr) (t : State), i.port = .video → s.video.vBusy = false → exec i s = .next t →
      exec i (feed s) = .next (if t.video.vBusy then (feed t).resume .video else feed t)) ∧
    (s.video.vBusy = true → s.video.sensor ≠ [] →
      (feed s).resume .video =
        if (s.resume .video).video.vBusy then (feed (s.resume .video)).resume .video else feed (s.resume .video)) ∧
    (s.video.vBusy = true → s.video.sensor = [] →
      s.resume .video = ({ s with video := { s.video with
        tick := s.video.tick + 1, sensor := [Config.freeVideoAnswer s.video.tick] } } : State).resume .video)) ∧
  (∀ (s : State) (more : List CciAnswer), more ≠ [] →
    let feed := hostMove (.cciAnswers more)
    (∀ (i : Instr) (t : State), i.port = .control → s.ctl.cBusy = false → exec i s = .next t →
      exec i (feed s) = .next (if t.ctl.cBusy then (feed t).resume .control else feed t)) ∧
    (s.ctl.cBusy = true → s.ctl.sensor ≠ [] →
      (feed s).resume .control =
        if (s.resume .control).ctl.cBusy then (feed (s.resume .control)).resume .control
        else feed (s.resume .control)) ∧
    (s.ctl.cBusy = true → s.ctl.sensor = [] →
      s.resume .control = ({ s with ctl := { s.ctl with
        tick := s.ctl.tick + 1, sensor := [Config.freeCciAnswer s.ctl.tick] } } : State).resume .control))

/-- R335: turns of the two engines commute. -/
def Obligations.EngineTurnsCommute : Prop :=
  ∀ s a b : State, serve .video s = .next a → serve .control a = .next b →
    ∃ a', serve .control s = .next a' ∧ serve .video a' = .next b

/-- R330, R335: an operation of the video port leaves the control side alone, and one of the control port the video side,
frame buffer included. -/
def Obligations.PortsShareNoState : Prop :=
  ∀ (i : Instr) (s t : State), exec i s = .next t →
    t.cfg = s.cfg ∧ t.rst = s.rst ∧ t.agenda = s.agenda ∧ (i.port = .video → t.ctl = s.ctl) ∧ (i.port = .control → t.video = s.video)

/-! ## Reset and the host's ports -/

/-- R62, R360: the table of reset values when the host releases `rst`, and in the state the machine starts from. R360 gives
the registers no value while `rst` is asserted: that they have the table's from the assertion on, at any moment, is the
model's choice (log 19). -/
def Obligations.ResetValues : Prop :=
  ∀ s t : State,
    t = hostMove (.setReset true) s ∨ (s.rst = true ∧ t = hostMove (.setReset false) s) ∨ t = State.resetWith s.cfg →
    t.video.fb = [] ∧
    (∀ k, t.video.count k = s.cfg.nNormal) ∧
    t.video.fsState = .unsynchronized ∧
    t.video.resets = 0 ∧ t.video.invalid = 0 ∧ t.video.skips = 0 ∧ t.video.seg = 0 ∧
    t.video.maxResets = s.cfg.maxResetsDefault ∧ Cfg.default.maxResetsDefault = 30 ∧
    t.video.vBusy = false ∧ t.video.vDone = false ∧ t.video.frameValid = false ∧
    t.video.vStatus = .ok ∧ t.video.vFrames = 0 ∧ t.video.vResets = 0 ∧
    t.ctl.cBusy = false ∧ t.ctl.cDone = false ∧ t.ctl.cStatus = .ok ∧ t.ctl.cRdata = 0 ∧ t.ctl.cR32 = 0

/-- R360: `rst` is a level. While it is asserted neither engine goes on or accepts a command; driving it resets nothing of
the sensor, which answers as before, and puts nothing on a bus. That the host's other inputs keep their levels, and that
driving the released input low again changes nothing, is the model's (log 19). -/
def Obligations.ResetIsALevel : Prop :=
  ∀ (s : State) (level : Bool) (p : Port),
    let t := hostMove (.setReset level) s
    t.rst = level ∧
    (t.rst = true → serve p t = .next t ∧ t.busy p = false) ∧
    (s.rst = true → serve p s = .next s) ∧
    (t.video.sensor = s.video.sensor ∧ t.ctl.sensor = s.ctl.sensor ∧ t.video.bus = s.video.bus ∧
      t.ctl.bus = s.ctl.bus) ∧
    (t.port p = s.port p ∧ t.cfg = s.cfg ∧ t.agenda = s.agenda) ∧
    (s.rst = false → level = false → t = s)

/-- R32: the parameter write port writes one word while `c_busy = 0` and is ignored while `c_busy = 1`; the read port of an
idle engine shows every word of `P`, the word just written among them. What it shows of a busy engine is left open (R388 (b),
log 13). That a write to a word `P` does not have is ignored too is the model's choice (log 21). -/
def Obligations.ParameterWritePort : Prop :=
  ∀ (s : State) (idx : BitVec 4) (data : Word),
    let t := hostMove (.writeParam idx data) s
    (s.ctl.cBusy = true → t = s) ∧
    (s.ctl.cBusy = false → idx.toNat < s.cfg.nData →
      t.ctl.param idx.toNat = data ∧ (∀ j, j ≠ idx.toNat → t.ctl.param j = s.ctl.param j) ∧
      t = { s with ctl := { s.ctl with params := t.ctl.params } }) ∧
    (s.cfg.nData ≤ idx.toNat → t = s) ∧
    (s.ctl.cBusy = false → ∀ j : BitVec 4, j.toNat < s.cfg.nData →
      s.paramRdata j = s.ctl.param j.toNat ∧ t.paramRdata j = if j = idx then data else s.paramRdata j)

/-- R22, R310: the codes the host sees. -/
def Obligations.StatusAndStateCodes : Prop :=
  [Status.ok, .ioFault, .syncFailure, .frameInvalid, .cciTimeout, .discardTimeout, .cancelled, .illegalOp,
    .notSynchronized, .badOperand].map Status.code = [0, 1, 2, 3, 4, 5, 6, 7, 8, 9] ∧
  [FsState.unsynchronized, .seekingFirstSegment, .synchronized, .failed].map FsState.code = [0, 1, 2, 3]

/-! ## Configuration and telemetry operations -/

/-- R186: `CFG_SESSION`, whole, on an idle port. The equation says that nothing else changes. -/
def Obligations.CfgSessionResult : Prop :=
  ∀ (tlm : Bool) (s : State), s.video.vBusy = false →
    exec (.cfgSession tlm) s = .next { s with video := { s.video with
      pktCount := Vector.replicate 4 (if tlm then s.cfg.nTlm else s.cfg.nNormal)
      fsState := .unsynchronized
      invalid := 0
      frameValid := false
      vStatus := .ok, vDone := true, vBusy := false, vOp := none, vAt := .idle, seg := 0 } }

/-- R188: `SET_MAX_RESETS`, whole, on an idle port. -/
def Obligations.SetMaxResetsResult : Prop :=
  ∀ (value : Word) (s : State), s.video.vBusy = false →
    (value.toNat ≤ 254 →
      exec (.setMaxResets value) s = .next { s with video := { s.video with
        maxResets := value.toNat
        vStatus := .ok, vDone := true, vBusy := false, vOp := none, vAt := .idle, seg := 0 } }) ∧
    (254 < value.toNat →
      exec (.setMaxResets value) s = .next { s with video := { s.video with
        vStatus := .badOperand, vDone := true, vBusy := false, vOp := none, vAt := .idle, seg := 0 } })

/-- R220: `TLM_DEC`, whole, on an idle port: `T` is the decoding of the entry's payload as the frame buffer holds it. R33:
the host reads `T` of an idle engine, before as it was and after as `TLM_DEC` left it, every field. What it reads of a busy
engine is left open (R388 (b), log 13). -/
def Obligations.TlmDecResult : Prop :=
  ∀ (slot : Slot) (p : Nat) (s : State), s.video.vBusy = false →
    (p < s.cfg.segCap →
      exec (.tlmDec slot p) s = .next { s with video := { s.video with
        tlm := decodeTelemetry s.cfg fun i => s.video.fbByte (fbAddr s.cfg slot p (4 + i))
        vStatus := .ok, vDone := true, vBusy := false, vOp := none, vAt := .idle, seg := 0 } }) ∧
    (s.cfg.segCap ≤ p →
      exec (.tlmDec slot p) s = .next { s with video := { s.video with
        vStatus := .badOperand, vDone := true, vBusy := false, vOp := none, vAt := .idle, seg := 0 } }) ∧
    s.telemetryOut = s.video.tlm ∧
    (∀ t, exec (.tlmDec slot p) s = .next t →
      t.telemetryOut =
        if p < s.cfg.segCap then decodeTelemetry s.cfg fun i => s.video.fbByte (fbAddr s.cfg slot p (4 + i))
        else s.telemetryOut)

/-- R223 to R226: every field of `T` as a number made from the payload's bytes. -/
def Obligations.TelemetryFieldValues : Prop :=
  ∀ (c : Cfg) (payload : Nat → Byte),
    let l := c.tlmLayout
    let t := decodeTelemetry c payload
    let word := fun o => 256 * (payload o).toNat + (payload (o + 1)).toNat
    let dword := fun o =>
      if c.tlmDwordMswFirst then 65536 * word o + word (o + 2) else 65536 * word (o + 2) + word o
    t.revision.toNat = word l.revision ∧
    t.frameMean.toNat = word l.frameMean ∧
    t.fpaTempRaw.toNat = word l.fpaTempRaw ∧
    t.fpaTempK100.toNat = word l.fpaTempK100 ∧
    t.fpaTempLastFfc.toNat = word l.fpaTempLastFfc ∧
    t.agcRoiTop.toNat = word l.agcRoiTop ∧
    t.agcRoiLeft.toNat = word l.agcRoiLeft ∧
    t.agcRoiBottom.toNat = word l.agcRoiBottom ∧
    t.agcRoiRight.toNat = word l.agcRoiRight ∧
    t.agcClipHigh.toNat = word l.agcClipHigh ∧
    t.agcClipLow.toNat = word l.agcClipLow ∧
    t.msecSinceBoot.toNat = dword l.msecSinceBoot ∧
    t.frameCounter.toNat = dword l.frameCounter ∧
    t.msecLastFfc.toNat = dword l.msecLastFfc ∧
    t.videoFormat.toNat = dword l.videoFormat ∧
    t.swRevision.toNat = 2 ^ 48 * word l.swRevision + 2 ^ 32 * word (l.swRevision + 2) +
      2 ^ 16 * word (l.swRevision + 4) + word (l.swRevision + 6) ∧
    t.ffcDesired = Nat.testBit (dword l.status) l.ffcDesiredBit ∧
    t.ffcState.toNat = dword l.status / 2 ^ l.ffcStateLsb % 4 ∧
    t.agcState = Nat.testBit (dword l.status) l.agcStateBit ∧
    t.shutterLockout = Nat.testBit (dword l.status) l.shutterLockoutBit ∧
    t.overtempImminent = Nat.testBit (dword l.status) l.overtempImminentBit ∧
    (Cfg.default.tlmLayout.ffcDesiredBit = 3 ∧ Cfg.default.tlmLayout.ffcStateLsb = 4 ∧
      Cfg.default.tlmLayout.agcStateBit = 12 ∧ Cfg.default.tlmLayout.shutterLockoutBit = 15 ∧
      Cfg.default.tlmLayout.overtempImminentBit = 20)

/-- R246: two payloads that differ only in the source bytes of one field give outputs that differ only in that field; the
status fields share the status dword. -/
def Obligations.TelemetryOffsetIsolation : Prop :=
  ∀ (c : Cfg) (a b : Nat → Byte), c.tlmLayout.Valid c.payloadBytes →
    let l := c.tlmLayout
    let n := c.payloadBytes
    let ta := decodeTelemetry c a
    let tb := decodeTelemetry c b
    (AgreeOutside n l.revision 2 a b → tb = { ta with revision := tb.revision }) ∧
    (AgreeOutside n l.msecSinceBoot 4 a b → tb = { ta with msecSinceBoot := tb.msecSinceBoot }) ∧
    (AgreeOutside n l.status 4 a b →
      tb = { ta with
        ffcDesired := tb.ffcDesired, ffcState := tb.ffcState, agcState := tb.agcState
        shutterLockout := tb.shutterLockout, overtempImminent := tb.overtempImminent }) ∧
    (AgreeOutside n l.swRevision 8 a b → tb = { ta with swRevision := tb.swRevision }) ∧
    (AgreeOutside n l.frameCounter 4 a b → tb = { ta with frameCounter := tb.frameCounter }) ∧
    (AgreeOutside n l.frameMean 2 a b → tb = { ta with frameMean := tb.frameMean }) ∧
    (AgreeOutside n l.fpaTempRaw 2 a b → tb = { ta with fpaTempRaw := tb.fpaTempRaw }) ∧
    (AgreeOutside n l.fpaTempK100 2 a b → tb = { ta with fpaTempK100 := tb.fpaTempK100 }) ∧
    (AgreeOutside n l.fpaTempLastFfc 2 a b → tb = { ta with fpaTempLastFfc := tb.fpaTempLastFfc }) ∧
    (AgreeOutside n l.msecLastFfc 4 a b → tb = { ta with msecLastFfc := tb.msecLastFfc }) ∧
    (AgreeOutside n l.agcRoiTop 2 a b → tb = { ta with agcRoiTop := tb.agcRoiTop }) ∧
    (AgreeOutside n l.agcRoiLeft 2 a b → tb = { ta with agcRoiLeft := tb.agcRoiLeft }) ∧
    (AgreeOutside n l.agcRoiBottom 2 a b → tb = { ta with agcRoiBottom := tb.agcRoiBottom }) ∧
    (AgreeOutside n l.agcRoiRight 2 a b → tb = { ta with agcRoiRight := tb.agcRoiRight }) ∧
    (AgreeOutside n l.agcClipHigh 2 a b → tb = { ta with agcClipHigh := tb.agcClipHigh }) ∧
    (AgreeOutside n l.agcClipLow 2 a b → tb = { ta with agcClipLow := tb.agcClipLow }) ∧
    (AgreeOutside n l.videoFormat 4 a b → tb = { ta with videoFormat := tb.videoFormat })

/-! ## Packets and segments -/

/-- R73, R151: what `DecodePacket` stores, in the structured view and in the byte view, and that it stores nothing else. -/
def Obligations.StoredPacketViews : Prop :=
  ∀ (c : Cfg) (v : Video) (s : Slot) (p : Nat) (w : List Byte), w.length = c.packetBytes →
    let v' := v.decodePacket c s p w
    v'.entryId c s p = w.getD 0 0 ++ w.getD 1 0 ∧
    v'.entryCrc c s p = w.getD 2 0 ++ w.getD 3 0 ∧
    (∀ i < c.payloadBytes, v'.entryPayload c s p i = w.getD (4 + i) 0) ∧
    v'.fbByte (fbAddr c s p 0) = loByte (v'.entryId c s p) ∧
    v'.fbByte (fbAddr c s p 1) = hiByte (v'.entryId c s p) ∧
    v'.fbByte (fbAddr c s p 2) = loByte (v'.entryCrc c s p) ∧
    v'.fbByte (fbAddr c s p 3) = hiByte (v'.entryCrc c s p) ∧
    (∀ i < c.payloadBytes, v'.fbByte (fbAddr c s p (4 + i)) = v'.entryPayload c s p i) ∧
    (∀ x, (x < fbAddr c s p 0 ∨ fbAddr c s p 0 + c.packetBytes ≤ x) → v'.fb.read x = v.fb.read x)

/-- R75: a packet put in wire order from an identifier, a checksum and a payload is stored with the same values. -/
def Obligations.PacketByteOrderRoundTrip : Prop :=
  ∀ (c : Cfg) (v : Video) (s : Slot) (p : Nat) (id crc : Word) (payload : List Byte), payload.length = c.payloadBytes →
    let v' := v.decodePacket c s p ([hiByte id, loByte id, hiByte crc, loByte crc] ++ payload)
    v'.entryId c s p = id ∧ v'.entryCrc c s p = crc ∧ ∀ i < c.payloadBytes, v'.entryPayload c s p i = payload.getD i 0

/-- R171, R172: what the bulk read stores, packet by packet, each decoded once; the bytes outside the entries 1 to
`pkt_count - 1` of the slot stay. -/
def Obligations.StoredBulkViews : Prop :=
  ∀ (c : Cfg) (v : Video) (s : Slot) (w : List Byte), w.length = v.bulkLen c s →
    let v' := v.storeBulk c s w
    (∀ j, j + 1 < v.count s →
      v'.entryId c s (j + 1) = w.getD (164 * j) 0 ++ w.getD (164 * j + 1) 0 ∧
      v'.entryCrc c s (j + 1) = w.getD (164 * j + 2) 0 ++ w.getD (164 * j + 3) 0 ∧
      ∀ i < c.payloadBytes, v'.entryPayload c s (j + 1) i = w.getD (164 * j + (4 + i)) 0) ∧
    (∀ x, (x < fbAddr c s 1 0 ∨ fbAddr c s 1 0 + c.packetBytes * (v.count s - 1) ≤ x) → v'.fb.read x = v.fb.read x)

/-- R150, R152, R153: `RD_PKT` over any tolerated run of discard packets and then a valid one: the entry holds the valid
packet as if it had come alone, and nothing else of the state changes but what the rule names, the bus and its input. -/
def Obligations.RdPktSkipsDiscards : Prop :=
  ∀ (s : State) (slot : Slot) (p : Nat) (discards : List VideoAnswer) (a : VideoAnswer) (rest : List VideoAnswer),
    s.video.vBusy = false → p < s.cfg.segCap → s.video.sensor = discards ++ a :: rest →
    (∀ d ∈ discards, DiscardAnswer s.cfg d) →
    (∀ bound, s.cfg.maxDiscardSkips = some bound → discards.length ≤ bound) →
    s.cfg.packetBytes ≤ a.bytes.length → isDiscard s.cfg (wireId a.bytes) = false →
    exec (.rdPkt slot p) s = .next { s with video := { s.video with
      cmd := { s.video.cmd with cancel := a.cancel }
      sensor := rest
      fb := s.video.fb.write (fbAddr s.cfg slot p 0) (entryBytes s.cfg (a.bytes.take s.cfg.packetBytes))
      skips := discards.length
      frameValid := false
      vStatus := .ok, vDone := true, vBusy := false, vOp := none, vAt := .idle, seg := 0
      bus := s.video.bus ++ List.replicate (discards.length + 1) (.read s.cfg.packetBytes s.cfg.packetBytes) } }

/-- R152, R153, R310, R315, R321, R325: one discard more than the bound is `DiscardTimeout`, whatever the cancel input; a
discard within the bound with the cancel input high is `Cancelled`. First `RD_PKT` whole, on an idle port; then the packet
loop of every operation that has one, from wherever it stands in its run of discards. `frame_valid` is 0 since the operation
was accepted (R31) and stays. -/
def Obligations.DiscardLoopFaults : Prop :=
  (∀ (s : State) (slot : Slot) (p : Nat) (discards : List VideoAnswer) (a : VideoAnswer) (rest : List VideoAnswer),
    s.video.vBusy = false → p < s.cfg.segCap → s.video.sensor = discards ++ a :: rest →
    (∀ d ∈ discards, DiscardAnswer s.cfg d) →
    s.cfg.packetBytes ≤ a.bytes.length → isDiscard s.cfg (wireId a.bytes) = true →
    (s.cfg.maxDiscardSkips = some discards.length →
      ∃ t, exec (.rdPkt slot p) s = .next t ∧ t.video.vStatus = .discardTimeout ∧ t.video.vBusy = false ∧
        t.video.vDone = true ∧ t.video.frameValid = false ∧ t.video.fsState = s.video.fsState ∧ t.video.sensor = rest ∧
        t.video.bus = s.video.bus ++ List.replicate (discards.length + 1) (.read s.cfg.packetBytes s.cfg.packetBytes)) ∧
    ((∀ bound, s.cfg.maxDiscardSkips = some bound → discards.length + 1 ≤ bound) → a.cancel = true →
      ∃ t, exec (.rdPkt slot p) s = .next t ∧ t.video.vStatus = .cancelled ∧ t.video.vBusy = false ∧
        t.video.vDone = true ∧ t.video.frameValid = false ∧ t.video.fsState = s.video.fsState ∧ t.video.sensor = rest ∧
        t.video.bus =
          s.video.bus ++ List.replicate (discards.length + 1) (.read s.cfg.packetBytes s.cfg.packetBytes))) ∧
  (∀ (s : State) (slot : Slot) (p : Nat) (discards : List VideoAnswer) (a : VideoAnswer) (rest : List VideoAnswer)
      (fault : Status),
    s.rst = false → s.video.vBusy = true → s.video.vAt = .packet slot p → s.video.sensor = discards ++ a :: rest →
    (∀ d ∈ discards, DiscardAnswer s.cfg d) →
    s.cfg.packetBytes ≤ a.bytes.length → isDiscard s.cfg (wireId a.bytes) = true →
    (fault = .discardTimeout ∧ s.cfg.maxDiscardSkips = some (s.video.skips + discards.length)) ∨
      (fault = .cancelled ∧ a.cancel = true ∧
        ∀ bound, s.cfg.maxDiscardSkips = some bound → s.video.skips + discards.length + 1 ≤ bound) →
    ∃ t, serve .video s = .next t ∧ t.video.vStatus = fault ∧ t.video.vBusy = false ∧ t.video.vDone = true ∧
      t.video.skips = s.video.skips + discards.length + 1 ∧ t.video.sensor = rest ∧
      t.video.bus = s.video.bus ++ List.replicate (discards.length + 1) (.read s.cfg.packetBytes s.cfg.packetBytes) ∧
      (∀ x, (x < fbAddr s.cfg slot p 0 ∨ fbAddr s.cfg slot p 0 + s.cfg.packetBytes ≤ x) →
        t.video.fb.read x = s.video.fb.read x) ∧
      FaultColumns s.video t.video)

/-- R152, R380 (b): with no bound, a run of discard packets of any length leaves `RD_PKT` in progress; and so it leaves
every operation that is in its packet loop. -/
def Obligations.UnboundedDiscardLoopRunsOn : Prop :=
  (∀ (s : State) (slot : Slot) (p : Nat), s.cfg.maxDiscardSkips = none → s.video.vBusy = false → p < s.cfg.segCap →
    (∀ d ∈ s.video.sensor, DiscardAnswer s.cfg d) →
    ∃ t, exec (.rdPkt slot p) s = .next t ∧ t.video.vBusy = true ∧ t.video.vDone = false ∧
      t.video.vAt = .packet slot p ∧ t.video.skips = s.video.sensor.length ∧ t.video.sensor = []) ∧
  (∀ (s : State) (slot : Slot) (p : Nat), s.cfg.maxDiscardSkips = none → s.rst = false → s.video.vBusy = true →
    s.video.vAt = .packet slot p → s.video.sensor ≠ [] → (∀ d ∈ s.video.sensor, DiscardAnswer s.cfg d) →
    ∃ t, serve .video s = .next t ∧ t.video.vBusy = true ∧ t.video.vDone = s.video.vDone ∧
      t.video.vStatus = s.video.vStatus ∧ t.video.vOp = s.video.vOp ∧ t.video.vAt = .packet slot p ∧
      t.video.skips = s.video.skips + s.video.sensor.length ∧ t.video.sensor = [])

/-- R85, R154, R175, R325: a short read, whichever it is, ends the operation with `IoFault`; nothing of it is stored; the
synchronizer's state is lost in `SYNC` and `XFER` only. -/
def Obligations.ShortVideoReadIsIoFault : Prop :=
  ∀ (s : State) (a : VideoAnswer) (rest : List VideoAnswer), s.video.vBusy = true → s.video.sensor = a :: rest →
    ((∃ slot p, s.video.vAt = .packet slot p ∧ a.bytes.length < s.cfg.packetBytes) ∨
      (∃ slot, s.video.vAt = .bulk slot ∧ a.bytes.length < s.cfg.packetBytes * (s.video.count slot - 1))) →
    s.rst = false → ∃ t, serve .video s = .next t ∧ t.video.vStatus = .ioFault ∧ t.video.vBusy = false ∧ t.video.vDone = true ∧
      t.video.fb = s.video.fb ∧ t.video.sensor = rest ∧ FaultColumns s.video t.video

/-- R127, R317, R325: operand checks fail before any transaction; `RD_PKT` and `RD_SEG` clear `frame_valid` first. -/
def Obligations.BadOperandIsRefused : Prop :=
  ∀ (s : State),
    (s.video.vBusy = false → ∀ (i : Instr) (slot : Slot) (p : Nat), i = .rdPkt slot p ∨ i = .rdSeg slot p →
      s.cfg.segCap ≤ p →
      exec i s = .next { s with video := { s.video with
        frameValid := false
        vStatus := .badOperand, vDone := true, vBusy := false, vOp := none, vAt := .idle, seg := 0 } }) ∧
    (s.ctl.cBusy = false → ∀ (opc : Word) (np nr : Nat), s.cfg.nData < np ∨ s.cfg.nData < nr →
      exec (.cciCmd opc np nr) s = .next { s with ctl := { s.ctl with
        cStatus := .badOperand, cDone := true, cBusy := false, cOp := none, cAt := .idle } })

/-- R170, R171: `RD_SEG` over a segment it can read. The equation says that nothing else changes; the level of `cancel_v`
that comes with the last answer is the model's (log 4). -/
def Obligations.RdSegResult : Prop :=
  ∀ (s : State) (slot : Slot) (p : Nat) (g : Segment) (rest : List VideoAnswer),
    s.video.vBusy = false → p < s.cfg.segCap → s.video.sensor = g.answers (s.video.count slot) ++ rest →
    g.Readable s.cfg (s.video.count slot) →
    exec (.rdSeg slot p) s = .next { s with video := { s.video with
      cmd := { s.video.cmd with cancel := g.cancel (s.video.count slot) }
      sensor := rest
      fb := g.stored s.cfg slot (s.video.count slot) s.video.fb
      skips := g.discards.length
      frameValid := false
      vStatus := .ok, vDone := true, vBusy := false, vOp := none, vAt := .idle, seg := 0
      bus := s.video.bus ++ g.reads s.cfg (s.video.count slot) } }

/-- The frame of `RD_PKT` and `RD_SEG` (R150, R170, R175), in the turn that accepts one and in each later turn: of the
registers only `skips`, `frame_valid`, the status and the sequencer's own; of memory only the entry, or the slot's active
entries. R29, R132: a turn that leaves the operation in progress leaves the result registers. The accepting turn takes no free
answer. -/
def Obligations.PacketAndSegmentReadFrame : Prop :=
  ∀ (s t : State) (slot : Slot) (p : Nat),
    (exec (.rdPkt slot p) s = .next t ∨
        (s.Inv ∧ s.video.vBusy = true ∧ s.video.vOp = some .rdPkt ∧ s.video.vAt = .packet slot p ∧
          t = s.resume .video) →
      (∀ x, (x < fbAddr s.cfg slot p 0 ∨ fbAddr s.cfg slot p 0 + s.cfg.packetBytes ≤ x) →
        t.video.fb.read x = s.video.fb.read x) ∧
      (t.video.vBusy = true → ResultsHeld s.video t.video) ∧
      (exec (.rdPkt slot p) s = .next t → t.video.tick = s.video.tick) ∧
      t = { s with video := { t.video with
        fsState := s.video.fsState, resets := s.video.resets, invalid := s.video.invalid
        pktCount := s.video.pktCount, maxResets := s.video.maxResets, vFrames := s.video.vFrames
        vResets := s.video.vResets, tlm := s.video.tlm, epoch := s.video.epoch
        cmd := { s.video.cmd with cancel := t.video.cmd.cancel } } }) ∧
    (exec (.rdSeg slot p) s = .next t ∨
        (s.Inv ∧ s.video.vBusy = true ∧ s.video.vOp = some .rdSeg ∧
          (s.video.vAt = .packet slot 0 ∨ s.video.vAt = .bulk slot) ∧ t = s.resume .video) →
      0 < s.video.count slot →
      (∀ x, (x < fbAddr s.cfg slot 0 0 ∨ fbAddr s.cfg slot 0 0 + s.cfg.packetBytes * s.video.count slot ≤ x) →
        t.video.fb.read x = s.video.fb.read x) ∧
      (t.video.vBusy = true → ResultsHeld s.video t.video) ∧
      (exec (.rdSeg slot p) s = .next t → t.video.tick = s.video.tick) ∧
      t = { s with video := { t.video with
        fsState := s.video.fsState, resets := s.video.resets, invalid := s.video.invalid
        pktCount := s.video.pktCount, maxResets := s.video.maxResets, vFrames := s.video.vFrames
        vResets := s.video.vResets, tlm := s.video.tlm, epoch := s.video.epoch
        cmd := { s.video.cmd with cancel := t.video.cmd.cancel } } })

/-! ## The synchronizer -/

/-- R190, R193, R195, R197, R200: over any finite run of missed attempts, aligned ones that are not the frame start and at
most `max_resets` misaligned ones, and then four segments that match, `SYNC` completes `Ok` with the four segments in the
four slots, and `v_resets` is the number of misalignments. -/
def Obligations.SyncAcquiresFrame : Prop :=
  ∀ (s : State) (missed : List Attempt) (frame : Slot → Segment) (rest : List VideoAnswer) (n : Nat),
    s.video.vBusy = false → s.video.cmd.cancel = false → (∀ k, s.video.count k = n) → s.cfg.anchor < n →
    (∀ t ∈ missed, t.Missed s.cfg n) → misalignments missed ≤ s.video.maxResets → GoodFrame s.cfg n frame →
    s.video.sensor = missed.flatMap (Attempt.answers n) ++ (frameAnswers n frame ++ rest) →
    ∃ t, exec .sync s = .next t ∧
      t.video.vStatus = .ok ∧ t.video.vDone = true ∧ t.video.vBusy = false ∧
      t.video.fsState = .synchronized ∧ t.video.frameValid = true ∧ t.video.invalid = 0 ∧ t.video.vFrames = 1 ∧
      t.video.vResets = misalignments missed ∧ t.video.resets = misalignments missed ∧
      t.video.fb = frameStored s.cfg n frame (attemptStored s.cfg n missed s.video.fb) ∧
      t.video.bus = s.video.bus ++ (attemptBus s.cfg n missed ++ frameReads s.cfg n frame) ∧
      t.video.sensor = rest

/-- R193, R194: the misalignment that makes `resets` exceed `max_resets` ends `SYNC` with `SyncFailure`. -/
def Obligations.SyncFailsPastMaxResets : Prop :=
  ∀ (s : State) (missed : List Attempt) (g : Segment) (b : VideoAnswer) (rest : List VideoAnswer) (n : Nat),
    s.video.vBusy = false → s.video.cmd.cancel = false → (∀ k, s.video.count k = n) → s.cfg.anchor < n →
    (∀ t ∈ missed, t.Missed s.cfg n) → misalignments missed = s.video.maxResets →
    g.Readable s.cfg n → lineOf (g.anchorId s.cfg) ≠ s.cfg.anchor →
    s.video.sensor = missed.flatMap (Attempt.answers n) ++ (g.answers n ++ b :: rest) →
    ∃ t, exec .sync s = .next t ∧
      t.video.vStatus = .syncFailure ∧ t.video.vDone = true ∧ t.video.vBusy = false ∧
      t.video.fsState = .failed ∧ t.video.frameValid = false ∧ t.video.vFrames = 0 ∧
      t.video.vResets = s.video.maxResets + 1 ∧
      t.video.bus = s.video.bus ++ (attemptBus s.cfg n missed ++ (g.reads s.cfg n ++ [.backoff s.cfg.backoffMs])) ∧
      t.video.sensor = rest

/-- R195, R196, R380 (a): segments with the right line and a TTT other than 1, however many, leave `SYNC` seeking: no
status, no count, no bound, the result registers as they were (R29). -/
def Obligations.SyncSeeksWithoutBound : Prop :=
  ∀ (s : State) (seeks : List Attempt) (n : Nat),
    s.video.vBusy = false → s.video.cmd.cancel = false → (∀ k, s.video.count k = n) → s.cfg.anchor < n →
    (∀ t ∈ seeks, t.Missed s.cfg n ∧ t.backoff = none) → seeks ≠ [] →
    s.video.sensor = seeks.flatMap (Attempt.answers n) →
    ∃ t, exec .sync s = .next t ∧ t.video.vBusy = true ∧ t.video.vDone = false ∧ ResultsHeld s.video t.video ∧
      t.video.fsState = .seekingFirstSegment ∧ t.video.resets = 0 ∧ t.video.invalid = 0 ∧
      t.video.vAt = .packet 0 0

/-- R190, R191, R193, R196 to R199: what `SYNC` does with one segment that it has read into slot `k`, outcome by outcome of
the anchor check. R206, R210: where another segment is due, `cancel_v` is sampled first, and high it ends `SYNC`. R29: where
`SYNC` goes on, the result registers hold. -/
def Obligations.SyncSegmentOutcomes : Prop :=
  ∀ (s : State) (k : Slot) (g : Segment) (n : Nat),
    s.video.vBusy = true → s.video.vOp = some .sync → s.video.vAt = .packet k 0 → s.video.skips = 0 →
    s.video.count k = n → s.cfg.anchor < n → g.Readable s.cfg n → s.video.sensor = g.answers n →
    s.rst = false → ∃ t, serve .video s = .next t ∧
      t.video.fb = g.stored s.cfg k n s.video.fb ∧ t.video.bus = s.video.bus ++ g.reads s.cfg n ∧
      t.video.resets = s.video.resets ∧ (t.video.vBusy = true → ResultsHeld s.video t.video) ∧
      let line := lineOf (g.anchorId s.cfg)
      let ttt := tttOf (g.anchorId s.cfg)
      (line ≠ s.cfg.anchor →
        t.video.vBusy = true ∧ t.video.vAt = .backoff ∧ t.video.fsState = s.video.fsState ∧
        t.video.invalid = s.video.invalid) ∧
      (line = s.cfg.anchor → ttt = k.val + 1 → k = 3 →
        t.video.vBusy = false ∧ t.video.vStatus = .ok ∧ t.video.fsState = .synchronized ∧ t.video.frameValid = true ∧
        t.video.vFrames = 1 ∧ t.video.vResets = s.video.resets ∧ t.video.invalid = 0) ∧
      (line = s.cfg.anchor → ttt = k.val + 1 → ∀ k' : Slot, k'.val = k.val + 1 → g.cancel n = false →
        t.video.vBusy = true ∧ t.video.vAt = .packet k' 0 ∧ t.video.fsState = s.video.fsState ∧
        t.video.invalid = s.video.invalid) ∧
      (line = s.cfg.anchor → ttt = 0 → k ≠ 0 → s.video.invalid + 1 ≤ s.cfg.invalidLimit → g.cancel n = false →
        t.video.vBusy = true ∧ t.video.vAt = .packet k 0 ∧ t.video.fsState = s.video.fsState ∧
        t.video.invalid = s.video.invalid + 1) ∧
      (line = s.cfg.anchor → ttt = 0 → k ≠ 0 → s.cfg.invalidLimit < s.video.invalid + 1 →
        t.video.vBusy = false ∧ t.video.vStatus = .frameInvalid ∧ t.video.fsState = .unsynchronized ∧
        t.video.vFrames = 0 ∧ t.video.vResets = s.video.resets ∧ t.video.invalid = s.video.invalid + 1) ∧
      (line = s.cfg.anchor → ttt ≠ k.val + 1 → (ttt ≠ 0 ∨ k = 0) → g.cancel n = false →
        t.video.vBusy = true ∧ t.video.vAt = .packet 0 0 ∧ t.video.fsState = .seekingFirstSegment ∧
        t.video.invalid = s.video.invalid) ∧
      (line = s.cfg.anchor → g.cancel n = true → (ttt = k.val + 1 → k ≠ 3) →
        (ttt = 0 → k ≠ 0 → s.video.invalid + 1 ≤ s.cfg.invalidLimit) →
        t.video.vBusy = false ∧ t.video.vDone = true ∧ t.video.vStatus = .cancelled ∧
        t.video.fsState = .unsynchronized ∧ t.video.frameValid = s.video.frameValid ∧ t.video.vFrames = 0 ∧
        t.video.vResets = s.video.resets ∧
        t.video.invalid = if ttt = 0 ∧ k ≠ 0 then s.video.invalid + 1 else s.video.invalid)

/-- R190, R193, R194, R206, R210: the end of a backoff. The misalignment is counted; past `max_resets` `SYNC` fails, whatever
`cancel_v`; within it `cancel_v` is sampled, and low it goes back to `step1`, the result registers held (R29). That the level comes with the backoff's end is
the model's (log 4, log 17). -/
def Obligations.SyncBackoffOutcomes : Prop :=
  ∀ (s : State) (b : VideoAnswer), s.rst = false →
    s.video.vBusy = true → s.video.vOp = some .sync → s.video.vAt = .backoff → s.video.sensor = [b] →
    ∃ t, serve .video s = .next t ∧
      t.video.fb = s.video.fb ∧ t.video.bus = s.video.bus ++ [.backoff s.cfg.backoffMs] ∧
      t.video.resets = s.video.resets + 1 ∧ t.video.invalid = s.video.invalid ∧
      t.video.frameValid = s.video.frameValid ∧
      (s.video.maxResets < s.video.resets + 1 →
        t.video.vBusy = false ∧ t.video.vDone = true ∧ t.video.vStatus = .syncFailure ∧ t.video.fsState = .failed ∧
        t.video.vFrames = 0 ∧ t.video.vResets = s.video.resets + 1) ∧
      (s.video.resets + 1 ≤ s.video.maxResets → b.cancel = true →
        t.video.vBusy = false ∧ t.video.vDone = true ∧ t.video.vStatus = .cancelled ∧
        t.video.fsState = .unsynchronized ∧ t.video.vFrames = 0 ∧ t.video.vResets = s.video.resets + 1) ∧
      (s.video.resets + 1 ≤ s.video.maxResets → b.cancel = false →
        t.video.vBusy = true ∧ t.video.vDone = s.video.vDone ∧ t.video.vAt = .packet 0 0 ∧
        t.video.fsState = .unsynchronized ∧ ResultsHeld s.video t.video)

/-- R202, R204, R205: what `XFER` does with one segment that it has read into slot `k`, outcome by outcome of the anchor
check. R206, R210: where another segment is due, `cancel_v` is sampled first, and high it ends `XFER`. R29: where `XFER` goes
on, the result registers hold. -/
def Obligations.XferSegmentOutcomes : Prop :=
  ∀ (s : State) (k : Slot) (g : Segment) (n : Nat),
    s.video.vBusy = true → s.video.vOp = some .xfer → s.video.vAt = .packet k 0 → s.video.skips = 0 →
    s.video.count k = n → s.cfg.anchor < n → g.Readable s.cfg n → s.video.sensor = g.answers n →
    s.rst = false → ∃ t, serve .video s = .next t ∧
      t.video.fb = g.stored s.cfg k n s.video.fb ∧ t.video.bus = s.video.bus ++ g.reads s.cfg n ∧
      t.video.resets = s.video.resets ∧ t.video.vResets = s.video.vResets ∧
      (t.video.vBusy = true → ResultsHeld s.video t.video) ∧
      let line := lineOf (g.anchorId s.cfg)
      let ttt := tttOf (g.anchorId s.cfg)
      (line ≠ s.cfg.anchor ∨ (ttt ≠ k.val + 1 ∧ ttt ≠ 0) →
        t.video.vBusy = false ∧ t.video.vStatus = .frameInvalid ∧ t.video.fsState = .unsynchronized ∧
        t.video.vFrames = 0 ∧ t.video.invalid = s.video.invalid) ∧
      (line = s.cfg.anchor → ttt = k.val + 1 → k = 3 →
        t.video.vBusy = false ∧ t.video.vStatus = .ok ∧ t.video.fsState = s.video.fsState ∧ t.video.frameValid = true ∧
        t.video.vFrames = 1 ∧ t.video.invalid = 0) ∧
      (line = s.cfg.anchor → ttt = k.val + 1 → ∀ k' : Slot, k'.val = k.val + 1 → g.cancel n = false →
        t.video.vBusy = true ∧ t.video.vAt = .packet k' 0 ∧ t.video.fsState = s.video.fsState ∧
        t.video.invalid = s.video.invalid) ∧
      (line = s.cfg.anchor → ttt = 0 → s.video.invalid + 1 ≤ s.cfg.invalidLimit → g.cancel n = false →
        t.video.vBusy = true ∧ t.video.vAt = .packet k 0 ∧ t.video.fsState = s.video.fsState ∧
        t.video.invalid = s.video.invalid + 1) ∧
      (line = s.cfg.anchor → ttt = 0 → s.cfg.invalidLimit < s.video.invalid + 1 →
        t.video.vBusy = false ∧ t.video.vStatus = .frameInvalid ∧ t.video.fsState = .unsynchronized ∧
        t.video.vFrames = 0 ∧ t.video.invalid = s.video.invalid + 1) ∧
      (line = s.cfg.anchor → g.cancel n = true →
        (ttt = k.val + 1 ∧ k ≠ 3) ∨ (ttt = 0 ∧ s.video.invalid + 1 ≤ s.cfg.invalidLimit) →
        t.video.vBusy = false ∧ t.video.vDone = true ∧ t.video.vStatus = .cancelled ∧
        t.video.fsState = .unsynchronized ∧ t.video.frameValid = s.video.frameValid ∧ t.video.vFrames = 0 ∧
        t.video.invalid = if ttt = 0 then s.video.invalid + 1 else s.video.invalid)

/-- R202: in `Synchronized`, four segments that match make `XFER` complete `Ok`. `skips` counts the discards of the last
segment (R26). The equation says that nothing else changes; the level of `cancel_v` that comes with the last answer is the
model's (log 4). -/
def Obligations.XferTransfersFrame : Prop :=
  ∀ (s : State) (frame : Slot → Segment) (rest : List VideoAnswer) (n : Nat),
    s.video.vBusy = false → s.video.fsState = .synchronized → s.video.cmd.cancel = false →
    (∀ k, s.video.count k = n) → s.cfg.anchor < n → GoodFrame s.cfg n frame →
    s.video.sensor = frameAnswers n frame ++ rest →
    exec .xfer s = .next { s with video := { s.video with
      cmd := { s.video.cmd with cancel := (frame 3).cancel n }
      sensor := rest
      fb := frameStored s.cfg n frame s.video.fb
      invalid := 0
      skips := (frame 3).discards.length
      frameValid := true
      vFrames := 1
      vStatus := .ok, vDone := true, vBusy := false, vOp := none, vAt := .idle, seg := 0
      bus := s.video.bus ++ frameReads s.cfg n frame } }

/-- R203: in any other state `XFER` completes at once with `NotSynchronized`. -/
def Obligations.XferNeedsSynchronized : Prop :=
  ∀ (s : State), s.video.vBusy = false → s.video.fsState ≠ .synchronized →
    exec .xfer s = .next { s with video := { s.video with
      frameValid := false
      vFrames := 0
      vStatus := .notSynchronized, vDone := true, vBusy := false, vOp := none, vAt := .idle, seg := 0 } }

/-- R210: `SYNC` or `XFER` accepted while `cancel_v` is 1 ends with `Cancelled` before any bus transaction. -/
def Obligations.CancelledBeforeFirstRead : Prop :=
  ∀ (s : State), s.video.vBusy = false → s.video.cmd.cancel = true →
    exec .sync s = .next { s with video := { s.video with
      fsState := .unsynchronized
      resets := 0
      invalid := 0
      frameValid := false
      vFrames := 0
      vResets := 0
      vStatus := .cancelled, vDone := true, vBusy := false, vOp := none, vAt := .idle, seg := 0 } } ∧
    (s.video.fsState = .synchronized →
      exec .xfer s = .next { s with video := { s.video with
        fsState := .unsynchronized
        frameValid := false
        vFrames := 0
        vStatus := .cancelled, vDone := true, vBusy := false, vOp := none, vAt := .idle, seg := 0 } })

/-- R200, R206, R207, R312, R313, R325: what a completed `SYNC` leaves, status by status, in the turn that accepted it or in
a later one. -/
def Obligations.SyncCompletionTable : Prop :=
  ∀ s t : State,
    (s.video.vBusy = false ∧ exec .sync s = .next t) ∨
      (s.Inv ∧ s.video.vBusy = true ∧ s.video.vOp = some .sync ∧ serve .video s = .next t) →
    t.video.vBusy = false →
    t.video.vDone = true ∧ t.video.vResets = t.video.resets ∧
    ((t.video.vStatus = .ok ∧ t.video.fsState = .synchronized ∧ t.video.frameValid = true ∧ t.video.vFrames = 1 ∧
        t.video.invalid = 0 ∧ t.video.vResets ≤ t.video.maxResets) ∨
      (t.video.vStatus = .syncFailure ∧ t.video.fsState = .failed ∧ t.video.frameValid = false ∧ t.video.vFrames = 0 ∧
        t.video.vResets = t.video.maxResets + 1) ∨
      (t.video.vStatus = .frameInvalid ∧ t.video.fsState = .unsynchronized ∧ t.video.frameValid = false ∧
        t.video.vFrames = 0 ∧ t.video.invalid = t.cfg.invalidLimit + 1) ∨
      (t.video.vStatus ∈ [.ioFault, .discardTimeout, .cancelled] ∧ t.video.fsState = .unsynchronized ∧
        t.video.frameValid = false ∧ t.video.vFrames = 0))

/-- R202, R205, R206, R207, R325: what a completed `XFER` leaves when it was issued in `Synchronized`, in the turn that
accepted it or in a later one. -/
def Obligations.XferCompletionTable : Prop :=
  ∀ s t : State,
    (s.video.vBusy = false ∧ s.video.fsState = .synchronized ∧ exec .xfer s = .next t) ∨
      (s.Inv ∧ s.video.vBusy = true ∧ s.video.vOp = some .xfer ∧ serve .video s = .next t) →
    t.video.vBusy = false →
    t.video.vDone = true ∧ t.video.resets = s.video.resets ∧ t.video.vResets = s.video.vResets ∧
    ((t.video.vStatus = .ok ∧ t.video.fsState = .synchronized ∧ t.video.frameValid = true ∧ t.video.vFrames = 1 ∧
        t.video.invalid = 0) ∨
      (t.video.vStatus ∈ [.ioFault, .discardTimeout, .cancelled, .frameInvalid] ∧
        t.video.fsState = .unsynchronized ∧ t.video.frameValid = false ∧ t.video.vFrames = 0))

/-- The frame of `SYNC` and `XFER` (R190, R202, R175), in the turn that accepts one and in each later turn: `pkt_count`,
`max_resets` and `T` stay, `XFER` leaves `resets` and `v_resets`; of memory only the active entries of the four slots change.
R29, R132: a turn that leaves the operation in progress leaves `v_status`, `v_frames` and `v_resets`. The accepting turn takes
no free answer. -/
def Obligations.SyncAndXferFrame : Prop :=
  ∀ (i : Instr) (s t : State), i = .sync ∨ i = .xfer → (∀ k, 0 < s.video.count k) →
    exec i s = .next t ∨
      (s.Inv ∧ s.video.vBusy = true ∧ s.video.vOp = (if i = .sync then some .sync else some .xfer) ∧
        t = s.resume .video) →
    (∀ x, (∀ k : Slot, x < fbAddr s.cfg k 0 0 ∨ fbAddr s.cfg k 0 0 + s.cfg.packetBytes * s.video.count k ≤ x) →
      t.video.fb.read x = s.video.fb.read x) ∧
    (i = .xfer → t.video.resets = s.video.resets ∧ t.video.vResets = s.video.vResets) ∧
    (t.video.vBusy = true → ResultsHeld s.video t.video) ∧
    (exec i s = .next t → t.video.tick = s.video.tick) ∧
    t = { s with video := { t.video with
      pktCount := s.video.pktCount, maxResets := s.video.maxResets, tlm := s.video.tlm, epoch := s.video.epoch
      cmd := { s.video.cmd with cancel := t.video.cmd.cancel } } }

/-- R20 to R33, R207 and the writes lines of R150, R170, R186, R188, R190, R202, R220: which operations may write a register
or the memory of the video side; and the same of an operation that goes on in a later step, which is one of the four that
read packets. `frame_valid` rises in `SYNC` and `XFER` alone, and only as they complete `Ok` (R31). That `seg` is 0 between
operations is the model's (log 14). -/
def Obligations.WritersOfVideoState : Prop :=
  (∀ (i : Instr) (s t : State), exec i s = .next t →
    (t.video.fsState = s.video.fsState ∨ (∃ tlm, i = .cfgSession tlm) ∨ i = .sync ∨ i = .xfer) ∧
    (t.video.fb = s.video.fb ∨ (∃ slot p, i = .rdPkt slot p) ∨ (∃ slot p, i = .rdSeg slot p) ∨ i = .sync ∨ i = .xfer) ∧
    (t.video.pktCount = s.video.pktCount ∨ ∃ tlm, i = .cfgSession tlm) ∧
    (t.video.maxResets = s.video.maxResets ∨ ∃ value, i = .setMaxResets value) ∧
    (t.video.tlm = s.video.tlm ∨ ∃ slot p, i = .tlmDec slot p) ∧
    (t.video.resets = s.video.resets ∨ i = .sync) ∧
    (t.video.vResets = s.video.vResets ∨ i = .sync) ∧
    (t.video.invalid = s.video.invalid ∨ (∃ tlm, i = .cfgSession tlm) ∨ i = .sync ∨ i = .xfer) ∧
    (t.video.vFrames = s.video.vFrames ∨ i = .sync ∨ i = .xfer) ∧
    (t.video.frameValid = s.video.frameValid ∨
      (t.video.frameValid = false ∧
        ((∃ tlm, i = .cfgSession tlm) ∨ (∃ slot p, i = .rdPkt slot p) ∨ ∃ slot p, i = .rdSeg slot p)) ∨
      i = .sync ∨ i = .xfer) ∧
    (s.video.frameValid = false → t.video.frameValid = true →
      (i = .sync ∨ i = .xfer) ∧ t.video.vBusy = false ∧ t.video.vDone = true ∧ t.video.vStatus = .ok) ∧
    (t.video.skips = s.video.skips ∨ (∃ slot p, i = .rdPkt slot p) ∨ (∃ slot p, i = .rdSeg slot p) ∨ i = .sync ∨
      i = .xfer) ∧
    (t.video.seg = s.video.seg ∨ t.video.seg = 0 ∨ i = .sync ∨ i = .xfer)) ∧
  (∀ s : State, s.Inv → s.video.vBusy = true →
    let t := s.resume .video
    t.video.pktCount = s.video.pktCount ∧ t.video.maxResets = s.video.maxResets ∧ t.video.tlm = s.video.tlm ∧
    s.video.vOp ∈ [some .rdPkt, some .rdSeg, some .sync, some .xfer] ∧
    (t.video.fsState = s.video.fsState ∨ s.video.vOp = some .sync ∨ s.video.vOp = some .xfer) ∧
    (t.video.resets = s.video.resets ∨ s.video.vOp = some .sync) ∧
    (t.video.vResets = s.video.vResets ∨ s.video.vOp = some .sync) ∧
    (t.video.invalid = s.video.invalid ∨ s.video.vOp = some .sync ∨ s.video.vOp = some .xfer) ∧
    (t.video.seg = s.video.seg ∨ s.video.vOp = some .sync ∨ s.video.vOp = some .xfer) ∧
    (t.video.frameValid = false ∨ s.video.vOp = some .sync ∨ s.video.vOp = some .xfer) ∧
    (t.video.frameValid = true → t.video.vBusy = false ∧ t.video.vDone = true ∧ t.video.vStatus = .ok) ∧
    (t.video.vFrames = s.video.vFrames ∨ s.video.vOp = some .sync ∨ s.video.vOp = some .xfer))

/-! ## The control port -/

/-- R81, R260: `REG_WR`, whole, on an idle port: four bytes to the device, `IoFault` if they are not acknowledged. -/
def Obligations.RegWrResult : Prop :=
  ∀ (s : State) (addr value : Word) (a : CciAnswer) (rest : List CciAnswer),
    s.ctl.cBusy = false → s.ctl.sensor = a :: rest →
    exec (.regWr addr value) s = .next { s with ctl := { s.ctl with
      cmd := { s.ctl.cmd with cancel := a.cancel }
      sensor := rest
      cStatus := if a.ack then .ok else .ioFault
      cDone := true, cBusy := false, cOp := none, cAt := .idle
      bus := s.ctl.bus ++ [{
        dev := s.cfg.cciDevAddr, sent := [hiByte addr, loByte addr, hiByte value, loByte value]
        received := [], ack := a.ack }] } }

/-- R82, R262: `REG_RD`, whole, on an idle port: `c_rdata` is the value read, or stays on `IoFault`. That a read that fails
records no received byte is the model's (log 23). -/
def Obligations.RegRdResult : Prop :=
  ∀ (s : State) (addr : Word) (a : CciAnswer) (rest : List CciAnswer),
    s.ctl.cBusy = false → s.ctl.sensor = a :: rest →
    exec (.regRd addr) s = .next { s with ctl := { s.ctl with
      cmd := { s.ctl.cmd with cancel := a.cancel }
      sensor := rest
      cStatus := if a.ack then .ok else .ioFault
      cRdata := if a.ack then a.r0 ++ a.r1 else s.ctl.cRdata
      cDone := true, cBusy := false, cOp := none, cAt := .idle
      bus := s.ctl.bus ++ [{
        dev := s.cfg.cciDevAddr, sent := [hiByte addr, loByte addr]
        received := if a.ack then [a.r0, a.r1] else [], ack := a.ack }] } }

/-- R263: a write and then a read that answers what was written. -/
def Obligations.WriteThenRead : Prop :=
  ∀ (s t : State) (addr value : Word) (a b : CciAnswer) (rest : List CciAnswer),
    s.ctl.cBusy = false → s.ctl.sensor = a :: b :: rest → a.ack = true → b.ack = true →
    b.r0 = hiByte value → b.r1 = loByte value → exec (.regWr addr value) s = .next t →
    ∃ u, exec (.regRd addr) t = .next u ∧ u.ctl.cStatus = .ok ∧ u.ctl.cRdata = value

/-- R270 to R272, R274: `CCI_CMD` on the path that succeeds. -/
def Obligations.CciCmdResult : Prop :=
  ∀ (s : State) (opc : Word) (np nr : Nat) (x : HandshakeScript) (rest : List CciAnswer),
    s.cfg.Valid → s.ctl.cBusy = false → np ≤ s.cfg.nData → nr ≤ s.cfg.nData →
    s.ctl.sensor = x.answers ++ rest → x.Succeeds s.cfg np nr →
    ∃ t, exec (.cciCmd opc np nr) s = .next t ∧ HandshakeDone s ⟨opc, np, nr⟩ s.ctl x rest t ∧
      t.ctl.cRdata = s.ctl.cRdata ∧ t.ctl.cR32 = s.ctl.cR32

/-- R286, R290: `RUN_FFC` on the path that succeeds. -/
def Obligations.RunFfcResult : Prop :=
  ∀ (s : State) (x : HandshakeScript) (rest : List CciAnswer), s.cfg.Valid → s.ctl.cBusy = false →
    s.ctl.sensor = x.answers ++ rest → x.Succeeds s.cfg 0 0 →
    ∃ t, exec .runFfc s = .next t ∧ HandshakeDone s ⟨s.cfg.opcRunFfc, 0, 0⟩ s.ctl x rest t ∧
      t.ctl.cRdata = s.ctl.cRdata ∧ t.ctl.cR32 = s.ctl.cR32

/-- R286, R288, R291: `GET_UPTIME` on the path that succeeds: the second word is the more significant. -/
def Obligations.GetUptimeResult : Prop :=
  ∀ (s : State) (x : HandshakeScript) (w0 w1 : CciAnswer) (rest : List CciAnswer), s.cfg.Valid → s.ctl.cBusy = false →
    s.ctl.sensor = x.answers ++ rest → x.Succeeds s.cfg 0 2 → x.results = [w0, w1] →
    ∃ t, exec .getUptime s = .next t ∧ HandshakeDone s ⟨s.cfg.opcGetUptime, 0, 2⟩ s.ctl x rest t ∧
      t.ctl.cR32 = answerValue w1 ++ answerValue w0 ∧ t.ctl.cRdata = s.ctl.cRdata

/-- R286, R287, R292, R294, R296: the three `GET_*` commands on the path that succeeds: `c_rdata` is the first result word
as the sensor sent it. -/
def Obligations.GetEnumResult : Prop :=
  ∀ (s : State) (x : HandshakeScript) (w0 : CciAnswer) (rest : List CciAnswer), s.cfg.Valid → s.ctl.cBusy = false →
    s.cfg.enumWords ≤ s.cfg.nData → s.ctl.sensor = x.answers ++ rest → x.Succeeds s.cfg 0 s.cfg.enumWords →
    x.results[0]? = some w0 →
    ∀ (i : Instr) (opc : Word), (i, opc) ∈ [(Instr.getTlmEn, s.cfg.opcGetTlmEn), (.getTlmLoc, s.cfg.opcGetTlmLoc),
      (.getAgcEn, s.cfg.opcGetAgcEn)] →
    ∃ t, exec i s = .next t ∧ HandshakeDone s ⟨opc, 0, s.cfg.enumWords⟩ s.ctl x rest t ∧
      t.ctl.cRdata = answerValue w0 ∧ t.ctl.cR32 = s.ctl.cR32

/-- R286, R287, R293, R295, R297: the three `SET_*` commands on the path that succeeds: the word written is the operand. -/
def Obligations.SetEnumResult : Prop :=
  ∀ (s : State) (value : Word) (x : HandshakeScript) (rest : List CciAnswer), s.cfg.Valid → s.ctl.cBusy = false →
    s.cfg.enumWords ≤ s.cfg.nData → s.ctl.sensor = x.answers ++ rest → x.Succeeds s.cfg s.cfg.enumWords 0 →
    ∀ (i : Instr) (opc : Word), (i, opc) ∈ [(Instr.setTlmEn value, s.cfg.opcSetTlmEn),
      (.setTlmLoc value, s.cfg.opcSetTlmLoc), (.setAgcEn value, s.cfg.opcSetAgcEn)] →
    ∃ t, exec i s = .next t ∧
      HandshakeDone s ⟨opc, s.cfg.enumWords, 0⟩ (s.ctl.setParam 0 value) x rest t ∧
      t.ctl.param 0 = value ∧ (∀ j, j ≠ 0 → t.ctl.param j = s.ctl.param j) ∧
      t.ctl.cRdata = s.ctl.cRdata ∧ t.ctl.cR32 = s.ctl.cR32

/-- R270, R286: where `ENUM_WORDS` exceeds `N_DATA`, the check of the handshake inside a `GET_*` or `SET_*` is `BadOperand`
before any transaction. Two points are the model's choice (log 20): that such a configuration is legal, and that a `SET_*` has
then written `P[0]`, in R286's order, where R127, R317 and R325 say that a refused command changes only the status, done and
busy flags. -/
def Obligations.EnumWordsBeyondDataIsBadOperand : Prop :=
  ∀ (s : State) (value : Word), s.ctl.cBusy = false → s.cfg.nData < s.cfg.enumWords →
    (∀ i : Instr, i ∈ [Instr.getTlmEn, .getTlmLoc, .getAgcEn] →
      exec i s = .next { s with ctl := { s.ctl with
        cStatus := .badOperand, cDone := true, cBusy := false, cOp := none, cAt := .idle } }) ∧
    (∀ i : Instr, i ∈ [Instr.setTlmEn value, .setTlmLoc value, .setAgcEn value] →
      exec i s = .next { s with ctl := { s.ctl with
        params := (s.ctl.setParam 0 value).params
        cStatus := .badOperand, cDone := true, cBusy := false, cOp := none, cAt := .idle } })

/-- R273, R286, R310, R321: with a poll bound, the last status read it allows that still shows busy is `CciTimeout`, whatever
the cancel input. First `CCI_CMD` whole: exactly that many status reads, no result read, `P` unchanged. Then the busy poll of
every operation that runs a handshake, the composed ones included, from wherever it stands in its polls: the operation ends
with `CciTimeout`, and what follows the handshake (the copy of a `GET_*`) does not run. -/
def Obligations.PollBoundTimesOut : Prop :=
  (∀ (s : State) (opc : Word) (np nr : Nat) (x : HandshakeScript) (busy : List CciAnswer) (a : CciAnswer)
    (rest : List CciAnswer), s.ctl.cBusy = false → np ≤ s.cfg.nData → nr ≤ s.cfg.nData →
    s.ctl.sensor = x.writeAnswers ++ (busy ++ a :: rest) → x.WritesAcked np → (∀ b ∈ busy, BusyAnswer s.cfg b) →
    a.ack = true → isBusy s.cfg (answerValue a) = true → s.cfg.cciPollLimit = some (busy.length + 1) →
    ∃ t, exec (.cciCmd opc np nr) s = .next t ∧ t.ctl.cStatus = .cciTimeout ∧ t.ctl.cDone = true ∧
      t.ctl.cBusy = false ∧ t.ctl.params = s.ctl.params ∧ t.ctl.cRdata = s.ctl.cRdata ∧ t.ctl.cR32 = s.ctl.cR32 ∧
      t.ctl.sensor = rest ∧
      t.ctl.bus = s.ctl.bus ++ (handshakeWrites s.cfg ⟨opc, np, nr⟩ s.ctl ++
        (busy ++ [a]).map (CciXact.ofRead s.cfg s.cfg.regStatus))) ∧
  (∀ (s : State) (h : Handshake) (polls : Nat) (busy : List CciAnswer) (a : CciAnswer) (rest : List CciAnswer),
    s.rst = false → s.ctl.cBusy = true → s.ctl.cAt = .poll h polls → s.ctl.sensor = busy ++ a :: rest →
    (∀ b ∈ busy, BusyAnswer s.cfg b) → a.ack = true → isBusy s.cfg (answerValue a) = true →
    s.cfg.cciPollLimit = some (polls + busy.length + 1) →
    ∃ t, serve .control s = .next t ∧ t.ctl.cStatus = .cciTimeout ∧ t.ctl.cDone = true ∧ t.ctl.cBusy = false ∧
      t.ctl.params = s.ctl.params ∧ t.ctl.cRdata = s.ctl.cRdata ∧ t.ctl.cR32 = s.ctl.cR32 ∧ t.ctl.sensor = rest ∧
      t.ctl.bus = s.ctl.bus ++ (busy ++ [a]).map (CciXact.ofRead s.cfg s.cfg.regStatus))

/-- R275, R276, R286, R310: a busy answer with the cancel input high, below the poll bound, is `Cancelled`. First `CCI_CMD`
whole; then the busy poll of every operation that runs a handshake, the composed ones included. -/
def Obligations.PollIsCancelled : Prop :=
  (∀ (s : State) (opc : Word) (np nr : Nat) (x : HandshakeScript) (busy : List CciAnswer) (a : CciAnswer)
    (rest : List CciAnswer), s.ctl.cBusy = false → np ≤ s.cfg.nData → nr ≤ s.cfg.nData →
    s.ctl.sensor = x.writeAnswers ++ (busy ++ a :: rest) → x.WritesAcked np → (∀ b ∈ busy, BusyAnswer s.cfg b) →
    a.ack = true → isBusy s.cfg (answerValue a) = true → a.cancel = true →
    (∀ limit, s.cfg.cciPollLimit = some limit → busy.length + 1 < limit) →
    ∃ t, exec (.cciCmd opc np nr) s = .next t ∧ t.ctl.cStatus = .cancelled ∧ t.ctl.cDone = true ∧
      t.ctl.cBusy = false ∧ t.ctl.params = s.ctl.params ∧ t.ctl.cRdata = s.ctl.cRdata ∧ t.ctl.cR32 = s.ctl.cR32 ∧
      t.ctl.sensor = rest ∧
      t.ctl.bus = s.ctl.bus ++ (handshakeWrites s.cfg ⟨opc, np, nr⟩ s.ctl ++
        (busy ++ [a]).map (CciXact.ofRead s.cfg s.cfg.regStatus))) ∧
  (∀ (s : State) (h : Handshake) (polls : Nat) (busy : List CciAnswer) (a : CciAnswer) (rest : List CciAnswer),
    s.rst = false → s.ctl.cBusy = true → s.ctl.cAt = .poll h polls → s.ctl.sensor = busy ++ a :: rest →
    (∀ b ∈ busy, BusyAnswer s.cfg b) → a.ack = true → isBusy s.cfg (answerValue a) = true → a.cancel = true →
    (∀ limit, s.cfg.cciPollLimit = some limit → polls + busy.length + 1 < limit) →
    ∃ t, serve .control s = .next t ∧ t.ctl.cStatus = .cancelled ∧ t.ctl.cDone = true ∧ t.ctl.cBusy = false ∧
      t.ctl.params = s.ctl.params ∧ t.ctl.cRdata = s.ctl.cRdata ∧ t.ctl.cR32 = s.ctl.cR32 ∧ t.ctl.sensor = rest ∧
      t.ctl.bus = s.ctl.bus ++ (busy ++ [a]).map (CciXact.ofRead s.cfg s.cfg.regStatus))

/-- R273, R286, R380 (c): without a poll bound, any number of busy answers leaves the command in progress: `CCI_CMD`, and
every operation that is in the busy poll of its handshake. -/
def Obligations.UnboundedPollRunsOn : Prop :=
  (∀ (s : State) (opc : Word) (np nr : Nat) (x : HandshakeScript) (busy : List CciAnswer),
    s.cfg.cciPollLimit = none → s.ctl.cBusy = false → np ≤ s.cfg.nData → nr ≤ s.cfg.nData →
    s.ctl.sensor = x.writeAnswers ++ busy → x.WritesAcked np → (∀ b ∈ busy, BusyAnswer s.cfg b) →
    ∃ t, exec (.cciCmd opc np nr) s = .next t ∧ t.ctl.cBusy = true ∧ t.ctl.cDone = false ∧
      t.ctl.cStatus = s.ctl.cStatus ∧ t.ctl.cAt = .poll ⟨opc, np, nr⟩ busy.length ∧ t.ctl.sensor = []) ∧
  (∀ (s : State) (h : Handshake) (polls : Nat),
    s.cfg.cciPollLimit = none → s.rst = false → s.ctl.cBusy = true → s.ctl.cAt = .poll h polls →
    s.ctl.sensor ≠ [] → (∀ b ∈ s.ctl.sensor, BusyAnswer s.cfg b) →
    ∃ t, serve .control s = .next t ∧ t.ctl.cBusy = true ∧ t.ctl.cDone = s.ctl.cDone ∧
      t.ctl.cStatus = s.ctl.cStatus ∧ t.ctl.cOp = s.ctl.cOp ∧ t.ctl.cAt = .poll h (polls + s.ctl.sensor.length) ∧
      t.ctl.params = s.ctl.params ∧ t.ctl.cRdata = s.ctl.cRdata ∧ t.ctl.cR32 = s.ctl.cR32 ∧ t.ctl.sensor = [])

/-- R270, R275, R311, R325: a control-bus transaction that is not acknowledged ends the operation with `IoFault`; `P`,
`c_rdata` and `c_r32` stay as they were at that transaction. -/
def Obligations.ControlTransactionFailure : Prop :=
  ∀ (s : State) (a : CciAnswer) (rest : List CciAnswer), s.ctl.cBusy = true → s.ctl.cAt ≠ .idle →
    s.ctl.sensor = a :: rest → a.ack = false → s.rst = false →
    ∃ t, serve .control s = .next t ∧ t.ctl.cStatus = .ioFault ∧ t.ctl.cDone = true ∧ t.ctl.cBusy = false ∧
      t.ctl.params = s.ctl.params ∧ t.ctl.cRdata = s.ctl.cRdata ∧ t.ctl.cR32 = s.ctl.cR32 ∧ t.ctl.sensor = rest

/-- The frame of the control operations (R30, R32, R260, R262, R270, R286), in the turn that accepts one and in each later
turn: which of `P`, `c_rdata` and `c_r32` each may write, and that a fault, or an operation still in progress, has written
neither `c_rdata` nor `c_r32`. R31, R132: a turn that leaves the operation in progress leaves `c_status`. In a later turn only
result words are written to `P`. The accepting turn takes no free answer. -/
def Obligations.ControlFrame : Prop :=
  (∀ (i : Instr) (s t : State), i.port = .control → exec i s = .next t →
    (∀ j, paramsWritten s.cfg i ≤ j → t.ctl.param j = s.ctl.param j) ∧
    (writesRdata i = false → t.ctl.cRdata = s.ctl.cRdata) ∧
    (writesR32 i = false → t.ctl.cR32 = s.ctl.cR32) ∧
    (t.ctl.cBusy = true ∨ t.ctl.cStatus ≠ .ok → t.ctl.cRdata = s.ctl.cRdata ∧ t.ctl.cR32 = s.ctl.cR32) ∧
    (t.ctl.cBusy = true → t.ctl.cStatus = s.ctl.cStatus) ∧
    t = { s with ctl := { t.ctl with
      epoch := s.ctl.epoch, tick := s.ctl.tick, cmd := { s.ctl.cmd with cancel := t.ctl.cmd.cancel } } }) ∧
  (∀ (s : State) (op : ControlOp), s.Inv → s.ctl.cBusy = true → s.ctl.cOp = some op →
    let t := s.resume .control
    (∀ j, s.ctl.cAt.resultWords ≤ j → t.ctl.param j = s.ctl.param j) ∧
    (op.writesRdata = false → t.ctl.cRdata = s.ctl.cRdata) ∧
    (op ≠ .getUptime → t.ctl.cR32 = s.ctl.cR32) ∧
    (t.ctl.cBusy = true ∨ t.ctl.cStatus ≠ .ok → t.ctl.cRdata = s.ctl.cRdata ∧ t.ctl.cR32 = s.ctl.cR32) ∧
    (t.ctl.cBusy = true → t.ctl.cStatus = s.ctl.cStatus) ∧
    t = { s with ctl := { t.ctl with
      epoch := s.ctl.epoch, cmd := { s.ctl.cmd with cancel := t.ctl.cmd.cancel } } })

/-! ## The invariant -/

/-- R20 to R27, R31, R71, R208, R209, R273: every step keeps the invariant of the block, from every state that meets it. -/
def Obligations.StepKeepsInvariant : Prop :=
  ∀ s t : State, s.Inv → step s = .next t → t.Inv

/-- R62: the states right after reset meet the invariant, in every legal configuration. -/
def Obligations.ResetMeetsInvariant : Prop :=
  State.reset.Inv ∧ ∀ c : Cfg, c.Valid → (State.resetWith c).Inv

/-- R22, R31, R208: what `frame_valid` promises the host in every state of the invariant. R72, R372: the frame read port of an
idle engine, in every state and whatever `frame_valid`, shows each byte of the buffer that has been written, so also the entry
a `RD_PKT` wrote. In a slot that a failed operation touched the byte is the one the pseudocode left: that is the model's choice
(log 32). -/
def Obligations.FrameValidPromise : Prop :=
  (∀ s : State, s.Inv → s.video.frameValid = true →
    s.video.vBusy = false ∧ s.video.fsState = .synchronized ∧ s.fsStateOut = 2 ∧
    ∀ k : Slot,
      (s.video.entryId s.cfg k s.cfg.anchor).toNat % 256 = s.cfg.anchor ∧
      (s.video.entryId s.cfg k s.cfg.anchor).toNat / 4096 = k.val + 1 ∧
      isDiscard s.cfg (s.video.entryId s.cfg k 0) = false ∧
      ∀ p < s.video.count k, ∀ b < s.cfg.packetBytes,
        (s.video.fb.read (fbAddr s.cfg k p b)).isSome = true ∧
        (fbAddr s.cfg k p b < 2 ^ 16 →
          s.video.fb.read (fbAddr s.cfg k p b) = some (s.fbRdata (BitVec.ofNat 16 (fbAddr s.cfg k p b))))) ∧
  (∀ (s : State) (x : Word) (b : Byte), s.video.vBusy = false → x.toNat < s.cfg.fbSize →
    s.video.fb.read x.toNat = some b → s.fbRdata x = b)
end

