-- ==== Sys2Proof/Laws/State.lean ====
section
/-! SUPPORT. One lemma per field and update of the two engine records, each true by `rfl`, so that no later proof unfolds
a record update. -/

namespace Sys2Proof.Machine

open Sys2Proof

/-! ### Video.accept -/

@[simp] theorem Video.accept_cmd (op : VideoOp) (v : Video) : (v.accept op).cmd = v.cmd := rfl
@[simp] theorem Video.accept_sensor (op : VideoOp) (v : Video) : (v.accept op).sensor = v.sensor := rfl
@[simp] theorem Video.accept_tick (op : VideoOp) (v : Video) : (v.accept op).tick = v.tick := rfl
@[simp] theorem Video.accept_epoch (op : VideoOp) (v : Video) : (v.accept op).epoch = v.epoch := rfl
@[simp] theorem Video.accept_fb (op : VideoOp) (v : Video) : (v.accept op).fb = v.fb := rfl
@[simp] theorem Video.accept_pktCount (op : VideoOp) (v : Video) : (v.accept op).pktCount = v.pktCount := rfl
@[simp] theorem Video.accept_fsState (op : VideoOp) (v : Video) : (v.accept op).fsState = v.fsState := rfl
@[simp] theorem Video.accept_resets (op : VideoOp) (v : Video) : (v.accept op).resets = v.resets := rfl
@[simp] theorem Video.accept_invalid (op : VideoOp) (v : Video) : (v.accept op).invalid = v.invalid := rfl
@[simp] theorem Video.accept_skips (op : VideoOp) (v : Video) : (v.accept op).skips = v.skips := rfl
@[simp] theorem Video.accept_seg (op : VideoOp) (v : Video) : (v.accept op).seg = v.seg := rfl
@[simp] theorem Video.accept_maxResets (op : VideoOp) (v : Video) : (v.accept op).maxResets = v.maxResets := rfl
@[simp] theorem Video.accept_vBusy (op : VideoOp) (v : Video) : (v.accept op).vBusy = true := rfl
@[simp] theorem Video.accept_vDone (op : VideoOp) (v : Video) : (v.accept op).vDone = false := rfl
@[simp] theorem Video.accept_frameValid (op : VideoOp) (v : Video) : (v.accept op).frameValid = (v.frameValid && !op.clearsFrameValid) := rfl
@[simp] theorem Video.accept_vStatus (op : VideoOp) (v : Video) : (v.accept op).vStatus = v.vStatus := rfl
@[simp] theorem Video.accept_vFrames (op : VideoOp) (v : Video) : (v.accept op).vFrames = v.vFrames := rfl
@[simp] theorem Video.accept_vResets (op : VideoOp) (v : Video) : (v.accept op).vResets = v.vResets := rfl
@[simp] theorem Video.accept_tlm (op : VideoOp) (v : Video) : (v.accept op).tlm = v.tlm := rfl
@[simp] theorem Video.accept_vOp (op : VideoOp) (v : Video) : (v.accept op).vOp = some op := rfl
@[simp] theorem Video.accept_vAt (op : VideoOp) (v : Video) : (v.accept op).vAt = v.vAt := rfl
@[simp] theorem Video.accept_bus (op : VideoOp) (v : Video) : (v.accept op).bus = v.bus := rfl

/-! ### Video.complete -/

@[simp] theorem Video.complete_cmd (st : Status) (v : Video) : (v.complete st).cmd = v.cmd := rfl
@[simp] theorem Video.complete_sensor (st : Status) (v : Video) : (v.complete st).sensor = v.sensor := rfl
@[simp] theorem Video.complete_tick (st : Status) (v : Video) : (v.complete st).tick = v.tick := rfl
@[simp] theorem Video.complete_epoch (st : Status) (v : Video) : (v.complete st).epoch = v.epoch := rfl
@[simp] theorem Video.complete_fb (st : Status) (v : Video) : (v.complete st).fb = v.fb := rfl
@[simp] theorem Video.complete_pktCount (st : Status) (v : Video) : (v.complete st).pktCount = v.pktCount := rfl
@[simp] theorem Video.complete_fsState (st : Status) (v : Video) : (v.complete st).fsState = v.fsState := rfl
@[simp] theorem Video.complete_resets (st : Status) (v : Video) : (v.complete st).resets = v.resets := rfl
@[simp] theorem Video.complete_invalid (st : Status) (v : Video) : (v.complete st).invalid = v.invalid := rfl
@[simp] theorem Video.complete_skips (st : Status) (v : Video) : (v.complete st).skips = v.skips := rfl
@[simp] theorem Video.complete_seg (st : Status) (v : Video) : (v.complete st).seg = 0 := rfl
@[simp] theorem Video.complete_maxResets (st : Status) (v : Video) : (v.complete st).maxResets = v.maxResets := rfl
@[simp] theorem Video.complete_vBusy (st : Status) (v : Video) : (v.complete st).vBusy = false := rfl
@[simp] theorem Video.complete_vDone (st : Status) (v : Video) : (v.complete st).vDone = true := rfl
@[simp] theorem Video.complete_frameValid (st : Status) (v : Video) : (v.complete st).frameValid = v.frameValid := rfl
@[simp] theorem Video.complete_vStatus (st : Status) (v : Video) : (v.complete st).vStatus = st := rfl
@[simp] theorem Video.complete_vFrames (st : Status) (v : Video) : (v.complete st).vFrames = v.vFrames := rfl
@[simp] theorem Video.complete_vResets (st : Status) (v : Video) : (v.complete st).vResets = v.vResets := rfl
@[simp] theorem Video.complete_tlm (st : Status) (v : Video) : (v.complete st).tlm = v.tlm := rfl
@[simp] theorem Video.complete_vOp (st : Status) (v : Video) : (v.complete st).vOp = none := rfl
@[simp] theorem Video.complete_vAt (st : Status) (v : Video) : (v.complete st).vAt = .idle := rfl
@[simp] theorem Video.complete_bus (st : Status) (v : Video) : (v.complete st).bus = v.bus := rfl

/-! ### Video.observe -/

@[simp] theorem Video.observe_cmd (x : VideoXact) (b : Bool) (v : Video) : (v.observe x b).cmd = ({ v.cmd with cancel := b } : CmdPort) := rfl
@[simp] theorem Video.observe_sensor (x : VideoXact) (b : Bool) (v : Video) : (v.observe x b).sensor = v.sensor := rfl
@[simp] theorem Video.observe_tick (x : VideoXact) (b : Bool) (v : Video) : (v.observe x b).tick = v.tick := rfl
@[simp] theorem Video.observe_epoch (x : VideoXact) (b : Bool) (v : Video) : (v.observe x b).epoch = v.epoch := rfl
@[simp] theorem Video.observe_fb (x : VideoXact) (b : Bool) (v : Video) : (v.observe x b).fb = v.fb := rfl
@[simp] theorem Video.observe_pktCount (x : VideoXact) (b : Bool) (v : Video) : (v.observe x b).pktCount = v.pktCount := rfl
@[simp] theorem Video.observe_fsState (x : VideoXact) (b : Bool) (v : Video) : (v.observe x b).fsState = v.fsState := rfl
@[simp] theorem Video.observe_resets (x : VideoXact) (b : Bool) (v : Video) : (v.observe x b).resets = v.resets := rfl
@[simp] theorem Video.observe_invalid (x : VideoXact) (b : Bool) (v : Video) : (v.observe x b).invalid = v.invalid := rfl
@[simp] theorem Video.observe_skips (x : VideoXact) (b : Bool) (v : Video) : (v.observe x b).skips = v.skips := rfl
@[simp] theorem Video.observe_seg (x : VideoXact) (b : Bool) (v : Video) : (v.observe x b).seg = v.seg := rfl
@[simp] theorem Video.observe_maxResets (x : VideoXact) (b : Bool) (v : Video) : (v.observe x b).maxResets = v.maxResets := rfl
@[simp] theorem Video.observe_vBusy (x : VideoXact) (b : Bool) (v : Video) : (v.observe x b).vBusy = v.vBusy := rfl
@[simp] theorem Video.observe_vDone (x : VideoXact) (b : Bool) (v : Video) : (v.observe x b).vDone = v.vDone := rfl
@[simp] theorem Video.observe_frameValid (x : VideoXact) (b : Bool) (v : Video) : (v.observe x b).frameValid = v.frameValid := rfl
@[simp] theorem Video.observe_vStatus (x : VideoXact) (b : Bool) (v : Video) : (v.observe x b).vStatus = v.vStatus := rfl
@[simp] theorem Video.observe_vFrames (x : VideoXact) (b : Bool) (v : Video) : (v.observe x b).vFrames = v.vFrames := rfl
@[simp] theorem Video.observe_vResets (x : VideoXact) (b : Bool) (v : Video) : (v.observe x b).vResets = v.vResets := rfl
@[simp] theorem Video.observe_tlm (x : VideoXact) (b : Bool) (v : Video) : (v.observe x b).tlm = v.tlm := rfl
@[simp] theorem Video.observe_vOp (x : VideoXact) (b : Bool) (v : Video) : (v.observe x b).vOp = v.vOp := rfl
@[simp] theorem Video.observe_vAt (x : VideoXact) (b : Bool) (v : Video) : (v.observe x b).vAt = v.vAt := rfl
@[simp] theorem Video.observe_bus (x : VideoXact) (b : Bool) (v : Video) : (v.observe x b).bus = v.bus ++ [x] := rfl

/-! ### Video.raise -/

@[simp] theorem Video.raise_cmd (f : Status) (v : Video) : (v.raise f).cmd = v.cmd := rfl
@[simp] theorem Video.raise_sensor (f : Status) (v : Video) : (v.raise f).sensor = v.sensor := rfl
@[simp] theorem Video.raise_tick (f : Status) (v : Video) : (v.raise f).tick = v.tick := rfl
@[simp] theorem Video.raise_epoch (f : Status) (v : Video) : (v.raise f).epoch = v.epoch := rfl
@[simp] theorem Video.raise_fb (f : Status) (v : Video) : (v.raise f).fb = v.fb := rfl
@[simp] theorem Video.raise_pktCount (f : Status) (v : Video) : (v.raise f).pktCount = v.pktCount := rfl
@[simp] theorem Video.raise_fsState (f : Status) (v : Video) : (v.raise f).fsState = faultFsState v.vOp f v.fsState := rfl
@[simp] theorem Video.raise_resets (f : Status) (v : Video) : (v.raise f).resets = v.resets := rfl
@[simp] theorem Video.raise_invalid (f : Status) (v : Video) : (v.raise f).invalid = v.invalid := rfl
@[simp] theorem Video.raise_skips (f : Status) (v : Video) : (v.raise f).skips = v.skips := rfl
@[simp] theorem Video.raise_seg (f : Status) (v : Video) : (v.raise f).seg = 0 := rfl
@[simp] theorem Video.raise_maxResets (f : Status) (v : Video) : (v.raise f).maxResets = v.maxResets := rfl
@[simp] theorem Video.raise_vBusy (f : Status) (v : Video) : (v.raise f).vBusy = false := rfl
@[simp] theorem Video.raise_vDone (f : Status) (v : Video) : (v.raise f).vDone = true := rfl
@[simp] theorem Video.raise_frameValid (f : Status) (v : Video) : (v.raise f).frameValid = v.frameValid := rfl
@[simp] theorem Video.raise_vStatus (f : Status) (v : Video) : (v.raise f).vStatus = f := rfl
@[simp] theorem Video.raise_vFrames (f : Status) (v : Video) : (v.raise f).vFrames = faultFrames v.vOp v.vFrames := rfl
@[simp] theorem Video.raise_vResets (f : Status) (v : Video) : (v.raise f).vResets = faultResets v.vOp v.resets v.vResets := rfl
@[simp] theorem Video.raise_tlm (f : Status) (v : Video) : (v.raise f).tlm = v.tlm := rfl
@[simp] theorem Video.raise_vOp (f : Status) (v : Video) : (v.raise f).vOp = none := rfl
@[simp] theorem Video.raise_vAt (f : Status) (v : Video) : (v.raise f).vAt = .idle := rfl
@[simp] theorem Video.raise_bus (f : Status) (v : Video) : (v.raise f).bus = v.bus := rfl

/-! ### Video.startPacket -/

@[simp] theorem Video.startPacket_cmd (s : Slot) (p : Nat) (v : Video) : (v.startPacket s p).cmd = v.cmd := rfl
@[simp] theorem Video.startPacket_sensor (s : Slot) (p : Nat) (v : Video) : (v.startPacket s p).sensor = v.sensor := rfl
@[simp] theorem Video.startPacket_tick (s : Slot) (p : Nat) (v : Video) : (v.startPacket s p).tick = v.tick := rfl
@[simp] theorem Video.startPacket_epoch (s : Slot) (p : Nat) (v : Video) : (v.startPacket s p).epoch = v.epoch := rfl
@[simp] theorem Video.startPacket_fb (s : Slot) (p : Nat) (v : Video) : (v.startPacket s p).fb = v.fb := rfl
@[simp] theorem Video.startPacket_pktCount (s : Slot) (p : Nat) (v : Video) : (v.startPacket s p).pktCount = v.pktCount := rfl
@[simp] theorem Video.startPacket_fsState (s : Slot) (p : Nat) (v : Video) : (v.startPacket s p).fsState = v.fsState := rfl
@[simp] theorem Video.startPacket_resets (s : Slot) (p : Nat) (v : Video) : (v.startPacket s p).resets = v.resets := rfl
@[simp] theorem Video.startPacket_invalid (s : Slot) (p : Nat) (v : Video) : (v.startPacket s p).invalid = v.invalid := rfl
@[simp] theorem Video.startPacket_skips (s : Slot) (p : Nat) (v : Video) : (v.startPacket s p).skips = 0 := rfl
@[simp] theorem Video.startPacket_seg (s : Slot) (p : Nat) (v : Video) : (v.startPacket s p).seg = v.seg := rfl
@[simp] theorem Video.startPacket_maxResets (s : Slot) (p : Nat) (v : Video) : (v.startPacket s p).maxResets = v.maxResets := rfl
@[simp] theorem Video.startPacket_vBusy (s : Slot) (p : Nat) (v : Video) : (v.startPacket s p).vBusy = v.vBusy := rfl
@[simp] theorem Video.startPacket_vDone (s : Slot) (p : Nat) (v : Video) : (v.startPacket s p).vDone = v.vDone := rfl
@[simp] theorem Video.startPacket_frameValid (s : Slot) (p : Nat) (v : Video) : (v.startPacket s p).frameValid = v.frameValid := rfl
@[simp] theorem Video.startPacket_vStatus (s : Slot) (p : Nat) (v : Video) : (v.startPacket s p).vStatus = v.vStatus := rfl
@[simp] theorem Video.startPacket_vFrames (s : Slot) (p : Nat) (v : Video) : (v.startPacket s p).vFrames = v.vFrames := rfl
@[simp] theorem Video.startPacket_vResets (s : Slot) (p : Nat) (v : Video) : (v.startPacket s p).vResets = v.vResets := rfl
@[simp] theorem Video.startPacket_tlm (s : Slot) (p : Nat) (v : Video) : (v.startPacket s p).tlm = v.tlm := rfl
@[simp] theorem Video.startPacket_vOp (s : Slot) (p : Nat) (v : Video) : (v.startPacket s p).vOp = v.vOp := rfl
@[simp] theorem Video.startPacket_vAt (s : Slot) (p : Nat) (v : Video) : (v.startPacket s p).vAt = .packet s p := rfl
@[simp] theorem Video.startPacket_bus (s : Slot) (p : Nat) (v : Video) : (v.startPacket s p).bus = v.bus := rfl

/-! ### Video.decodePacket -/

@[simp] theorem Video.decodePacket_cmd (c : Cfg) (s : Slot) (p : Nat) (w : List Byte) (v : Video) : (v.decodePacket c s p w).cmd = v.cmd := rfl
@[simp] theorem Video.decodePacket_sensor (c : Cfg) (s : Slot) (p : Nat) (w : List Byte) (v : Video) : (v.decodePacket c s p w).sensor = v.sensor := rfl
@[simp] theorem Video.decodePacket_tick (c : Cfg) (s : Slot) (p : Nat) (w : List Byte) (v : Video) : (v.decodePacket c s p w).tick = v.tick := rfl
@[simp] theorem Video.decodePacket_epoch (c : Cfg) (s : Slot) (p : Nat) (w : List Byte) (v : Video) : (v.decodePacket c s p w).epoch = v.epoch := rfl
@[simp] theorem Video.decodePacket_fb (c : Cfg) (s : Slot) (p : Nat) (w : List Byte) (v : Video) : (v.decodePacket c s p w).fb = v.fb.write (fbAddr c s p 0) (entryBytes c w) := rfl
@[simp] theorem Video.decodePacket_pktCount (c : Cfg) (s : Slot) (p : Nat) (w : List Byte) (v : Video) : (v.decodePacket c s p w).pktCount = v.pktCount := rfl
@[simp] theorem Video.decodePacket_fsState (c : Cfg) (s : Slot) (p : Nat) (w : List Byte) (v : Video) : (v.decodePacket c s p w).fsState = v.fsState := rfl
@[simp] theorem Video.decodePacket_resets (c : Cfg) (s : Slot) (p : Nat) (w : List Byte) (v : Video) : (v.decodePacket c s p w).resets = v.resets := rfl
@[simp] theorem Video.decodePacket_invalid (c : Cfg) (s : Slot) (p : Nat) (w : List Byte) (v : Video) : (v.decodePacket c s p w).invalid = v.invalid := rfl
@[simp] theorem Video.decodePacket_skips (c : Cfg) (s : Slot) (p : Nat) (w : List Byte) (v : Video) : (v.decodePacket c s p w).skips = v.skips := rfl
@[simp] theorem Video.decodePacket_seg (c : Cfg) (s : Slot) (p : Nat) (w : List Byte) (v : Video) : (v.decodePacket c s p w).seg = v.seg := rfl
@[simp] theorem Video.decodePacket_maxResets (c : Cfg) (s : Slot) (p : Nat) (w : List Byte) (v : Video) : (v.decodePacket c s p w).maxResets = v.maxResets := rfl
@[simp] theorem Video.decodePacket_vBusy (c : Cfg) (s : Slot) (p : Nat) (w : List Byte) (v : Video) : (v.decodePacket c s p w).vBusy = v.vBusy := rfl
@[simp] theorem Video.decodePacket_vDone (c : Cfg) (s : Slot) (p : Nat) (w : List Byte) (v : Video) : (v.decodePacket c s p w).vDone = v.vDone := rfl
@[simp] theorem Video.decodePacket_frameValid (c : Cfg) (s : Slot) (p : Nat) (w : List Byte) (v : Video) : (v.decodePacket c s p w).frameValid = v.frameValid := rfl
@[simp] theorem Video.decodePacket_vStatus (c : Cfg) (s : Slot) (p : Nat) (w : List Byte) (v : Video) : (v.decodePacket c s p w).vStatus = v.vStatus := rfl
@[simp] theorem Video.decodePacket_vFrames (c : Cfg) (s : Slot) (p : Nat) (w : List Byte) (v : Video) : (v.decodePacket c s p w).vFrames = v.vFrames := rfl
@[simp] theorem Video.decodePacket_vResets (c : Cfg) (s : Slot) (p : Nat) (w : List Byte) (v : Video) : (v.decodePacket c s p w).vResets = v.vResets := rfl
@[simp] theorem Video.decodePacket_tlm (c : Cfg) (s : Slot) (p : Nat) (w : List Byte) (v : Video) : (v.decodePacket c s p w).tlm = v.tlm := rfl
@[simp] theorem Video.decodePacket_vOp (c : Cfg) (s : Slot) (p : Nat) (w : List Byte) (v : Video) : (v.decodePacket c s p w).vOp = v.vOp := rfl
@[simp] theorem Video.decodePacket_vAt (c : Cfg) (s : Slot) (p : Nat) (w : List Byte) (v : Video) : (v.decodePacket c s p w).vAt = v.vAt := rfl
@[simp] theorem Video.decodePacket_bus (c : Cfg) (s : Slot) (p : Nat) (w : List Byte) (v : Video) : (v.decodePacket c s p w).bus = v.bus := rfl

/-! ### Video.storeBulk -/

@[simp] theorem Video.storeBulk_cmd (c : Cfg) (s : Slot) (w : List Byte) (v : Video) : (v.storeBulk c s w).cmd = v.cmd := rfl
@[simp] theorem Video.storeBulk_sensor (c : Cfg) (s : Slot) (w : List Byte) (v : Video) : (v.storeBulk c s w).sensor = v.sensor := rfl
@[simp] theorem Video.storeBulk_tick (c : Cfg) (s : Slot) (w : List Byte) (v : Video) : (v.storeBulk c s w).tick = v.tick := rfl
@[simp] theorem Video.storeBulk_epoch (c : Cfg) (s : Slot) (w : List Byte) (v : Video) : (v.storeBulk c s w).epoch = v.epoch := rfl
@[simp] theorem Video.storeBulk_fb (c : Cfg) (s : Slot) (w : List Byte) (v : Video) : (v.storeBulk c s w).fb = v.fb.write (fbAddr c s 1 0) (bulkBytes c (v.count s - 1) w) := rfl
@[simp] theorem Video.storeBulk_pktCount (c : Cfg) (s : Slot) (w : List Byte) (v : Video) : (v.storeBulk c s w).pktCount = v.pktCount := rfl
@[simp] theorem Video.storeBulk_fsState (c : Cfg) (s : Slot) (w : List Byte) (v : Video) : (v.storeBulk c s w).fsState = v.fsState := rfl
@[simp] theorem Video.storeBulk_resets (c : Cfg) (s : Slot) (w : List Byte) (v : Video) : (v.storeBulk c s w).resets = v.resets := rfl
@[simp] theorem Video.storeBulk_invalid (c : Cfg) (s : Slot) (w : List Byte) (v : Video) : (v.storeBulk c s w).invalid = v.invalid := rfl
@[simp] theorem Video.storeBulk_skips (c : Cfg) (s : Slot) (w : List Byte) (v : Video) : (v.storeBulk c s w).skips = v.skips := rfl
@[simp] theorem Video.storeBulk_seg (c : Cfg) (s : Slot) (w : List Byte) (v : Video) : (v.storeBulk c s w).seg = v.seg := rfl
@[simp] theorem Video.storeBulk_maxResets (c : Cfg) (s : Slot) (w : List Byte) (v : Video) : (v.storeBulk c s w).maxResets = v.maxResets := rfl
@[simp] theorem Video.storeBulk_vBusy (c : Cfg) (s : Slot) (w : List Byte) (v : Video) : (v.storeBulk c s w).vBusy = v.vBusy := rfl
@[simp] theorem Video.storeBulk_vDone (c : Cfg) (s : Slot) (w : List Byte) (v : Video) : (v.storeBulk c s w).vDone = v.vDone := rfl
@[simp] theorem Video.storeBulk_frameValid (c : Cfg) (s : Slot) (w : List Byte) (v : Video) : (v.storeBulk c s w).frameValid = v.frameValid := rfl
@[simp] theorem Video.storeBulk_vStatus (c : Cfg) (s : Slot) (w : List Byte) (v : Video) : (v.storeBulk c s w).vStatus = v.vStatus := rfl
@[simp] theorem Video.storeBulk_vFrames (c : Cfg) (s : Slot) (w : List Byte) (v : Video) : (v.storeBulk c s w).vFrames = v.vFrames := rfl
@[simp] theorem Video.storeBulk_vResets (c : Cfg) (s : Slot) (w : List Byte) (v : Video) : (v.storeBulk c s w).vResets = v.vResets := rfl
@[simp] theorem Video.storeBulk_tlm (c : Cfg) (s : Slot) (w : List Byte) (v : Video) : (v.storeBulk c s w).tlm = v.tlm := rfl
@[simp] theorem Video.storeBulk_vOp (c : Cfg) (s : Slot) (w : List Byte) (v : Video) : (v.storeBulk c s w).vOp = v.vOp := rfl
@[simp] theorem Video.storeBulk_vAt (c : Cfg) (s : Slot) (w : List Byte) (v : Video) : (v.storeBulk c s w).vAt = v.vAt := rfl
@[simp] theorem Video.storeBulk_bus (c : Cfg) (s : Slot) (w : List Byte) (v : Video) : (v.storeBulk c s w).bus = v.bus := rfl

/-! ### Video.syncSuccess -/

@[simp] theorem Video.syncSuccess_cmd (v : Video) : (v.syncSuccess).cmd = v.cmd := rfl
@[simp] theorem Video.syncSuccess_sensor (v : Video) : (v.syncSuccess).sensor = v.sensor := rfl
@[simp] theorem Video.syncSuccess_tick (v : Video) : (v.syncSuccess).tick = v.tick := rfl
@[simp] theorem Video.syncSuccess_epoch (v : Video) : (v.syncSuccess).epoch = v.epoch := rfl
@[simp] theorem Video.syncSuccess_fb (v : Video) : (v.syncSuccess).fb = v.fb := rfl
@[simp] theorem Video.syncSuccess_pktCount (v : Video) : (v.syncSuccess).pktCount = v.pktCount := rfl
@[simp] theorem Video.syncSuccess_fsState (v : Video) : (v.syncSuccess).fsState = .synchronized := rfl
@[simp] theorem Video.syncSuccess_resets (v : Video) : (v.syncSuccess).resets = v.resets := rfl
@[simp] theorem Video.syncSuccess_invalid (v : Video) : (v.syncSuccess).invalid = 0 := rfl
@[simp] theorem Video.syncSuccess_skips (v : Video) : (v.syncSuccess).skips = v.skips := rfl
@[simp] theorem Video.syncSuccess_seg (v : Video) : (v.syncSuccess).seg = 0 := rfl
@[simp] theorem Video.syncSuccess_maxResets (v : Video) : (v.syncSuccess).maxResets = v.maxResets := rfl
@[simp] theorem Video.syncSuccess_vBusy (v : Video) : (v.syncSuccess).vBusy = false := rfl
@[simp] theorem Video.syncSuccess_vDone (v : Video) : (v.syncSuccess).vDone = true := rfl
@[simp] theorem Video.syncSuccess_frameValid (v : Video) : (v.syncSuccess).frameValid = true := rfl
@[simp] theorem Video.syncSuccess_vStatus (v : Video) : (v.syncSuccess).vStatus = .ok := rfl
@[simp] theorem Video.syncSuccess_vFrames (v : Video) : (v.syncSuccess).vFrames = 1 := rfl
@[simp] theorem Video.syncSuccess_vResets (v : Video) : (v.syncSuccess).vResets = v.resets := rfl
@[simp] theorem Video.syncSuccess_tlm (v : Video) : (v.syncSuccess).tlm = v.tlm := rfl
@[simp] theorem Video.syncSuccess_vOp (v : Video) : (v.syncSuccess).vOp = none := rfl
@[simp] theorem Video.syncSuccess_vAt (v : Video) : (v.syncSuccess).vAt = .idle := rfl
@[simp] theorem Video.syncSuccess_bus (v : Video) : (v.syncSuccess).bus = v.bus := rfl

/-! ### Video.xferSuccess -/

@[simp] theorem Video.xferSuccess_cmd (v : Video) : (v.xferSuccess).cmd = v.cmd := rfl
@[simp] theorem Video.xferSuccess_sensor (v : Video) : (v.xferSuccess).sensor = v.sensor := rfl
@[simp] theorem Video.xferSuccess_tick (v : Video) : (v.xferSuccess).tick = v.tick := rfl
@[simp] theorem Video.xferSuccess_epoch (v : Video) : (v.xferSuccess).epoch = v.epoch := rfl
@[simp] theorem Video.xferSuccess_fb (v : Video) : (v.xferSuccess).fb = v.fb := rfl
@[simp] theorem Video.xferSuccess_pktCount (v : Video) : (v.xferSuccess).pktCount = v.pktCount := rfl
@[simp] theorem Video.xferSuccess_fsState (v : Video) : (v.xferSuccess).fsState = v.fsState := rfl
@[simp] theorem Video.xferSuccess_resets (v : Video) : (v.xferSuccess).resets = v.resets := rfl
@[simp] theorem Video.xferSuccess_invalid (v : Video) : (v.xferSuccess).invalid = 0 := rfl
@[simp] theorem Video.xferSuccess_skips (v : Video) : (v.xferSuccess).skips = v.skips := rfl
@[simp] theorem Video.xferSuccess_seg (v : Video) : (v.xferSuccess).seg = 0 := rfl
@[simp] theorem Video.xferSuccess_maxResets (v : Video) : (v.xferSuccess).maxResets = v.maxResets := rfl
@[simp] theorem Video.xferSuccess_vBusy (v : Video) : (v.xferSuccess).vBusy = false := rfl
@[simp] theorem Video.xferSuccess_vDone (v : Video) : (v.xferSuccess).vDone = true := rfl
@[simp] theorem Video.xferSuccess_frameValid (v : Video) : (v.xferSuccess).frameValid = true := rfl
@[simp] theorem Video.xferSuccess_vStatus (v : Video) : (v.xferSuccess).vStatus = .ok := rfl
@[simp] theorem Video.xferSuccess_vFrames (v : Video) : (v.xferSuccess).vFrames = 1 := rfl
@[simp] theorem Video.xferSuccess_vResets (v : Video) : (v.xferSuccess).vResets = v.vResets := rfl
@[simp] theorem Video.xferSuccess_tlm (v : Video) : (v.xferSuccess).tlm = v.tlm := rfl
@[simp] theorem Video.xferSuccess_vOp (v : Video) : (v.xferSuccess).vOp = none := rfl
@[simp] theorem Video.xferSuccess_vAt (v : Video) : (v.xferSuccess).vAt = .idle := rfl
@[simp] theorem Video.xferSuccess_bus (v : Video) : (v.xferSuccess).bus = v.bus := rfl

/-! ### Control.accept -/

@[simp] theorem Control.accept_cmd (op : ControlOp) (k : Control) : (k.accept op).cmd = k.cmd := rfl
@[simp] theorem Control.accept_sensor (op : ControlOp) (k : Control) : (k.accept op).sensor = k.sensor := rfl
@[simp] theorem Control.accept_tick (op : ControlOp) (k : Control) : (k.accept op).tick = k.tick := rfl
@[simp] theorem Control.accept_epoch (op : ControlOp) (k : Control) : (k.accept op).epoch = k.epoch := rfl
@[simp] theorem Control.accept_params (op : ControlOp) (k : Control) : (k.accept op).params = k.params := rfl
@[simp] theorem Control.accept_cBusy (op : ControlOp) (k : Control) : (k.accept op).cBusy = true := rfl
@[simp] theorem Control.accept_cDone (op : ControlOp) (k : Control) : (k.accept op).cDone = false := rfl
@[simp] theorem Control.accept_cStatus (op : ControlOp) (k : Control) : (k.accept op).cStatus = k.cStatus := rfl
@[simp] theorem Control.accept_cRdata (op : ControlOp) (k : Control) : (k.accept op).cRdata = k.cRdata := rfl
@[simp] theorem Control.accept_cR32 (op : ControlOp) (k : Control) : (k.accept op).cR32 = k.cR32 := rfl
@[simp] theorem Control.accept_cOp (op : ControlOp) (k : Control) : (k.accept op).cOp = some op := rfl
@[simp] theorem Control.accept_cAt (op : ControlOp) (k : Control) : (k.accept op).cAt = k.cAt := rfl
@[simp] theorem Control.accept_bus (op : ControlOp) (k : Control) : (k.accept op).bus = k.bus := rfl

/-! ### Control.complete -/

@[simp] theorem Control.complete_cmd (st : Status) (k : Control) : (k.complete st).cmd = k.cmd := rfl
@[simp] theorem Control.complete_sensor (st : Status) (k : Control) : (k.complete st).sensor = k.sensor := rfl
@[simp] theorem Control.complete_tick (st : Status) (k : Control) : (k.complete st).tick = k.tick := rfl
@[simp] theorem Control.complete_epoch (st : Status) (k : Control) : (k.complete st).epoch = k.epoch := rfl
@[simp] theorem Control.complete_params (st : Status) (k : Control) : (k.complete st).params = k.params := rfl
@[simp] theorem Control.complete_cBusy (st : Status) (k : Control) : (k.complete st).cBusy = false := rfl
@[simp] theorem Control.complete_cDone (st : Status) (k : Control) : (k.complete st).cDone = true := rfl
@[simp] theorem Control.complete_cStatus (st : Status) (k : Control) : (k.complete st).cStatus = st := rfl
@[simp] theorem Control.complete_cRdata (st : Status) (k : Control) : (k.complete st).cRdata = k.cRdata := rfl
@[simp] theorem Control.complete_cR32 (st : Status) (k : Control) : (k.complete st).cR32 = k.cR32 := rfl
@[simp] theorem Control.complete_cOp (st : Status) (k : Control) : (k.complete st).cOp = none := rfl
@[simp] theorem Control.complete_cAt (st : Status) (k : Control) : (k.complete st).cAt = .idle := rfl
@[simp] theorem Control.complete_bus (st : Status) (k : Control) : (k.complete st).bus = k.bus := rfl

/-! ### Control.raise -/

@[simp] theorem Control.raise_cmd (f : Status) (k : Control) : (k.raise f).cmd = k.cmd := rfl
@[simp] theorem Control.raise_sensor (f : Status) (k : Control) : (k.raise f).sensor = k.sensor := rfl
@[simp] theorem Control.raise_tick (f : Status) (k : Control) : (k.raise f).tick = k.tick := rfl
@[simp] theorem Control.raise_epoch (f : Status) (k : Control) : (k.raise f).epoch = k.epoch := rfl
@[simp] theorem Control.raise_params (f : Status) (k : Control) : (k.raise f).params = k.params := rfl
@[simp] theorem Control.raise_cBusy (f : Status) (k : Control) : (k.raise f).cBusy = false := rfl
@[simp] theorem Control.raise_cDone (f : Status) (k : Control) : (k.raise f).cDone = true := rfl
@[simp] theorem Control.raise_cStatus (f : Status) (k : Control) : (k.raise f).cStatus = f := rfl
@[simp] theorem Control.raise_cRdata (f : Status) (k : Control) : (k.raise f).cRdata = k.cRdata := rfl
@[simp] theorem Control.raise_cR32 (f : Status) (k : Control) : (k.raise f).cR32 = k.cR32 := rfl
@[simp] theorem Control.raise_cOp (f : Status) (k : Control) : (k.raise f).cOp = none := rfl
@[simp] theorem Control.raise_cAt (f : Status) (k : Control) : (k.raise f).cAt = .idle := rfl
@[simp] theorem Control.raise_bus (f : Status) (k : Control) : (k.raise f).bus = k.bus := rfl

/-! ### Control.observe -/

@[simp] theorem Control.observe_cmd (x : CciXact) (b : Bool) (k : Control) : (k.observe x b).cmd = ({ k.cmd with cancel := b } : CmdPort) := rfl
@[simp] theorem Control.observe_sensor (x : CciXact) (b : Bool) (k : Control) : (k.observe x b).sensor = k.sensor := rfl
@[simp] theorem Control.observe_tick (x : CciXact) (b : Bool) (k : Control) : (k.observe x b).tick = k.tick := rfl
@[simp] theorem Control.observe_epoch (x : CciXact) (b : Bool) (k : Control) : (k.observe x b).epoch = k.epoch := rfl
@[simp] theorem Control.observe_params (x : CciXact) (b : Bool) (k : Control) : (k.observe x b).params = k.params := rfl
@[simp] theorem Control.observe_cBusy (x : CciXact) (b : Bool) (k : Control) : (k.observe x b).cBusy = k.cBusy := rfl
@[simp] theorem Control.observe_cDone (x : CciXact) (b : Bool) (k : Control) : (k.observe x b).cDone = k.cDone := rfl
@[simp] theorem Control.observe_cStatus (x : CciXact) (b : Bool) (k : Control) : (k.observe x b).cStatus = k.cStatus := rfl
@[simp] theorem Control.observe_cRdata (x : CciXact) (b : Bool) (k : Control) : (k.observe x b).cRdata = k.cRdata := rfl
@[simp] theorem Control.observe_cR32 (x : CciXact) (b : Bool) (k : Control) : (k.observe x b).cR32 = k.cR32 := rfl
@[simp] theorem Control.observe_cOp (x : CciXact) (b : Bool) (k : Control) : (k.observe x b).cOp = k.cOp := rfl
@[simp] theorem Control.observe_cAt (x : CciXact) (b : Bool) (k : Control) : (k.observe x b).cAt = k.cAt := rfl
@[simp] theorem Control.observe_bus (x : CciXact) (b : Bool) (k : Control) : (k.observe x b).bus = k.bus ++ [x] := rfl

/-! ### Control.setParam -/

@[simp] theorem Control.setParam_cmd (i : Nat) (w : Word) (k : Control) : (k.setParam i w).cmd = k.cmd := rfl
@[simp] theorem Control.setParam_sensor (i : Nat) (w : Word) (k : Control) : (k.setParam i w).sensor = k.sensor := rfl
@[simp] theorem Control.setParam_tick (i : Nat) (w : Word) (k : Control) : (k.setParam i w).tick = k.tick := rfl
@[simp] theorem Control.setParam_epoch (i : Nat) (w : Word) (k : Control) : (k.setParam i w).epoch = k.epoch := rfl
@[simp] theorem Control.setParam_params (i : Nat) (w : Word) (k : Control) : (k.setParam i w).params = k.params.setIfInBounds i w := rfl
@[simp] theorem Control.setParam_cBusy (i : Nat) (w : Word) (k : Control) : (k.setParam i w).cBusy = k.cBusy := rfl
@[simp] theorem Control.setParam_cDone (i : Nat) (w : Word) (k : Control) : (k.setParam i w).cDone = k.cDone := rfl
@[simp] theorem Control.setParam_cStatus (i : Nat) (w : Word) (k : Control) : (k.setParam i w).cStatus = k.cStatus := rfl
@[simp] theorem Control.setParam_cRdata (i : Nat) (w : Word) (k : Control) : (k.setParam i w).cRdata = k.cRdata := rfl
@[simp] theorem Control.setParam_cR32 (i : Nat) (w : Word) (k : Control) : (k.setParam i w).cR32 = k.cR32 := rfl
@[simp] theorem Control.setParam_cOp (i : Nat) (w : Word) (k : Control) : (k.setParam i w).cOp = k.cOp := rfl
@[simp] theorem Control.setParam_cAt (i : Nat) (w : Word) (k : Control) : (k.setParam i w).cAt = k.cAt := rfl
@[simp] theorem Control.setParam_bus (i : Nat) (w : Word) (k : Control) : (k.setParam i w).bus = k.bus := rfl

/-! ### Control.paramLoop -/

@[simp] theorem Control.paramLoop_cmd (h : Handshake) (i : Nat) (k : Control) : (k.paramLoop h i).cmd = k.cmd := rfl
@[simp] theorem Control.paramLoop_sensor (h : Handshake) (i : Nat) (k : Control) : (k.paramLoop h i).sensor = k.sensor := rfl
@[simp] theorem Control.paramLoop_tick (h : Handshake) (i : Nat) (k : Control) : (k.paramLoop h i).tick = k.tick := rfl
@[simp] theorem Control.paramLoop_epoch (h : Handshake) (i : Nat) (k : Control) : (k.paramLoop h i).epoch = k.epoch := rfl
@[simp] theorem Control.paramLoop_params (h : Handshake) (i : Nat) (k : Control) : (k.paramLoop h i).params = k.params := rfl
@[simp] theorem Control.paramLoop_cBusy (h : Handshake) (i : Nat) (k : Control) : (k.paramLoop h i).cBusy = k.cBusy := rfl
@[simp] theorem Control.paramLoop_cDone (h : Handshake) (i : Nat) (k : Control) : (k.paramLoop h i).cDone = k.cDone := rfl
@[simp] theorem Control.paramLoop_cStatus (h : Handshake) (i : Nat) (k : Control) : (k.paramLoop h i).cStatus = k.cStatus := rfl
@[simp] theorem Control.paramLoop_cRdata (h : Handshake) (i : Nat) (k : Control) : (k.paramLoop h i).cRdata = k.cRdata := rfl
@[simp] theorem Control.paramLoop_cR32 (h : Handshake) (i : Nat) (k : Control) : (k.paramLoop h i).cR32 = k.cR32 := rfl
@[simp] theorem Control.paramLoop_cOp (h : Handshake) (i : Nat) (k : Control) : (k.paramLoop h i).cOp = k.cOp := rfl
@[simp] theorem Control.paramLoop_cAt (h : Handshake) (i : Nat) (k : Control) : (k.paramLoop h i).cAt = (if i < h.np then .param h i else .length h) := rfl
@[simp] theorem Control.paramLoop_bus (h : Handshake) (i : Nat) (k : Control) : (k.paramLoop h i).bus = k.bus := rfl

/-! ### The state around an engine -/

@[simp] theorem State.takeCommand_video (s : State) (p : Port) :
    (s.takeCommand p).video = if p = .video then { s.video with cmd := { s.video.cmd with valid := false } } else s.video := by
  cases p <;> rfl

@[simp] theorem State.takeCommand_ctl (s : State) (p : Port) :
    (s.takeCommand p).ctl = if p = .control then { s.ctl with cmd := { s.ctl.cmd with valid := false } } else s.ctl := by
  cases p <;> rfl

@[simp] theorem State.takeCommand_cfg (s : State) (p : Port) : (s.takeCommand p).cfg = s.cfg := by cases p <;> rfl

@[simp] theorem State.takeCommand_agenda (s : State) (p : Port) : (s.takeCommand p).agenda = s.agenda := by
  cases p <;> rfl

/-! ### State.applyReset and State.driveReset -/

@[simp] theorem State.applyReset_cfg (s : State) : s.applyReset.cfg = s.cfg := rfl
@[simp] theorem State.applyReset_agenda (s : State) : s.applyReset.agenda = s.agenda := rfl
@[simp] theorem State.applyReset_rst (s : State) : s.applyReset.rst = s.rst := rfl

/-- Driving `rst` resets, unless it drives the released input low again. -/
theorem State.driveReset_cases (level : Bool) (s : State) :
    (s.driveReset level = { s.applyReset with rst := level } ∧ (level = true ∨ s.rst = true)) ∨
    (s.driveReset level = s ∧ level = false ∧ s.rst = false) := by
  unfold State.driveReset
  cases level <;> cases h : s.rst <;> simp

@[simp] theorem State.driveReset_rst (level : Bool) (s : State) : (s.driveReset level).rst = level := by
  rcases s.driveReset_cases level with ⟨h, _⟩ | ⟨h, h', h''⟩ <;> rw [h]
  rw [h', h'']

end Sys2Proof.Machine
end

