-- ==== Sys2Proof/Laws/Control.lean ====
section
/-! SUPPORT. The control engine: the induction over the answers of a run, what one answer does case by case, and the
invariant of the control side through each of them. -/

namespace Sys2Proof.Machine

open Sys2Proof

/-! ## Runs over a list of answers -/

theorem Control.runOver_nil (c : Cfg) (k : Control) : Control.runOver c [] k = { k with sensor := [] } := rfl

theorem Control.runOver_idle (c : Cfg) (as : List CciAnswer) (k : Control) (h : k.cBusy = false) :
    Control.runOver c as k = { k with sensor := as } := by
  cases as <;> simp [Control.runOver, h]

theorem Control.runOver_busy (c : Cfg) (a : CciAnswer) (as : List CciAnswer) (k : Control) (h : k.cBusy = true) :
    Control.runOver c (a :: as) k = Control.runOver c as (k.answer c a) := by
  simp [Control.runOver, h]

/-- What every answer of a run keeps, the run keeps. -/
theorem Control.runOver_induct {P : Control → Prop} {c : Cfg}
    (hanswer : ∀ k a, P k → k.cBusy = true → P (k.answer c a))
    (hsensor : ∀ k as, P k → P { k with sensor := as }) :
    ∀ as k, P k → P (Control.runOver c as k) := by
  intro as
  induction as with
  | nil => intro k h; exact hsensor k [] h
  | cons a as ih =>
    intro k h
    cases hb : k.cBusy with
    | true => rw [Control.runOver_busy c a as k hb]; exact ih _ (hanswer k a h hb)
    | false => rw [Control.runOver_idle c _ k hb]; exact hsensor k _ h

theorem Control.run_induct {P : Control → Prop} {c : Cfg}
    (hanswer : ∀ k a, P k → k.cBusy = true → P (k.answer c a))
    (hsensor : ∀ k as, P k → P { k with sensor := as }) {k : Control} (h : P k) : P (k.run c) :=
  Control.runOver_induct hanswer hsensor k.sensor k h

/-! ## What one answer does at each label -/

theorem Control.answer_nack (c : Cfg) {a : CciAnswer} (k : Control) (hat : k.cAt ≠ .idle) (ha : a.ack = false) :
    ∃ x, k.answer c a = (k.observe x a.cancel).raise .ioFault := by
  unfold Control.answer
  split
  · exact absurd ‹_› hat
  all_goals simp only [ha, Control.wrote, Control.didRead]; exact ⟨_, rfl⟩

theorem Control.answer_regWrite (c : Cfg) {a : CciAnswer} {k : Control} {addr value : Word}
    (hat : k.cAt = .regWrite addr value) (ha : a.ack = true) :
    k.answer c a = (k.observe (CciXact.ofWrite c addr value true) a.cancel).complete .ok := by
  simp [Control.answer, hat, ha, Control.wrote]

theorem Control.answer_regRead (c : Cfg) {a : CciAnswer} {k : Control} {addr : Word}
    (hat : k.cAt = .regRead addr) (ha : a.ack = true) :
    k.answer c a =
      ({ k.observe (CciXact.ofRead c addr a) a.cancel with cRdata := answerValue a } : Control).complete .ok := by
  simp [Control.answer, hat, ha, Control.didRead]

theorem Control.answer_param (c : Cfg) {a : CciAnswer} {k : Control} {h : Handshake} {i : Nat}
    (hat : k.cAt = .param h i) (ha : a.ack = true) :
    k.answer c a =
      (k.observe (CciXact.ofWrite c (dataAddr c i) (k.param i) true) a.cancel).paramLoop h (i + 1) := by
  simp [Control.answer, hat, ha, Control.wrote]

theorem Control.answer_length (c : Cfg) {a : CciAnswer} {k : Control} {h : Handshake}
    (hat : k.cAt = .length h) (ha : a.ack = true) :
    k.answer c a =
      { k.observe (CciXact.ofWrite c c.regLength (lengthWord h) true) a.cancel with cAt := .command h } := by
  simp [Control.answer, hat, ha, Control.wrote]

theorem Control.answer_command (c : Cfg) {a : CciAnswer} {k : Control} {h : Handshake}
    (hat : k.cAt = .command h) (ha : a.ack = true) :
    k.answer c a =
      { k.observe (CciXact.ofWrite c c.regCommand h.opc true) a.cancel with cAt := .poll h 0 } := by
  simp [Control.answer, hat, ha, Control.wrote]

theorem Control.answer_poll (c : Cfg) {a : CciAnswer} {k : Control} {h : Handshake} {polls : Nat}
    (hat : k.cAt = .poll h polls) (ha : a.ack = true) :
    k.answer c a =
      (k.observe (CciXact.ofRead c c.regStatus a) a.cancel).afterPoll c h (polls + 1) (answerValue a) := by
  simp [Control.answer, hat, ha, Control.didRead]

theorem Control.answer_result (c : Cfg) {a : CciAnswer} {k : Control} {h : Handshake} {i : Nat}
    (hat : k.cAt = .result h i) (ha : a.ack = true) :
    k.answer c a =
      ((k.observe (CciXact.ofRead c (dataAddr c i) a) a.cancel).setParam i (answerValue a)).resultLoop h (i + 1) := by
  simp [Control.answer, hat, ha, Control.didRead]

theorem Control.afterPoll_ready (c : Cfg) (h : Handshake) (polls : Nat) {w : Word} (k : Control)
    (hb : isBusy c w = false) : k.afterPoll c h polls w = k.resultLoop h 0 := by
  simp [Control.afterPoll, hb]

theorem Control.afterPoll_again (c : Cfg) (h : Handshake) (polls : Nat) {w : Word} {k : Control}
    (hb : isBusy c w = true) (hl : pollLimitReached c polls = false) (hcan : k.cmd.cancel = false) :
    k.afterPoll c h polls w = { k with cAt := .poll h polls } := by
  simp [Control.afterPoll, hb, hl, hcan]

theorem Control.afterPoll_timeout (c : Cfg) (h : Handshake) (polls : Nat) {w : Word} (k : Control)
    (hb : isBusy c w = true) (hl : pollLimitReached c polls = true) :
    k.afterPoll c h polls w = k.raise .cciTimeout := by
  simp [Control.afterPoll, hb, hl]

theorem Control.afterPoll_cancelled (c : Cfg) (h : Handshake) (polls : Nat) {w : Word} {k : Control}
    (hb : isBusy c w = true) (hl : pollLimitReached c polls = false) (hcan : k.cmd.cancel = true) :
    k.afterPoll c h polls w = k.raise .cancelled := by
  simp [Control.afterPoll, hb, hl, hcan]

/-- The end of a handshake completes `Ok`, whatever it copies first. -/
theorem Control.finish_cases (k : Control) : ∃ r d, k.finish = ({ k with cRdata := r, cR32 := d } : Control).complete .ok := by
  unfold Control.finish
  split <;> exact ⟨_, _, rfl⟩

/-! ## Parameter words -/

/-- No answer of the sensor touches the presented command (R388 (d)). -/
theorem Control.answer_port (c : Cfg) (a : CciAnswer) (k : Control) :
    (k.answer c a).cmd.valid = k.cmd.valid ∧ (k.answer c a).cmd.word = k.cmd.word := by
  have hl : ∀ (h : Handshake) (i : Nat) (k : Control),
      (k.resultLoop h i).cmd.valid = k.cmd.valid ∧ (k.resultLoop h i).cmd.word = k.cmd.word := fun h i k => by
    obtain ⟨r, d, hf⟩ := k.finish_cases
    unfold Control.resultLoop
    split
    · exact ⟨rfl, rfl⟩
    · rw [hf]; exact ⟨rfl, rfl⟩
  have hp : ∀ (h : Handshake) (n : Nat) (w : Word) (k : Control),
      (k.afterPoll c h n w).cmd.valid = k.cmd.valid ∧ (k.afterPoll c h n w).cmd.word = k.cmd.word := fun h n w k => by
    unfold Control.afterPoll
    split
    · split
      · exact ⟨rfl, rfl⟩
      · split <;> exact ⟨rfl, rfl⟩
    · exact hl h 0 k
  unfold Control.answer
  cases k.cAt <;> simp only
  case idle => exact ⟨trivial, trivial⟩
  case poll h polls => split; exacts [hp _ _ _ _, ⟨rfl, rfl⟩]
  case result h i => split; exacts [hl _ _ _, ⟨rfl, rfl⟩]
  all_goals split <;> exact ⟨rfl, rfl⟩

/-- A run over answers leaves the presented command alone (R388 (d)). -/
theorem Control.runOver_port (c : Cfg) (as : List CciAnswer) (k : Control) :
    (k.runOver c as).cmd.valid = k.cmd.valid ∧ (k.runOver c as).cmd.word = k.cmd.word :=
  Control.runOver_induct (P := fun w => w.cmd.valid = k.cmd.valid ∧ w.cmd.word = k.cmd.word)
    (fun w a h _ => ⟨(w.answer_port c a).1.trans h.1, (w.answer_port c a).2.trans h.2⟩)
    (fun _ _ h => h) as k ⟨rfl, rfl⟩

/-- A later turn leaves the presented command alone (R388 (d)). -/
theorem Control.resume_port (c : Cfg) (k : Control) :
    (k.resume c).cmd.valid = k.cmd.valid ∧ (k.resume c).cmd.word = k.cmd.word := by
  unfold Control.resume
  split
  · exact Control.answer_port c _ _
  · exact Control.runOver_port c _ k

theorem Control.param_setParam (k : Control) (i j : Nat) (w : Word) (hi : i < 16) :
    (k.setParam i w).param j = if j = i then w else k.param j := by
  simp only [Control.param, Control.setParam, Vector.getElem?_setIfInBounds]
  by_cases h : i = j
  · subst h; simp [hi]
  · simp [h, Ne.symm h]

/-! ## The invariant of the control side -/

theorem Control.Inv.ofComplete (c : Cfg) (k : Control) (st : Status) : (k.complete st).Inv c where
  busyIff := by simp
  notDoneWhileBusy := by simp
  atLegal := by simp [ControlAtLegal]

theorem Control.Inv.ofRaise (c : Cfg) (k : Control) (f : Status) : (k.raise f).Inv c := Control.Inv.ofComplete c k f

/-- A label in the middle of a handshake. -/
theorem Control.Inv.ofLabel {c : Cfg} {k : Control} (hb : k.cBusy = true) (hd : k.cDone = false) (hat : k.cAt ≠ .idle)
    (hl : ControlAtLegal c k) : k.Inv c where
  busyIff := by simp [hb, hat]
  notDoneWhileBusy := fun _ => hd
  atLegal := hl

theorem Control.Inv.paramLoop {c : Cfg} {k : Control} {h : Handshake} (i : Nat) (hb : k.cBusy = true)
    (hd : k.cDone = false) (hh : HandshakeOf c k.cOp h) : (k.paramLoop h i).Inv c := by
  by_cases hi : i < h.np
  · exact .ofLabel hb hd (by simp [hi]) (by simp [ControlAtLegal, hi, hh])
  · exact .ofLabel hb hd (by simp [hi]) (by simp [ControlAtLegal, hi, hh])

theorem Control.Inv.resultLoop {c : Cfg} {k : Control} {h : Handshake} (i : Nat) (hb : k.cBusy = true)
    (hd : k.cDone = false) (hh : HandshakeOf c k.cOp h) : (k.resultLoop h i).Inv c := by
  unfold Control.resultLoop
  split
  · rename_i hi; exact .ofLabel hb hd (by simp) ⟨hh, hi⟩
  · obtain ⟨r, d, he⟩ := k.finish_cases
    rw [he]; exact .ofComplete _ _ _

theorem Control.Inv.afterPoll {c : Cfg} {k : Control} {h : Handshake} (polls : Nat) (w : Word) (hb : k.cBusy = true)
    (hd : k.cDone = false) (hh : HandshakeOf c k.cOp h) : (k.afterPoll c h polls w).Inv c := by
  unfold Control.afterPoll
  split
  · split
    · exact .ofRaise _ _ _
    · rename_i hl
      split
      · exact .ofRaise _ _ _
      · refine .ofLabel hb hd (by simp) ⟨hh, fun limit hlim => ?_⟩
        simpa [pollLimitReached, hlim] using hl
  · exact .resultLoop 0 hb hd hh

/-- One answer of the sensor keeps the invariant of the control side. -/
theorem Control.Inv.answer {c : Cfg} {k : Control} (hc : c.Valid) (h : k.Inv c) (hb : k.cBusy = true) (a : CciAnswer) :
    (k.answer c a).Inv c := by
  have hd := h.notDoneWhileBusy hb
  have hl := h.atLegal
  cases ha : a.ack with
  | false =>
    obtain ⟨x, he⟩ := k.answer_nack c (h.busyIff.1 hb) ha
    rw [he]; exact .ofRaise _ _ _
  | true =>
    cases hat : k.cAt with
    | idle => exact absurd hat (h.busyIff.1 hb)
    | regWrite addr value => rw [Control.answer_regWrite c hat ha]; exact .ofComplete _ _ _
    | regRead addr => rw [Control.answer_regRead c hat ha]; exact .ofComplete _ _ _
    | param hs i =>
      rw [ControlAtLegal, hat] at hl
      rw [Control.answer_param c hat ha]; exact .paramLoop _ hb hd hl.1
    | length hs =>
      rw [ControlAtLegal, hat] at hl
      rw [Control.answer_length c hat ha]; exact .ofLabel hb hd (by simp) hl
    | command hs =>
      rw [ControlAtLegal, hat] at hl
      rw [Control.answer_command c hat ha]
      exact .ofLabel hb hd (by simp) ⟨hl, fun limit hlim => Nat.pos_of_ne_zero fun h0 =>
        hc.2.2.2.2.2.2.2.2.2.2.2.2.2 (by rw [hlim, h0])⟩
    | poll hs polls =>
      rw [ControlAtLegal, hat] at hl
      rw [Control.answer_poll c hat ha]; exact .afterPoll _ _ hb hd hl.1
    | result hs i =>
      rw [ControlAtLegal, hat] at hl
      rw [Control.answer_result c hat ha]; exact .resultLoop _ hb hd hl.1

/-- The invariant looks at none of the port's inputs, the sensor's answers, the free-answer counter and `P`. -/
theorem Control.Inv.withInputs {c : Cfg} {k : Control} (h : k.Inv c) (cmd : CmdPort) (sensor : List CciAnswer)
    (tick : Nat) (params : Vector Word 16) :
    Control.Inv c { k with cmd := cmd, sensor := sensor, tick := tick, params := params } :=
  ⟨h.busyIff, h.notDoneWhileBusy, h.atLegal⟩

theorem Control.Inv.runOver {c : Cfg} {k : Control} (hc : c.Valid) (h : k.Inv c) (as : List CciAnswer) :
    (Control.runOver c as k).Inv c :=
  Control.runOver_induct (P := Control.Inv c) (fun _ a hk hb => hk.answer hc hb a)
    (fun k as hk => hk.withInputs k.cmd as k.tick k.params) as k h

theorem Control.Inv.resume {c : Cfg} {k : Control} (hc : c.Valid) (h : k.Inv c) (hb : k.cBusy = true) :
    (k.resume c).Inv c := by
  unfold Control.resume
  split
  · exact (h.withInputs k.cmd k.sensor (k.tick + 1) k.params).answer hc hb _
  · exact h.runOver hc _

theorem Control.Inv.regWr (c : Cfg) (hc : c.Valid) (addr value : Word) (k : Control) : (regWr addr value c k).Inv c :=
  Control.Inv.runOver hc (.ofLabel rfl rfl (by simp) (by simp [ControlAtLegal])) _

theorem Control.Inv.regRd (c : Cfg) (hc : c.Valid) (addr : Word) (k : Control) : (regRd addr c k).Inv c :=
  Control.Inv.runOver hc (.ofLabel rfl rfl (by simp) (by simp [ControlAtLegal])) _

/-- A handshake keeps the invariant if its arguments are the operation's own whenever they pass the check. -/
theorem Control.Inv.handshake {c : Cfg} {k : Control} (hc : c.Valid) {h : Handshake} (hb : k.cBusy = true)
    (hd : k.cDone = false) (hh : badWordCounts c h.np h.nr = false → HandshakeOf c k.cOp h) :
    (k.handshake c h).Inv c := by
  unfold Control.handshake
  split
  · exact .ofRaise _ _ _
  · rename_i hbad
    exact Control.Inv.runOver hc (.paramLoop 0 hb hd (hh (by simpa using hbad))) _

theorem Control.Inv.cciCmd (c : Cfg) (hc : c.Valid) (opc : Word) (np nr : Nat) (k : Control) :
    (cciCmd opc np nr c k).Inv c :=
  .handshake hc rfl rfl fun h => by simpa [badWordCounts, HandshakeOf] using h

theorem Control.Inv.getCommand (c : Cfg) (hc : c.Valid) {op : ControlOp} {opc : Word} {words : Nat} (k : Control)
    (h : HandshakeOf c (some op) ⟨opc, 0, words⟩) : (getCommand op opc words c k).Inv c :=
  .handshake hc rfl rfl fun _ => h

theorem Control.Inv.setCommand (c : Cfg) (hc : c.Valid) {op : ControlOp} {opc : Word} (value : Word) (k : Control)
    (h : HandshakeOf c (some op) ⟨opc, c.enumWords, 0⟩) : (setCommand op opc value c k).Inv c :=
  .handshake hc rfl rfl fun _ => h

/-- The table of R62 meets the invariant. -/
theorem Control.Inv.afterReset (c : Cfg) (epoch : Nat) (cmd : CmdPort) (sensor : List CciAnswer) (tick : Nat)
    (bus : List CciXact) : (Control.atReset epoch cmd sensor tick bus).Inv c where
  busyIff := by simp [Control.atReset]
  notDoneWhileBusy := by simp [Control.atReset]
  atLegal := by simp [Control.atReset, ControlAtLegal]

/-- The parameter write port changes nothing but `P`. -/
theorem Control.hostWrite_cases (c : Cfg) (idx : BitVec 4) (data : Word) (k : Control) :
    (k.cBusy = true ∨ c.nData ≤ idx.toNat) ∧ k.hostWrite c idx data = k ∨
    (k.cBusy = false ∧ idx.toNat < c.nData) ∧ k.hostWrite c idx data = k.setParam idx.toNat data := by
  unfold Control.hostWrite
  by_cases h1 : k.cBusy = true
  · simp [h1]
  · by_cases h2 : c.nData ≤ idx.toNat
    · simp [h2]
    · right; simp_all

end Sys2Proof.Machine
end

