-- ==== Sys2Proof/Laws/Decode.lean ====
section
/-! SUPPORT. The command word: each field of a word put together from its parts reads back, and which words the decoder
takes. -/

namespace Sys2Proof

/-! ## Fields of an encoded word -/

theorem encodeWord_toNat {op a b : Nat} (ho : op < 256) (ha : a < 65536) (hb : b < 65536) :
    (encodeWord op a b).toNat = op * 4294967296 + a * 65536 + b := by
  simp only [encodeWord, BitVec.toNat_ofNat]
  omega

theorem opField_encodeWord {op a b : Nat} (ho : op < 256) (ha : a < 65536) (hb : b < 65536) :
    opField (encodeWord op a b) = op := by
  simp only [opField, slice, encodeWord_toNat ho ha hb]
  omega

theorem fieldA_encodeWord {op a b : Nat} (ho : op < 256) (ha : a < 65536) (hb : b < 65536) :
    fieldA (encodeWord op a b) = BitVec.ofNat 16 a := by
  simp only [fieldA, slice, encodeWord_toNat ho ha hb]
  congr 1
  omega

theorem fieldB_encodeWord {op a b : Nat} (ho : op < 256) (ha : a < 65536) (hb : b < 65536) :
    fieldB (encodeWord op a b) = BitVec.ofNat 16 b := by
  simp only [fieldB, slice, encodeWord_toNat ho ha hb]
  congr 1
  omega

/-- A 16-bit operand put in as a number comes back as it was. -/
theorem ofNat_toNat_word (w : Word) : BitVec.ofNat 16 w.toNat = w := by
  apply BitVec.eq_of_toNat_eq
  have := w.isLt
  simp

theorem encodeS_lt (s : Slot) (p : Nat) : encodeS s p < 65536 := by
  have := s.isLt
  simp only [encodeS]; omega

theorem encodeG_lt (np nr : Nat) : encodeG np nr < 65536 := by
  simp only [encodeG]; omega

theorem slotField_encodeWord {op b : Nat} (s : Slot) (p : Nat) (ho : op < 256) (hb : b < 65536) :
    slotField (encodeWord op (encodeS s p) b) = s := by
  have hs := s.isLt
  apply Fin.ext
  rw [slotField, fieldA_encodeWord ho (encodeS_lt s p) hb]
  simp only [slice, BitVec.toNat_ofNat, encodeS, Fin.val_ofNat]
  omega

theorem packetField_encodeWord {op b : Nat} (s : Slot) {p : Nat} (hp : p < 128) (ho : op < 256) (hb : b < 65536) :
    packetField (encodeWord op (encodeS s p) b) = p := by
  have hs := s.isLt
  rw [packetField, fieldA_encodeWord ho (encodeS_lt s p) hb]
  simp only [slice, BitVec.toNat_ofNat, encodeS]
  omega

theorem tlmField_encodeWord {op a : Nat} (tlm : Bool) (ho : op < 256) (ha : a < 65536) :
    tlmField (encodeWord op a tlm.toNat) = tlm := by
  have hb : tlm.toNat < 65536 := by have := Bool.toNat_lt tlm; omega
  simp only [tlmField, fieldB_encodeWord ho ha hb, slice]
  cases tlm <;> rfl

theorem npField_encodeWord {op a np : Nat} (nr : Nat) (hnp : np < 32) (ho : op < 256) (ha : a < 65536) :
    npField (encodeWord op a (encodeG np nr)) = np := by
  rw [npField, fieldB_encodeWord ho ha (encodeG_lt np nr)]
  simp only [slice, BitVec.toNat_ofNat, encodeG]
  omega

theorem nrField_encodeWord {op a nr : Nat} (np : Nat) (hnr : nr < 32) (ho : op < 256) (ha : a < 65536) :
    nrField (encodeWord op a (encodeG np nr)) = nr := by
  rw [nrField, fieldB_encodeWord ho ha (encodeG_lt np nr)]
  simp only [slice, BitVec.toNat_ofNat, encodeG]
  omega

/-! ## Which words decode -/

theorem packetField_lt (cw : CmdWord) : packetField cw < 128 := by
  simp only [packetField, slice]; omega

theorem npField_lt (cw : CmdWord) : npField cw < 32 := by
  simp only [npField, slice]; omega

theorem nrField_lt (cw : CmdWord) : nrField cw < 32 := by
  simp only [nrField, slice]; omega

theorem decodeOn_eq_ok {p : Port} {cw : CmdWord} {i : Instr} :
    decodeOn p cw = .ok i ↔ decode cw = .ok i ∧ i.port = p := by
  unfold decodeOn
  cases h : decode cw with
  | error e => simp
  | ok j =>
    by_cases hp : j.port = p
    · simp only [hp, if_true]
      constructor
      · rintro ⟨⟩; exact ⟨rfl, hp⟩
      · rintro ⟨⟨⟩, _⟩; rfl
    · simp only [hp, if_false]
      constructor
      · rintro ⟨⟩
      · rintro ⟨⟨⟩, h'⟩; exact absurd h' hp

end Sys2Proof
end

