-- ==== Sys2Proof/Laws/Step.lean ====
section
/-! SUPPORT. What one step is, case by case, and which engine a turn or an operation can change. -/

namespace Sys2Proof.Machine

open Sys2Proof

/-! ## The cases of a step -/

theorem step_serve {s : State} {p : Port} {rest : List Move} (hc : s.cfg.Valid) (ha : s.agenda = .serve p :: rest) :
    step s = serve p { s with agenda := rest } := by
  rw [step, if_pos hc, ha]

theorem step_host {s : State} {m : HostMove} {rest : List Move} (hc : s.cfg.Valid) (ha : s.agenda = .host m :: rest) :
    step s = .next (hostMove m { s with agenda := rest }) := by
  rw [step, if_pos hc, ha]

theorem step_empty {s : State} (hc : s.cfg.Valid) (ha : s.agenda = []) : step s = serve s.nextPort s := by
  rw [step, if_pos hc, ha]

theorem step_invalid {s : State} (hc : ¬ s.cfg.Valid) : step s = .refused .invalidConfig := by
  rw [step, if_neg hc]

theorem serve_held {s : State} {p : Port} (hr : s.rst = true) : serve p s = .next s := by
  rw [serve, if_pos hr]

theorem serve_busy {s : State} {p : Port} (hr : s.rst = false) (hb : s.busy p = true) :
    serve p s = .next (s.resume p) := by
  simp [serve, hr, hb]

theorem serve_quiet {s : State} {p : Port} (hb : s.busy p = false) (hv : (s.port p).valid = false) :
    serve p s = .next s := by
  simp [serve, hb, hv]

theorem serve_ok {s : State} {p : Port} {i : Instr} (hr : s.rst = false) (hb : s.busy p = false) (hv : (s.port p).valid = true)
    (hd : decodeOn p (s.port p).word = .ok i) : serve p s = exec i (s.takeCommand p) := by
  simp [serve, hr, hb, hv, hd]

theorem serve_error {s : State} {p : Port} {e : DecodeError} (hr : s.rst = false) (hb : s.busy p = false) (hv : (s.port p).valid = true)
    (hd : decodeOn p (s.port p).word = .error e) : serve p s = .next (raiseIllegalOp p (s.takeCommand p)) := by
  simp [serve, hr, hb, hv, hd]

/-! ## Which engine an operation changes -/

theorem exec_video {i : Instr} (h : i.port = .video) : ∃ f : Cfg → Video → Video, ∀ s, exec i s = onVideo s f := by
  cases i with
  | cfgSession tlm => exact ⟨cfgSession tlm, fun _ => rfl⟩
  | rdPkt slot p => exact ⟨rdPkt slot p, fun _ => rfl⟩
  | rdSeg slot p => exact ⟨rdSeg slot p, fun _ => rfl⟩
  | sync => exact ⟨syncOp, fun _ => rfl⟩
  | xfer => exact ⟨xferOp, fun _ => rfl⟩
  | setMaxResets value => exact ⟨setMaxResets value, fun _ => rfl⟩
  | tlmDec slot p => exact ⟨tlmDec slot p, fun _ => rfl⟩
  | regWr _ _ => cases h
  | regRd _ => cases h
  | cciCmd _ _ _ => cases h
  | runFfc => cases h
  | getUptime => cases h
  | getTlmEn => cases h
  | setTlmEn _ => cases h
  | getTlmLoc => cases h
  | setTlmLoc _ => cases h
  | getAgcEn => cases h
  | setAgcEn _ => cases h

theorem exec_control {i : Instr} (h : i.port = .control) :
    ∃ f : Cfg → Control → Control, ∀ s, exec i s = onControl s f := by
  cases i with
  | regWr addr value => exact ⟨regWr addr value, fun _ => rfl⟩
  | regRd addr => exact ⟨regRd addr, fun _ => rfl⟩
  | cciCmd opc np nr => exact ⟨cciCmd opc np nr, fun _ => rfl⟩
  | runFfc => exact ⟨fun c k => getCommand .runFfc c.opcRunFfc 0 c k, fun _ => rfl⟩
  | getUptime => exact ⟨fun c k => getCommand .getUptime c.opcGetUptime c.uptimeWords c k, fun _ => rfl⟩
  | getTlmEn => exact ⟨fun c k => getCommand .getTlmEn c.opcGetTlmEn c.enumWords c k, fun _ => rfl⟩
  | setTlmEn value => exact ⟨fun c k => setCommand .setTlmEn c.opcSetTlmEn value c k, fun _ => rfl⟩
  | getTlmLoc => exact ⟨fun c k => getCommand .getTlmLoc c.opcGetTlmLoc c.enumWords c k, fun _ => rfl⟩
  | setTlmLoc value => exact ⟨fun c k => setCommand .setTlmLoc c.opcSetTlmLoc value c k, fun _ => rfl⟩
  | getAgcEn => exact ⟨fun c k => getCommand .getAgcEn c.opcGetAgcEn c.enumWords c k, fun _ => rfl⟩
  | setAgcEn value => exact ⟨fun c k => setCommand .setAgcEn c.opcSetAgcEn value c k, fun _ => rfl⟩
  | cfgSession _ => cases h
  | rdPkt _ _ => cases h
  | rdSeg _ _ => cases h
  | sync => cases h
  | xfer => cases h
  | setMaxResets _ => cases h
  | tlmDec _ _ => cases h

theorem onVideo_idle {s : State} (f : Cfg → Video → Video) (hb : s.video.vBusy = false) :
    onVideo s f = .next { s with video := f s.cfg s.video } := by
  simp [onVideo, hb]

theorem onVideo_busy {s : State} (f : Cfg → Video → Video) (hb : s.video.vBusy = true) : onVideo s f = .next s := by
  simp [onVideo, hb]

theorem onControl_idle {s : State} (f : Cfg → Control → Control) (hb : s.ctl.cBusy = false) :
    onControl s f = .next { s with ctl := f s.cfg s.ctl } := by
  simp [onControl, hb]

theorem onControl_busy {s : State} (f : Cfg → Control → Control) (hb : s.ctl.cBusy = true) : onControl s f = .next s := by
  simp [onControl, hb]

/-- A turn of the video engine is a function of the configuration, the reset input and the video side (R335). -/
theorem serve_video_form (c : Cfg) (r : Bool) (v : Video) :
    ∃ v', ∀ s : State, s.cfg = c → s.rst = r → s.video = v → serve .video s = .next { s with video := v' } := by
  cases r with
  | true => exact ⟨v, fun s _ hr hv => by subst hv; exact serve_held hr⟩
  | false =>
  cases hb : v.vBusy with
  | true => exact ⟨v.resume c, fun s hc hr hv => by subst hc hv; exact serve_busy (p := .video) hr hb⟩
  | false =>
    cases hva : v.cmd.valid with
    | false => exact ⟨v, fun s hc hr hv => by subst hc hv; exact serve_quiet (p := .video) hb hva⟩
    | true =>
      cases hd : decodeOn .video v.cmd.word with
      | error e =>
        exact ⟨Video.complete .illegalOp { v with cmd := { v.cmd with valid := false } }, fun s hc hr hv => by
          subst hc hv; exact serve_error (p := .video) hr hb hva hd⟩
      | ok i =>
        obtain ⟨f, hf⟩ := exec_video (decodeOn_eq_ok.1 hd).2
        refine ⟨f c { v with cmd := { v.cmd with valid := false } }, fun s hc hr hv => ?_⟩
        subst hc hv
        rw [serve_ok (p := .video) hr hb hva hd, hf, onVideo_idle (s := s.takeCommand .video) _ hb]
        rfl

/-- A turn of the control engine is a function of the configuration, the reset input and the control side (R335). -/
theorem serve_control_form (c : Cfg) (r : Bool) (k : Control) :
    ∃ k', ∀ s : State, s.cfg = c → s.rst = r → s.ctl = k → serve .control s = .next { s with ctl := k' } := by
  cases r with
  | true => exact ⟨k, fun s _ hr hk => by subst hk; exact serve_held hr⟩
  | false =>
  cases hb : k.cBusy with
  | true => exact ⟨k.resume c, fun s hc hr hk => by subst hc hk; exact serve_busy (p := .control) hr hb⟩
  | false =>
    cases hva : k.cmd.valid with
    | false => exact ⟨k, fun s hc hr hk => by subst hc hk; exact serve_quiet (p := .control) hb hva⟩
    | true =>
      cases hd : decodeOn .control k.cmd.word with
      | error e =>
        exact ⟨Control.complete .illegalOp { k with cmd := { k.cmd with valid := false } }, fun s hc hr hk => by
          subst hc hk; exact serve_error (p := .control) hr hb hva hd⟩
      | ok i =>
        obtain ⟨f, hf⟩ := exec_control (decodeOn_eq_ok.1 hd).2
        refine ⟨f c { k with cmd := { k.cmd with valid := false } }, fun s hc hr hk => ?_⟩
        subst hc hk
        rw [serve_ok (p := .control) hr hb hva hd, hf, onControl_idle (s := s.takeCommand .control) _ hb]
        rfl

end Sys2Proof.Machine
end

