-- ==== Sys2Proof/Laws/Memory.lean ====
section
/-! SUPPORT. The laws of the frame buffer: canonical form, read after write, the address formula, and the bytes a packet
and a bulk read store. -/

namespace Sys2Proof.Machine

open Sys2Proof




/-! ## Canonical form -/

theorem mem_run {e : Host.Cell} {bs : List Byte} : ∀ {x : Nat}, e ∈ Memory.run x bs → x ≤ e.1 ∧ e.1 < x + bs.length := by
  induction bs with
  | nil => intro x h; cases h
  | cons b bs ih =>
    intro x h
    rcases List.mem_cons.1 h with rfl | h
    · simp
    · have := ih h; simp; omega

theorem run_wf (bs : List Byte) : ∀ x : Nat, (Memory.run x bs).wf := by
  induction bs with
  | nil => intro x; exact List.Pairwise.nil
  | cons b bs ih => intro x; exact List.Pairwise.cons (fun e h => by have := mem_run h; simp; omega) (ih _)

theorem mem_write {m : Memory} {x : Nat} {bs : List Byte} {e : Host.Cell} :
    e ∈ m.write x bs ↔
      (e ∈ m ∧ e.1 < x) ∨ e ∈ Memory.run x bs ∨ (e ∈ m ∧ x + bs.length ≤ e.1) := by
  simp [Memory.write, List.mem_filter]

/-- A write keeps the canonical form. -/
theorem write_wf {m : Memory} (x : Nat) (bs : List Byte) (h : m.wf) : (m.write x bs).wf := by
  have hp : ∀ p : Host.Cell → Bool, (m.filter p).Pairwise (fun a b => a.1 < b.1) := fun p => List.Pairwise.filter p h
  simp only [Memory.wf, Memory.write]
  rw [List.pairwise_append, List.pairwise_append]
  refine ⟨⟨hp _, run_wf bs x, ?_⟩, hp _, ?_⟩
  · intro a ha b hb
    have := mem_run hb
    simp at ha; omega
  · intro a ha b hb
    rcases List.mem_append.1 ha with ha | ha
    · simp at ha hb; omega
    · have := mem_run ha
      simp at hb; omega

/-- A write stays in range when its bytes do. -/
theorem write_inRange {m : Memory} {x limit : Nat} {bs : List Byte} (h : ∀ e ∈ m, e.1 < limit)
    (hx : x + bs.length ≤ limit) : ∀ e ∈ m.write x bs, e.1 < limit := by
  intro e he
  rcases mem_write.1 he with he | he | he
  · exact h e he.1
  · have := mem_run he; omega
  · exact h e he.1

/-! ## Read after write -/

theorem read_run (bs : List Byte) : ∀ x y : Nat,
    (Memory.run x bs).lookup y = if x ≤ y then bs[y - x]? else none := by
  induction bs with
  | nil => intro x y; simp [Memory.run]
  | cons b bs ih =>
    intro x y
    by_cases h : y = x
    · subst h; simp [Memory.run]
    · have hb : (y == x) = false := by simpa using h
      simp only [Memory.run, List.lookup_cons, hb, ih]
      by_cases hx : x ≤ y
      · have : y - x = (y - (x + 1)) + 1 := by omega
        rw [if_pos hx, if_pos (by omega), this]; simp
      · rw [if_neg hx, if_neg (by omega)]

theorem lookup_filter_of (m : Memory) (p : Host.Cell → Bool) (y : Nat) (hp : ∀ e : Host.Cell, e.1 = y → p e = true) :
    (m.filter p).lookup y = m.lookup y := by
  induction m with
  | nil => rfl
  | cons e m ih =>
    obtain ⟨a, b⟩ := e
    by_cases h : y = a
    · subst h; simp [hp (y, b) rfl]
    · have hb : (y == a) = false := by simpa using h
      by_cases hq : p (a, b) <;> simp [hq, List.lookup_cons, hb, ih]

theorem lookup_filter_none (m : Memory) (p : Host.Cell → Bool) (y : Nat) (hp : ∀ e : Host.Cell, e.1 = y → p e = false) :
    (m.filter p).lookup y = none := by
  induction m with
  | nil => rfl
  | cons e m ih =>
    obtain ⟨a, b⟩ := e
    by_cases h : y = a
    · subst h; simp [hp (y, b) rfl, ih]
    · have hb : (y == a) = false := by simpa using h
      by_cases hq : p (a, b) <;> simp [hq, List.lookup_cons, hb, ih]

/-- A read after a write: the written byte inside the run, the old one outside. -/
theorem read_write (m : Memory) (x : Nat) (bs : List Byte) (y : Nat) :
    (m.write x bs).read y = if x ≤ y ∧ y < x + bs.length then bs[y - x]? else m.read y := by
  simp only [Memory.read, Memory.write, List.lookup_append, read_run]
  by_cases h1 : y < x
  · rw [lookup_filter_of _ _ y (by intro e he; simp [he, h1]), if_neg (by omega), if_neg (by omega),
      lookup_filter_none _ _ y (by intro e he; simp [he]; omega)]
    simp
  · rw [lookup_filter_none _ _ y (by intro e he; simp [he]; omega), if_pos (by omega)]
    by_cases h2 : y < x + bs.length
    · rw [if_pos ⟨by omega, h2⟩, lookup_filter_none _ _ y (by intro e he; simp [he]; omega)]
      simp
    · rw [if_neg (by omega), lookup_filter_of _ _ y (by intro e he; simp [he]; omega),
        List.getElem?_eq_none (by omega)]
      simp

theorem read_write_outside (m : Memory) (x : Nat) (bs : List Byte) {y : Nat} (h : y < x ∨ x + bs.length ≤ y) :
    (m.write x bs).read y = m.read y := by
  rw [read_write, if_neg (by omega)]

theorem read_write_inside (m : Memory) (x : Nat) (bs : List Byte) {i : Nat} (h : i < bs.length) :
    (m.write x bs).read (x + i) = bs[i]? := by
  rw [read_write, if_pos (by omega)]; congr 1; omega

theorem read_write_first (m : Memory) (x : Nat) (bs : List Byte) (h : 0 < bs.length) :
    (m.write x bs).read x = bs[0]? := read_write_inside m x bs (i := 0) h

theorem filter_run_lt (bs : List Byte) (x y : Nat) (h : y ≤ x) :
    (Memory.run x bs).filter (fun e => decide (e.1 < y)) = [] := by
  rw [List.filter_eq_nil_iff]
  intro e he
  have := mem_run he
  simp; omega

theorem filter_run_ge (bs : List Byte) (x y : Nat) (h : x + bs.length ≤ y) :
    (Memory.run x bs).filter (fun e => decide (y ≤ e.1)) = [] := by
  rw [List.filter_eq_nil_iff]
  intro e he
  have := mem_run he
  simp; omega

/-- A second write over the same bytes is the only one that counts. -/
theorem write_write (m : Memory) (x : Nat) (bs bs' : List Byte) (h : bs.length = bs'.length) :
    (m.write x bs).write x bs' = m.write x bs' := by
  simp only [Memory.write, List.filter_append, List.filter_filter, ← h, filter_run_lt bs x x (Nat.le_refl _),
    filter_run_ge bs x (x + bs.length) (Nat.le_refl _)]
  have e2 : (fun e : Host.Cell => decide (e.1 < x) && decide (x + bs.length ≤ e.1)) = fun _ => false := by
    funext e; simp; omega
  have e3 : (fun e : Host.Cell => decide (x + bs.length ≤ e.1) && decide (e.1 < x)) = fun _ => false := by
    funext e; simp; omega
  simp [e2, e3]

/-! ## Byte order -/

@[simp] theorem beWord_hi_lo (v : Word) : beWord (hiByte v) (loByte v) = v := by
  apply BitVec.eq_of_getLsbD_eq
  intro i hi
  simp only [beWord, hiByte, loByte, BitVec.getLsbD_append, BitVec.getLsbD_extractLsb']
  by_cases h : i < 8
  · simp [h]
  · simp only [h, decide_false]
    have h8 : i - 8 < 8 := by omega
    simp [h8, show 8 + (i - 8) = i by omega]

@[simp] theorem hiByte_beWord (hi lo : Byte) : hiByte (beWord hi lo) = hi := by
  apply BitVec.eq_of_getLsbD_eq
  intro i h
  simp only [beWord, hiByte, BitVec.getLsbD_append, BitVec.getLsbD_extractLsb']
  simp [h]

@[simp] theorem loByte_beWord (hi lo : Byte) : loByte (beWord hi lo) = lo := by
  apply BitVec.eq_of_getLsbD_eq
  intro i h
  simp only [beWord, loByte, BitVec.getLsbD_append, BitVec.getLsbD_extractLsb']
  simp [h]

/-! ## Packet entries -/

theorem entryBytes_length (c : Cfg) {w : List Byte} (h : w.length = 164) : (entryBytes c w).length = 164 := by
  simp [entryBytes, h]

theorem bulkBytes_length (c : Cfg) : ∀ (k : Nat) (w : List Byte), w.length = 164 * k → (bulkBytes c k w).length = 164 * k
  | 0, _, _ => rfl
  | k + 1, w, h => by
    have h1 : (w.take 164).length = 164 := by simp; omega
    have h2 : (w.drop 164).length = 164 * k := by simp; omega
    simp only [bulkBytes, Cfg.packetBytes_eq, List.length_append, entryBytes_length c h1, bulkBytes_length c k _ h2]
    omega

/-- Byte `b` of packet `j` of a bulk read is byte `b` of that packet's entry. -/
theorem bulkBytes_get (c : Cfg) : ∀ (k : Nat) (w : List Byte) (j b : Nat), w.length = 164 * k → j < k → b < 164 →
    (bulkBytes c k w)[164 * j + b]? = (entryBytes c ((w.drop (164 * j)).take 164))[b]?
  | 0, _, _, _, _, hj, _ => by omega
  | k + 1, w, j, b, h, hj, hb => by
    have h1 : (w.take 164).length = 164 := by simp; omega
    have h2 : (w.drop 164).length = 164 * k := by simp; omega
    have he := entryBytes_length c h1
    simp only [bulkBytes, Cfg.packetBytes_eq]
    cases j with
    | zero => rw [List.getElem?_append_left (by omega)]; simp
    | succ j =>
      rw [List.getElem?_append_right (by omega), he, show 164 * (j + 1) + b - 164 = 164 * j + b by omega,
        bulkBytes_get c k _ j b h2 (by omega) hb, List.drop_drop, show 164 + 164 * j = 164 * (j + 1) by omega]

/-! ## The address formula (R71) -/

theorem fbAddr_eq (c : Cfg) (s p b : Nat) : fbAddr c s p b = fbAddr c s p 0 + b := by simp [fbAddr]

theorem fbAddr_bulk (c : Cfg) (s j b : Nat) : fbAddr c s (j + 1) b = fbAddr c s 1 0 + (164 * j + b) := by
  simp only [fbAddr, Cfg.packetBytes_eq]
  rw [show s * c.segCap + (j + 1) = (s * c.segCap + 1) + j by omega, Nat.add_mul]
  omega

/-- Different entries of the same slot do not overlap, nor do entries of different slots. -/
theorem fbAddr_lt_of {c : Cfg} {s s' p p' : Nat} (hp : p < c.segCap)
    (h : s < s' ∨ (s = s' ∧ p < p')) : fbAddr c s p 0 + 164 ≤ fbAddr c s' p' 0 := by
  simp only [fbAddr, Cfg.packetBytes_eq]
  have hk : s * c.segCap + p + 1 ≤ s' * c.segCap + p' := by
    rcases h with h | ⟨rfl, h⟩
    · have := Nat.mul_le_mul_right c.segCap (show s + 1 ≤ s' by omega)
      rw [Nat.add_mul] at this; omega
    · omega
  have := Nat.mul_le_mul_right 164 hk
  rw [Nat.add_mul] at this; omega

/-- An entry that exists lies in the frame buffer. -/
theorem fbAddr_inRange {c : Cfg} {s p : Nat} (hs : s < 4) (hp : p < c.segCap) : fbAddr c s p 0 + 164 ≤ c.fbSize := by
  simp only [fbAddr, Cfg.fbSize, Cfg.nSeg_eq, Cfg.packetBytes_eq]
  have h1 := Nat.mul_le_mul_right c.segCap (show s + 1 ≤ 4 by omega)
  rw [Nat.add_mul] at h1
  have h2 := Nat.mul_le_mul_right 164 (show s * c.segCap + p + 1 ≤ 4 * c.segCap by omega)
  rw [Nat.add_mul] at h2; omega

/-! ## What a stored packet reads as -/

theorem fbByte_of_read_eq {v v' : Video} {x : Nat} (h : v.fb.read x = v'.fb.read x) (he : v.epoch = v'.epoch) :
    v.fbByte x = v'.fbByte x := by
  simp [Video.fbByte, h, he]

theorem entryBytes_zero (c : Cfg) (w : List Byte) : (entryBytes c w)[0]? = some (loByte (wireId w)) := rfl
theorem entryBytes_one (c : Cfg) (w : List Byte) : (entryBytes c w)[1]? = some (hiByte (wireId w)) := rfl
theorem entryBytes_two (c : Cfg) (w : List Byte) : (entryBytes c w)[2]? = some (loByte (wireCrc w)) := rfl
theorem entryBytes_three (c : Cfg) (w : List Byte) : (entryBytes c w)[3]? = some (hiByte (wireCrc w)) := rfl

theorem entryBytes_payload (c : Cfg) (w : List Byte) {i : Nat} (hi : i < 160) :
    (entryBytes c w)[4 + i]? = w[4 + i]? := by
  rw [entryBytes, List.getElem?_append_right (by simp)]
  simp [List.getElem?_drop, hi]

@[simp] theorem entryPayload_eq (c : Cfg) (v : Video) (s : Slot) (p i : Nat) :
    v.entryPayload c s p i = v.fbByte (fbAddr c s p (4 + i)) := by
  simp [Video.entryPayload]

/-- The stored identifier of a packet is the decoded one, most significant byte first on the wire (R74, R151). -/
theorem entryId_decodePacket (c : Cfg) (s : Slot) (p : Nat) {w : List Byte} (v : Video) (h : w.length = 164) :
    (v.decodePacket c s p w).entryId c s p = wireId w := by
  have hl := entryBytes_length c h
  simp only [Video.entryId, Video.fbByte, Video.decodePacket_fb, fbAddr_eq c s p 1]
  rw [read_write_inside _ _ _ (by omega), read_write_first _ _ _ (by omega), entryBytes_zero, entryBytes_one]
  simp

end Sys2Proof.Machine
end

