-- ==== Sys2Proof/Laws/Video.lean ====
section
/-! SUPPORT. The video engine: the induction over the answers of a run, what each pass does case by case, and what no answer
changes. -/

namespace Sys2Proof.Machine

open Sys2Proof

/-! ## Runs over a list of answers -/

theorem Video.runOver_nil (c : Cfg) (v : Video) : Video.runOver c [] v = { v with sensor := [] } := rfl

theorem Video.runOver_idle (c : Cfg) (as : List VideoAnswer) (v : Video) (h : v.vBusy = false) :
    Video.runOver c as v = { v with sensor := as } := by
  cases as <;> simp [Video.runOver, h]

theorem Video.runOver_busy (c : Cfg) (a : VideoAnswer) (as : List VideoAnswer) (v : Video) (h : v.vBusy = true) :
    Video.runOver c (a :: as) v = Video.runOver c as (v.answer c a) := by
  simp [Video.runOver, h]

/-- What every answer of a run keeps, the run keeps. -/
theorem Video.runOver_induct {P : Video → Prop} {c : Cfg}
    (hanswer : ∀ v a, P v → v.vBusy = true → P (v.answer c a))
    (hsensor : ∀ v as, P v → P { v with sensor := as }) :
    ∀ as v, P v → P (Video.runOver c as v) := by
  intro as
  induction as with
  | nil => intro v h; exact hsensor v [] h
  | cons a as ih =>
    intro v h
    cases hb : v.vBusy with
    | true => rw [Video.runOver_busy c a as v hb]; exact ih _ (hanswer v a h hb)
    | false => rw [Video.runOver_idle c _ v hb]; exact hsensor v _ h

theorem Video.run_induct {P : Video → Prop} {c : Cfg}
    (hanswer : ∀ v a, P v → v.vBusy = true → P (v.answer c a))
    (hsensor : ∀ v as, P v → P { v with sensor := as }) {v : Video} (h : P v) : P (v.run c) :=
  Video.runOver_induct hanswer hsensor v.sensor v h

/-! ## What one pass does -/

theorem deliveredBytes_length (a : VideoAnswer) (n : Nat) : (deliveredBytes a n).length = min n a.bytes.length := by
  simp [deliveredBytes]

theorem deliveredBytes_full {a : VideoAnswer} {n : Nat} (h : n ≤ a.bytes.length) :
    (deliveredBytes a n).length = n := by
  rw [deliveredBytes_length]; omega

theorem deliveredBytes_not_short {a : VideoAnswer} {n : Nat} (h : ¬ (deliveredBytes a n).length < n) :
    (deliveredBytes a n).length = n := by
  rw [deliveredBytes_length] at *; omega

/-- A packet read that is short: an I/O fault, nothing stored (R152, R154). -/
theorem Video.packetPass_short (c : Cfg) (s : Slot) (p : Nat) {a : VideoAnswer} (v : Video)
    (h : a.bytes.length < 164) :
    v.packetPass c s p a = (v.observe (.read 164 a.bytes.length) a.cancel).raise .ioFault := by
  have hl : (deliveredBytes a 164).length = a.bytes.length := by rw [deliveredBytes_length]; omega
  simp [Video.packetPass, hl, h]

/-- A packet read that delivers a discard packet: it is stored and skipped (R152). -/
theorem Video.packetPass_discard (c : Cfg) (s : Slot) (p : Nat) {a : VideoAnswer} (v : Video)
    (h : 164 ≤ a.bytes.length) (hd : isDiscard c (wireId (a.bytes.take 164)) = true) :
    v.packetPass c s p a =
      ((v.observe (.read 164 164) a.cancel).decodePacket c s p (a.bytes.take 164)).skipDiscard c := by
  have hl : (a.bytes.take 164).length = 164 := by simp; omega
  simp [Video.packetPass, deliveredBytes, entryId_decodePacket c s p _ hl, hd, Nat.min_eq_left h]

/-- A packet read that delivers any other packet: it is stored and `ReadPacket` returns (R152). -/
theorem Video.packetPass_valid (c : Cfg) (s : Slot) (p : Nat) {a : VideoAnswer} (v : Video)
    (h : 164 ≤ a.bytes.length) (hd : isDiscard c (wireId (a.bytes.take 164)) = false) :
    v.packetPass c s p a =
      ((v.observe (.read 164 164) a.cancel).decodePacket c s p (a.bytes.take 164)).afterPacket c s := by
  have hl : (a.bytes.take 164).length = 164 := by simp; omega
  simp [Video.packetPass, deliveredBytes, entryId_decodePacket c s p _ hl, hd, Nat.min_eq_left h]

/-- A bulk read that is short: an I/O fault, nothing stored (R171, R175). -/
theorem Video.bulkPass_short (c : Cfg) (s : Slot) {a : VideoAnswer} (v : Video) (h : a.bytes.length < v.bulkLen c s) :
    v.bulkPass c s a = (v.observe (.read (v.bulkLen c s) a.bytes.length) a.cancel).raise .ioFault := by
  have hl : (deliveredBytes a (v.bulkLen c s)).length = a.bytes.length := by rw [deliveredBytes_length]; omega
  simp [Video.bulkPass, hl, h]

/-- A whole bulk read: every packet of it is stored and `ReadSegment` returns (R171). -/
theorem Video.bulkPass_full (c : Cfg) (s : Slot) {a : VideoAnswer} (v : Video) (h : v.bulkLen c s ≤ a.bytes.length) :
    v.bulkPass c s a =
      ((v.observe (.read (v.bulkLen c s) (v.bulkLen c s)) a.cancel).storeBulk c s
        (a.bytes.take (v.bulkLen c s))).afterSegment c s := by
  simp [Video.bulkPass, deliveredBytes, Nat.min_eq_left h]

/-- Every packet read has one of these three outcomes (R152). -/
theorem Video.packetPass_cases (c : Cfg) (s : Slot) (p : Nat) (a : VideoAnswer) (v : Video) :
    (a.bytes.length < 164 ∧
      v.packetPass c s p a = (v.observe (.read 164 a.bytes.length) a.cancel).raise .ioFault) ∨
    (164 ≤ a.bytes.length ∧ isDiscard c (wireId (a.bytes.take 164)) = true ∧
      v.packetPass c s p a =
        ((v.observe (.read 164 164) a.cancel).decodePacket c s p (a.bytes.take 164)).skipDiscard c) ∨
    (164 ≤ a.bytes.length ∧ isDiscard c (wireId (a.bytes.take 164)) = false ∧
      v.packetPass c s p a =
        ((v.observe (.read 164 164) a.cancel).decodePacket c s p (a.bytes.take 164)).afterPacket c s) := by
  by_cases h : a.bytes.length < 164
  · exact .inl ⟨h, v.packetPass_short c s p h⟩
  · cases hd : isDiscard c (wireId (a.bytes.take 164)) with
    | true => exact .inr (.inl ⟨by omega, rfl, v.packetPass_discard c s p (by omega) hd⟩)
    | false => exact .inr (.inr ⟨by omega, rfl, v.packetPass_valid c s p (by omega) hd⟩)

/-- Every bulk read has one of these two outcomes (R171). -/
theorem Video.bulkPass_cases (c : Cfg) (s : Slot) (a : VideoAnswer) (v : Video) :
    (a.bytes.length < v.bulkLen c s ∧
      v.bulkPass c s a = (v.observe (.read (v.bulkLen c s) a.bytes.length) a.cancel).raise .ioFault) ∨
    (v.bulkLen c s ≤ a.bytes.length ∧
      v.bulkPass c s a =
        ((v.observe (.read (v.bulkLen c s) (v.bulkLen c s)) a.cancel).storeBulk c s
          (a.bytes.take (v.bulkLen c s))).afterSegment c s) := by
  by_cases h : a.bytes.length < v.bulkLen c s
  · exact .inl ⟨h, v.bulkPass_short c s h⟩
  · exact .inr ⟨by omega, v.bulkPass_full c s (by omega)⟩

/-! ## Where control goes when `ReadPacket` and `ReadSegment` return -/

theorem Video.afterSegment_rdSeg (c : Cfg) (s : Slot) {v : Video} (h : v.vOp = some .rdSeg) :
    v.afterSegment c s = v.complete .ok := by simp [Video.afterSegment, h]

theorem Video.afterSegment_sync (c : Cfg) (s : Slot) {v : Video} (h : v.vOp = some .sync) :
    v.afterSegment c s = v.syncAfterSegment c s := by simp [Video.afterSegment, h]

theorem Video.afterSegment_xfer (c : Cfg) (s : Slot) {v : Video} (h : v.vOp = some .xfer) :
    v.afterSegment c s = v.xferAfterSegment c s := by simp [Video.afterSegment, h]

theorem Video.afterPacket_rdPkt (c : Cfg) (s : Slot) {v : Video} (h : v.vOp = some .rdPkt) :
    v.afterPacket c s = v.complete .ok := by simp [Video.afterPacket, h]

theorem Video.afterPacket_segment (c : Cfg) (s : Slot) {v : Video} (h : ReadsSegments v.vOp) :
    v.afterPacket c s = v.afterFirstPacket c s := by
  rcases h with h | h | h <;> simp [Video.afterPacket, h]

/-! ## What the lines between two waits never touch -/

/-- Two video states agree on what no answer of the outside world changes: the configuration register, the packet counts,
the telemetry file, the epoch, the free-answer counter, and the presented command word. -/
structure Video.SameFixed (v v' : Video) : Prop where
  maxResets : v'.maxResets = v.maxResets
  pktCount : v'.pktCount = v.pktCount
  tlm : v'.tlm = v.tlm
  epoch : v'.epoch = v.epoch
  tick : v'.tick = v.tick
  sensor : v'.sensor = v.sensor
  valid : v'.cmd.valid = v.cmd.valid
  word : v'.cmd.word = v.cmd.word

theorem Video.SameFixed.refl (v : Video) : Video.SameFixed v v := ⟨rfl, rfl, rfl, rfl, rfl, rfl, rfl, rfl⟩

theorem Video.SameFixed.trans {u v w : Video} (h : Video.SameFixed u v) (h' : Video.SameFixed v w) :
    Video.SameFixed u w :=
  ⟨h'.maxResets.trans h.maxResets, h'.pktCount.trans h.pktCount, h'.tlm.trans h.tlm, h'.epoch.trans h.epoch,
   h'.tick.trans h.tick, h'.sensor.trans h.sensor, h'.valid.trans h.valid, h'.word.trans h.word⟩

theorem Video.readSlot_cases (s : Slot) (v : Video) :
    v.readSlot s = v.raise .cancelled ∨
      v.readSlot s = ({ v with seg := s.val } : Video).startPacket s 0 := by
  unfold Video.readSlot; split <;> simp

theorem Video.sameFixed_readSlot (s : Slot) (v : Video) : Video.SameFixed v (v.readSlot s) := by
  rcases v.readSlot_cases s with h | h <;> rw [h] <;> exact ⟨rfl, rfl, rfl, rfl, rfl, rfl, rfl, rfl⟩

theorem Video.sameFixed_staleReread (c : Cfg) (s : Slot) (v : Video) : Video.SameFixed v (v.staleReread c s) := by
  unfold Video.staleReread
  simp only
  split
  · exact ⟨rfl, rfl, rfl, rfl, rfl, rfl, rfl, rfl⟩
  · have := Video.sameFixed_readSlot s { v with invalid := v.invalid + 1 }
    exact ⟨this.1, this.2, this.3, this.4, this.5, this.6, this.7, this.8⟩

theorem Video.sameFixed_seekFirst (v : Video) : Video.SameFixed v v.seekFirst := by
  have := Video.sameFixed_readSlot 0 { v with fsState := .seekingFirstSegment }
  exact ⟨this.1, this.2, this.3, this.4, this.5, this.6, this.7, this.8⟩

/-- Label `next` before the last slot is `reread` of the slot that `seg` names. -/
theorem Video.syncNext_slot (c : Cfg) {v : Video} {s : Slot} (h : v.seg = s.val) : v.syncNext c = v.readSlot s := by
  unfold Video.syncNext
  rw [dif_pos (by rw [Cfg.nSeg_eq, h]; exact s.isLt)]
  congr 1
  exact Fin.ext h

theorem Video.syncNext_end (c : Cfg) {v : Video} (h : v.seg = 4) : v.syncNext c = v.syncSuccess := by
  simp [Video.syncNext, h]

theorem Video.xferNext_slot (c : Cfg) {v : Video} {s : Slot} (h : v.seg = s.val) : v.xferNext c = v.readSlot s := by
  unfold Video.xferNext
  rw [dif_pos (by rw [Cfg.nSeg_eq, h]; exact s.isLt)]
  congr 1
  exact Fin.ext h

theorem Video.xferNext_end (c : Cfg) {v : Video} (h : v.seg = 4) : v.xferNext c = v.xferSuccess := by
  simp [Video.xferNext, h]

theorem Video.sameFixed_syncNext (c : Cfg) (v : Video) : Video.SameFixed v (v.syncNext c) := by
  unfold Video.syncNext; split
  · exact Video.sameFixed_readSlot _ v
  · exact ⟨rfl, rfl, rfl, rfl, rfl, rfl, rfl, rfl⟩

theorem Video.sameFixed_xferNext (c : Cfg) (v : Video) : Video.SameFixed v (v.xferNext c) := by
  unfold Video.xferNext; split
  · exact Video.sameFixed_readSlot _ v
  · exact ⟨rfl, rfl, rfl, rfl, rfl, rfl, rfl, rfl⟩

theorem Video.sameFixed_afterSegment (c : Cfg) (s : Slot) (v : Video) : Video.SameFixed v (v.afterSegment c s) := by
  unfold Video.afterSegment
  split
  case h_2 =>
    unfold Video.syncAfterSegment
    split
    · have := Video.sameFixed_syncNext c { v with seg := s.val + 1 }
      exact ⟨this.1, this.2, this.3, this.4, this.5, this.6, this.7, this.8⟩
    · exact ⟨rfl, rfl, rfl, rfl, rfl, rfl, rfl, rfl⟩
    · split
      · exact v.sameFixed_seekFirst
      · exact v.sameFixed_staleReread c s
    · exact v.sameFixed_seekFirst
  case h_3 =>
    unfold Video.xferAfterSegment
    split
    · have := Video.sameFixed_xferNext c { v with seg := s.val + 1 }
      exact ⟨this.1, this.2, this.3, this.4, this.5, this.6, this.7, this.8⟩
    · exact v.sameFixed_staleReread c s
    all_goals exact ⟨rfl, rfl, rfl, rfl, rfl, rfl, rfl, rfl⟩
  all_goals exact ⟨rfl, rfl, rfl, rfl, rfl, rfl, rfl, rfl⟩

theorem Video.sameFixed_afterFirstPacket (c : Cfg) (s : Slot) (v : Video) :
    Video.SameFixed v (v.afterFirstPacket c s) := by
  unfold Video.afterFirstPacket; split
  · exact ⟨rfl, rfl, rfl, rfl, rfl, rfl, rfl, rfl⟩
  · exact v.sameFixed_afterSegment c s

theorem Video.sameFixed_afterPacket (c : Cfg) (s : Slot) (v : Video) : Video.SameFixed v (v.afterPacket c s) := by
  unfold Video.afterPacket
  split
  case h_2 => exact v.sameFixed_afterFirstPacket c s
  case h_3 => exact v.sameFixed_afterFirstPacket c s
  case h_4 => exact v.sameFixed_afterFirstPacket c s
  all_goals exact ⟨rfl, rfl, rfl, rfl, rfl, rfl, rfl, rfl⟩

theorem Video.skipDiscard_cases (c : Cfg) (v : Video) :
    (tooManySkips c (v.skips + 1) = true ∧
      v.skipDiscard c = ({ v with skips := v.skips + 1 } : Video).raise .discardTimeout) ∨
    (tooManySkips c (v.skips + 1) = false ∧ v.cmd.cancel = true ∧
      v.skipDiscard c = ({ v with skips := v.skips + 1 } : Video).raise .cancelled) ∨
    (tooManySkips c (v.skips + 1) = false ∧ v.cmd.cancel = false ∧
      v.skipDiscard c = { v with skips := v.skips + 1 }) := by
  unfold Video.skipDiscard
  cases h : tooManySkips c (v.skips + 1) <;> cases h' : v.cmd.cancel <;> simp [h, h']

theorem Video.sameFixed_skipDiscard (c : Cfg) (v : Video) : Video.SameFixed v (v.skipDiscard c) := by
  rcases v.skipDiscard_cases c with ⟨_, h⟩ | ⟨_, _, h⟩ | ⟨_, _, h⟩ <;> rw [h] <;>
    exact ⟨rfl, rfl, rfl, rfl, rfl, rfl, rfl, rfl⟩

theorem Video.syncAfterBackoff_eq (v : Video) : v.syncAfterBackoff =
    if v.maxResets < v.resets + 1 then
      ({ v with resets := v.resets + 1, fsState := .unsynchronized } : Video).raise .syncFailure
    else Video.readSlot 0 { v with resets := v.resets + 1, fsState := .unsynchronized } := rfl

theorem Video.sameFixed_syncAfterBackoff (v : Video) : Video.SameFixed v v.syncAfterBackoff := by
  unfold Video.syncAfterBackoff
  simp only
  split
  · exact ⟨rfl, rfl, rfl, rfl, rfl, rfl, rfl, rfl⟩
  · have := Video.sameFixed_readSlot 0 { v with resets := v.resets + 1, fsState := .unsynchronized }
    exact ⟨this.1, this.2, this.3, this.4, this.5, this.6, this.7, this.8⟩

/-- No answer changes what `SameFixed` lists. -/
theorem Video.sameFixed_answer (c : Cfg) (a : VideoAnswer) (v : Video) : Video.SameFixed v (v.answer c a) := by
  unfold Video.answer
  split
  · exact Video.SameFixed.refl v
  · rename_i s p _
    rcases v.packetPass_cases c s p a with ⟨_, h⟩ | ⟨_, _, h⟩ | ⟨_, _, h⟩ <;> rw [h]
    · exact ⟨rfl, rfl, rfl, rfl, rfl, rfl, rfl, rfl⟩
    · refine Video.SameFixed.trans ?_ (Video.sameFixed_skipDiscard c _)
      exact ⟨rfl, rfl, rfl, rfl, rfl, rfl, rfl, rfl⟩
    · refine Video.SameFixed.trans ?_ (Video.sameFixed_afterPacket c s _)
      exact ⟨rfl, rfl, rfl, rfl, rfl, rfl, rfl, rfl⟩
  · rename_i s _
    rcases v.bulkPass_cases c s a with ⟨_, h⟩ | ⟨_, h⟩ <;> rw [h]
    · exact ⟨rfl, rfl, rfl, rfl, rfl, rfl, rfl, rfl⟩
    · refine Video.SameFixed.trans ?_ (Video.sameFixed_afterSegment c s _)
      exact ⟨rfl, rfl, rfl, rfl, rfl, rfl, rfl, rfl⟩
  · refine Video.SameFixed.trans ?_ (Video.sameFixed_syncAfterBackoff _)
    exact ⟨rfl, rfl, rfl, rfl, rfl, rfl, rfl, rfl⟩

/-- A run over answers leaves the presented command alone (R388 (d)). -/
theorem Video.runOver_port (c : Cfg) (as : List VideoAnswer) (v : Video) :
    (v.runOver c as).cmd.valid = v.cmd.valid ∧ (v.runOver c as).cmd.word = v.cmd.word :=
  Video.runOver_induct (P := fun w => w.cmd.valid = v.cmd.valid ∧ w.cmd.word = v.cmd.word)
    (fun w a h _ => ⟨(w.sameFixed_answer c a).valid.trans h.1, (w.sameFixed_answer c a).word.trans h.2⟩)
    (fun _ _ h => h) as v ⟨rfl, rfl⟩

/-- A later turn leaves the presented command alone (R388 (d)). -/
theorem Video.resume_port (c : Cfg) (v : Video) :
    (v.resume c).cmd.valid = v.cmd.valid ∧ (v.resume c).cmd.word = v.cmd.word := by
  unfold Video.resume
  split
  · exact ⟨(Video.sameFixed_answer c _ _).valid, (Video.sameFixed_answer c _ _).word⟩
  · exact Video.runOver_port c _ v

end Sys2Proof.Machine
end

