-- ==== Sys2Proof/Laws/Pause.lean ====
section
/-! SUPPORT. Where an operation pauses does not matter (log 9): no engine looks at the answers it has not reached, so a run
over two lists of answers is one run over the two in a row. -/

namespace Sys2Proof.Machine

open Sys2Proof

/-! ## The video engine -/

/-- With `as` as the answers still to come. -/
def Video.withSensor (as : List VideoAnswer) (v : Video) : Video := { v with sensor := as }

theorem Video.withSensor_ite {as : List VideoAnswer} {p q : Prop} [Decidable p] [Decidable q] {a b a' b' : Video}
    (hpq : p ↔ q) (ha : a' = a.withSensor as) (hb : b' = b.withSensor as) :
    (if p then a' else b') = (if q then a else b).withSensor as := by
  by_cases h : q
  · rw [if_pos h, if_pos (hpq.2 h), ha]
  · rw [if_neg h, if_neg (mt hpq.1 h), hb]

theorem Video.withSensor_readSlot (as : List VideoAnswer) (k : Slot) (v : Video) :
    (v.withSensor as).readSlot k = (v.readSlot k).withSensor as :=
  withSensor_ite .rfl rfl rfl

theorem Video.withSensor_staleReread (c : Cfg) (as : List VideoAnswer) (k : Slot) (v : Video) :
    (v.withSensor as).staleReread c k = (v.staleReread c k).withSensor as :=
  withSensor_ite .rfl rfl (Video.withSensor_readSlot as k { v with invalid := v.invalid + 1 })

theorem Video.withSensor_seekFirst (as : List VideoAnswer) (v : Video) :
    (v.withSensor as).seekFirst = v.seekFirst.withSensor as :=
  Video.withSensor_readSlot as 0 { v with fsState := .seekingFirstSegment }

theorem Video.withSensor_afterSegment (c : Cfg) (as : List VideoAnswer) (k : Slot) (v : Video) :
    (v.withSensor as).afterSegment c k = (v.afterSegment c k).withSensor as := by
  have hck : (v.withSensor as).checkAnchor c k = v.checkAnchor c k := rfl
  unfold Video.afterSegment
  rw [show (v.withSensor as).vOp = v.vOp from rfl]
  split
  · rfl
  · unfold Video.syncAfterSegment
    rw [hck]
    split
    · unfold Video.syncNext
      by_cases h : k.val + 1 < c.nSeg
      · simp only [h, dif_pos]; exact Video.withSensor_readSlot as _ { v with seg := k.val + 1 }
      · simp only [h, dif_neg, not_false_eq_true]; rfl
    · rfl
    · exact withSensor_ite .rfl (v.withSensor_seekFirst as) (Video.withSensor_staleReread c as k v)
    · exact v.withSensor_seekFirst as
  · unfold Video.xferAfterSegment
    rw [hck]
    split
    · unfold Video.xferNext
      by_cases h : k.val + 1 < c.nSeg
      · simp only [h, dif_pos]; exact Video.withSensor_readSlot as _ { v with seg := k.val + 1 }
      · simp only [h, dif_neg, not_false_eq_true]; rfl
    · exact Video.withSensor_staleReread c as k v
    · rfl
    · rfl
  all_goals rfl

theorem Video.withSensor_skipDiscard (c : Cfg) (as : List VideoAnswer) (v : Video) :
    (v.withSensor as).skipDiscard c = (v.skipDiscard c).withSensor as :=
  withSensor_ite .rfl rfl (withSensor_ite .rfl rfl rfl)

theorem Video.withSensor_afterPacket (c : Cfg) (as : List VideoAnswer) (k : Slot) (v : Video) :
    (v.withSensor as).afterPacket c k = (v.afterPacket c k).withSensor as := by
  have first : (v.withSensor as).afterFirstPacket c k = (v.afterFirstPacket c k).withSensor as :=
    withSensor_ite .rfl rfl (Video.withSensor_afterSegment c as k v)
  unfold Video.afterPacket
  rw [show (v.withSensor as).vOp = v.vOp from rfl]
  split
  · rfl
  · exact first
  · exact first
  · exact first
  all_goals rfl

/-- One answer of the outside world does not look at the answers after it. -/
theorem Video.withSensor_answer (c : Cfg) (as : List VideoAnswer) (a : VideoAnswer) (v : Video) :
    (v.withSensor as).answer c a = (v.answer c a).withSensor as := by
  unfold Video.answer
  rw [show (v.withSensor as).vAt = v.vAt from rfl]
  split
  · rfl
  · rename_i s p _
    let w := deliveredBytes a c.packetBytes
    let v' := (v.observe (.read c.packetBytes w.length) a.cancel).decodePacket c s p w
    exact withSensor_ite .rfl rfl (withSensor_ite .rfl (v'.withSensor_skipDiscard c as) (v'.withSensor_afterPacket c as s))
  · rename_i s _
    let w := deliveredBytes a (v.bulkLen c s)
    let v' := (v.observe (.read (v.bulkLen c s) w.length) a.cancel).storeBulk c s w
    exact withSensor_ite .rfl rfl (v'.withSensor_afterSegment c as s)
  · exact withSensor_ite .rfl rfl (Video.withSensor_readSlot as 0
      { v.observe (.backoff c.backoffMs) a.cancel with resets := v.resets + 1, fsState := .unsynchronized })

theorem Video.runOver_withSensor (c : Cfg) (as bs : List VideoAnswer) :
    ∀ v : Video, Video.runOver c bs (v.withSensor as) = Video.runOver c bs v := by
  induction bs with
  | nil => intro v; rfl
  | cons b bs ih =>
    intro v
    simp only [Video.runOver, Video.withSensor_answer, ih]
    rfl

/-- A run over two lists of answers in a row. -/
theorem Video.runOver_append (c : Cfg) (as bs : List VideoAnswer) : ∀ v : Video,
    Video.runOver c (as ++ bs) v =
      if (Video.runOver c as v).vBusy then Video.runOver c bs (Video.runOver c as v)
      else (Video.runOver c as v).withSensor ((Video.runOver c as v).sensor ++ bs) := by
  induction as with
  | nil =>
    intro v
    rw [List.nil_append, show Video.runOver c [] v = v.withSensor [] from rfl, Video.runOver_withSensor]
    split <;> rename_i hb
    · rfl
    · rw [Video.runOver_idle _ _ _ (by simpa [Video.withSensor] using hb)]; rfl
  | cons a as ih =>
    intro v
    by_cases hb : v.vBusy = true
    · rw [List.cons_append, Video.runOver_busy _ _ _ _ hb, Video.runOver_busy _ _ _ _ hb, ih]
    · have hb' : v.vBusy = false := by simpa using hb
      rw [List.cons_append, Video.runOver_idle _ _ _ hb', Video.runOver_idle _ _ _ hb']
      simp [hb', Video.withSensor]

/-- An operation that is still in progress has used up its answers. -/
theorem Video.runOver_sensor (c : Cfg) (as : List VideoAnswer) :
    ∀ v : Video, (Video.runOver c as v).vBusy = true → (Video.runOver c as v).sensor = [] := by
  induction as with
  | nil => intro v _; rfl
  | cons a as ih =>
    intro v
    simp only [Video.runOver]
    split <;> rename_i hb
    · exact ih _
    · exact fun h => absurd h hb

theorem Video.resume_answers (c : Cfg) {as : List VideoAnswer} (h : as ≠ []) (v : Video) :
    (v.withSensor as).resume c = Video.runOver c as v := by
  cases as with
  | nil => exact absurd rfl h
  | cons a as => exact Video.runOver_withSensor c (a :: as) (a :: as) v

/-- A turn over one answer. -/
theorem Video.resume_one (c : Cfg) (a : VideoAnswer) {v : Video} (hs : v.sensor = []) (hb : v.vBusy = true) :
    (v.withSensor [a]).resume c = v.answer c a := by
  rw [Video.resume_answers c (by simp), Video.runOver_busy _ _ _ _ hb]
  exact ((v.withSensor_answer c [] a).symm.trans (by rw [Video.withSensor, ← hs]))

/-- A turn without an answer at hand is a turn over one free answer. -/
theorem Video.resume_free (c : Cfg) {v : Video} (hs : v.sensor = []) (hb : v.vBusy = true) :
    v.resume c =
      (({ v with tick := v.tick + 1 } : Video).withSensor [Config.freeVideoAnswer v.tick]).resume c :=
  (show v.resume c = _ by rw [Video.resume, hs]).trans
    (Video.resume_one (v := { v with tick := v.tick + 1 }) c (Config.freeVideoAnswer v.tick) hs hb).symm

/-- A turn is a run over some answers, from the state it found but for the count of free answers. -/
theorem Video.resume_form (c : Cfg) {v : Video} (hb : v.vBusy = true) :
    ∃ (as : List VideoAnswer) (n : Nat), v.resume c = Video.runOver c as { v with tick := n } := by
  by_cases hs : v.sensor = []
  · refine ⟨[Config.freeVideoAnswer v.tick], v.tick + 1, ?_⟩
    rw [Video.resume_free c hs hb, Video.resume_answers c (by simp)]
  · exact ⟨v.sensor, v.tick, Video.resume_answers c hs v⟩

/-- A run with more answers to come: the run over those at hand, then the rest of it. -/
theorem Video.run_more (c : Cfg) {more : List VideoAnswer} (h : more ≠ []) (v : Video) :
    (v.withSensor (v.sensor ++ more)).run c =
      if (v.run c).vBusy then ((v.run c).withSensor ((v.run c).sensor ++ more)).resume c
      else (v.run c).withSensor ((v.run c).sensor ++ more) := by
  rw [show (v.withSensor (v.sensor ++ more)).run c = Video.runOver c (v.sensor ++ more) (v.withSensor (v.sensor ++ more))
    from rfl, Video.runOver_withSensor, Video.runOver_append, show Video.runOver c v.sensor v = v.run c from rfl]
  split <;> rename_i hb
  · rw [show (v.run c).sensor = [] from Video.runOver_sensor c _ v hb, List.nil_append, Video.resume_answers c h]
  · rfl

/-! ## The control engine -/

/-- With `as` as the answers still to come. -/
def Control.withSensor (as : List CciAnswer) (k : Control) : Control := { k with sensor := as }

theorem Control.withSensor_ite {as : List CciAnswer} {p q : Prop} [Decidable p] [Decidable q] {a b a' b' : Control}
    (hpq : p ↔ q) (ha : a' = a.withSensor as) (hb : b' = b.withSensor as) :
    (if p then a' else b') = (if q then a else b).withSensor as := by
  by_cases h : q
  · rw [if_pos h, if_pos (hpq.2 h), ha]
  · rw [if_neg h, if_neg (mt hpq.1 h), hb]

theorem Control.withSensor_finish (as : List CciAnswer) (k : Control) :
    (k.withSensor as).finish = k.finish.withSensor as := by
  unfold Control.finish
  rw [show (k.withSensor as).cOp = k.cOp from rfl]
  split <;> rfl

theorem Control.withSensor_resultLoop (as : List CciAnswer) (h : Handshake) (i : Nat) (k : Control) :
    (k.withSensor as).resultLoop h i = (k.resultLoop h i).withSensor as :=
  withSensor_ite .rfl rfl (k.withSensor_finish as)

/-- One answer of the sensor does not look at the answers after it. -/
theorem Control.withSensor_answer (c : Cfg) (as : List CciAnswer) (a : CciAnswer) (k : Control) :
    (k.withSensor as).answer c a = (k.answer c a).withSensor as := by
  unfold Control.answer
  rw [show (k.withSensor as).cAt = k.cAt from rfl]
  split
  · rfl
  · exact withSensor_ite .rfl rfl rfl
  · exact withSensor_ite .rfl rfl rfl
  · exact withSensor_ite .rfl rfl rfl
  · exact withSensor_ite .rfl rfl rfl
  · exact withSensor_ite .rfl rfl rfl
  · rename_i h polls _
    exact withSensor_ite .rfl (withSensor_ite .rfl (withSensor_ite .rfl rfl (withSensor_ite .rfl rfl rfl))
      ((k.didRead c c.regStatus a).withSensor_resultLoop as h 0)) rfl
  · rename_i h i _
    exact withSensor_ite .rfl
      (((k.didRead c (dataAddr c i) a).setParam i (answerValue a)).withSensor_resultLoop as h (i + 1)) rfl

theorem Control.runOver_withSensor (c : Cfg) (as bs : List CciAnswer) :
    ∀ k : Control, Control.runOver c bs (k.withSensor as) = Control.runOver c bs k := by
  induction bs with
  | nil => intro k; rfl
  | cons b bs ih =>
    intro k
    simp only [Control.runOver, Control.withSensor_answer, ih]
    rfl

/-- A run over two lists of answers in a row. -/
theorem Control.runOver_append (c : Cfg) (as bs : List CciAnswer) : ∀ k : Control,
    Control.runOver c (as ++ bs) k =
      if (Control.runOver c as k).cBusy then Control.runOver c bs (Control.runOver c as k)
      else (Control.runOver c as k).withSensor ((Control.runOver c as k).sensor ++ bs) := by
  induction as with
  | nil =>
    intro k
    rw [List.nil_append, show Control.runOver c [] k = k.withSensor [] from rfl, Control.runOver_withSensor]
    split <;> rename_i hb
    · rfl
    · rw [Control.runOver_idle _ _ _ (by simpa [Control.withSensor] using hb)]; rfl
  | cons a as ih =>
    intro k
    by_cases hb : k.cBusy = true
    · rw [List.cons_append, Control.runOver_busy _ _ _ _ hb, Control.runOver_busy _ _ _ _ hb, ih]
    · have hb' : k.cBusy = false := by simpa using hb
      rw [List.cons_append, Control.runOver_idle _ _ _ hb', Control.runOver_idle _ _ _ hb']
      simp [hb', Control.withSensor]

/-- An operation that is still in progress has used up its answers. -/
theorem Control.runOver_sensor (c : Cfg) (as : List CciAnswer) :
    ∀ k : Control, (Control.runOver c as k).cBusy = true → (Control.runOver c as k).sensor = [] := by
  induction as with
  | nil => intro k _; rfl
  | cons a as ih =>
    intro k
    simp only [Control.runOver]
    split <;> rename_i hb
    · exact ih _
    · exact fun h => absurd h hb

theorem Control.resume_answers (c : Cfg) {as : List CciAnswer} (h : as ≠ []) (k : Control) :
    (k.withSensor as).resume c = Control.runOver c as k := by
  cases as with
  | nil => exact absurd rfl h
  | cons a as => exact Control.runOver_withSensor c (a :: as) (a :: as) k

/-- A turn over one answer. -/
theorem Control.resume_one (c : Cfg) (a : CciAnswer) {k : Control} (hs : k.sensor = []) (hb : k.cBusy = true) :
    (k.withSensor [a]).resume c = k.answer c a := by
  rw [Control.resume_answers c (by simp), Control.runOver_busy _ _ _ _ hb]
  exact ((k.withSensor_answer c [] a).symm.trans (by rw [Control.withSensor, ← hs]))

/-- A turn without an answer at hand is a turn over one free answer. -/
theorem Control.resume_free (c : Cfg) {k : Control} (hs : k.sensor = []) (hb : k.cBusy = true) :
    k.resume c =
      (({ k with tick := k.tick + 1 } : Control).withSensor [Config.freeCciAnswer k.tick]).resume c :=
  (show k.resume c = _ by rw [Control.resume, hs]).trans
    (Control.resume_one (k := { k with tick := k.tick + 1 }) c (Config.freeCciAnswer k.tick) hs hb).symm

/-- A turn is a run over some answers, from the state it found but for the count of free answers. -/
theorem Control.resume_form (c : Cfg) {k : Control} (hb : k.cBusy = true) :
    ∃ (as : List CciAnswer) (n : Nat), k.resume c = Control.runOver c as { k with tick := n } := by
  by_cases hs : k.sensor = []
  · refine ⟨[Config.freeCciAnswer k.tick], k.tick + 1, ?_⟩
    rw [Control.resume_free c hs hb, Control.resume_answers c (by simp)]
  · exact ⟨k.sensor, k.tick, Control.resume_answers c hs k⟩

/-- A run with more answers to come: the run over those at hand, then the rest of it. -/
theorem Control.run_more (c : Cfg) {more : List CciAnswer} (h : more ≠ []) (k : Control) :
    (k.withSensor (k.sensor ++ more)).run c =
      if (k.run c).cBusy then ((k.run c).withSensor ((k.run c).sensor ++ more)).resume c
      else (k.run c).withSensor ((k.run c).sensor ++ more) := by
  rw [show (k.withSensor (k.sensor ++ more)).run c = Control.runOver c (k.sensor ++ more) (k.withSensor (k.sensor ++ more))
    from rfl, Control.runOver_withSensor, Control.runOver_append, show Control.runOver c k.sensor k = k.run c from rfl]
  split <;> rename_i hb
  · rw [show (k.run c).sensor = [] from Control.runOver_sensor c _ k hb, List.nil_append, Control.resume_answers c h]
  · rfl

end Sys2Proof.Machine
end

