-- ==== Sys2Proof/Laws/ControlFrame.lean ====
section
/-! SUPPORT. What a control operation keeps, from its acceptance to its end: one predicate that every answer of the sensor
preserves. -/

namespace Sys2Proof.Machine

open Sys2Proof

/-- The label belongs to a handshake of at most `nr` result words, or to the register primitive that is running. -/
def ControlAt.Within (op : ControlOp) (nr : Nat) : ControlAt → Prop
  | .idle => True
  | .regWrite _ _ => True
  | .regRead _ => op = .regRd
  | .param h _ => h.nr ≤ nr
  | .length h => h.nr ≤ nr
  | .command h => h.nr ≤ nr
  | .poll h _ => h.nr ≤ nr
  | .result h i => h.nr ≤ nr ∧ i < h.nr

/-- What the operation `op`, with at most `nr` words of `P` to write, has kept of the control side `k0`. -/
structure Control.Keeps (op : ControlOp) (nr : Nat) (k0 k : Control) : Prop where
  params : ∀ j, nr ≤ j → k.param j = k0.param j
  label : k.cAt.Within op nr
  isOp : k.cBusy = true → k.cOp = some op
  rdata : op.writesRdata = false → k.cRdata = k0.cRdata
  r32 : op ≠ .getUptime → k.cR32 = k0.cR32
  unfinished : k.cBusy = true ∨ k.cStatus ≠ .ok → k.cRdata = k0.cRdata ∧ k.cR32 = k0.cR32
  epoch : k.epoch = k0.epoch
  tick : k.tick = k0.tick
  valid : k.cmd.valid = k0.cmd.valid
  word : k.cmd.word = k0.cmd.word

theorem Control.param_setParam_ne (k : Control) {i j : Nat} (w : Word) (h : j ≠ i) :
    (k.setParam i w).param j = k.param j := by
  simp only [Control.param, Control.setParam, Vector.getElem?_setIfInBounds]
  simp [Ne.symm h]

variable {op : ControlOp} {nr : Nat} {k0 k : Control}

theorem Control.Keeps.raise {f : Status} (h : Control.Keeps op nr k0 k) (hb : k.cBusy = true) :
    Control.Keeps op nr k0 (k.raise f) :=
  ⟨h.params, trivial, by simp, h.rdata, h.r32, fun _ => h.unfinished (.inl hb), h.epoch, h.tick, h.valid, h.word⟩

theorem Control.Keeps.ok (h : Control.Keeps op nr k0 k) (hb : k.cBusy = true) :
    Control.Keeps op nr k0 (k.complete .ok) :=
  ⟨h.params, trivial, by simp, h.rdata, h.r32, fun _ => h.unfinished (.inl hb), h.epoch, h.tick, h.valid, h.word⟩

theorem Control.Keeps.okRdata (h : Control.Keeps op nr k0 k) (ho : op.writesRdata = true) (w : Word) :
    Control.Keeps op nr k0 (({ k with cRdata := w } : Control).complete .ok) :=
  ⟨h.params, trivial, by simp, by simp [ho], h.r32, by simp, h.epoch, h.tick, h.valid, h.word⟩

theorem Control.Keeps.okR32 (h : Control.Keeps op nr k0 k) (ho : op = .getUptime) (w : DWord) :
    Control.Keeps op nr k0 (({ k with cR32 := w } : Control).complete .ok) :=
  ⟨h.params, trivial, by simp, h.rdata, by simp [ho], by simp, h.epoch, h.tick, h.valid, h.word⟩

theorem Control.Keeps.setAt (h : Control.Keeps op nr k0 k) (l : ControlAt) (hl : l.Within op nr) :
    Control.Keeps op nr k0 { k with cAt := l } :=
  ⟨h.params, hl, h.isOp, h.rdata, h.r32, h.unfinished, h.epoch, h.tick, h.valid, h.word⟩

theorem Control.Keeps.observe (h : Control.Keeps op nr k0 k) (x : CciXact) (b : Bool) :
    Control.Keeps op nr k0 (k.observe x b) :=
  ⟨h.params, h.label, h.isOp, h.rdata, h.r32, h.unfinished, h.epoch, h.tick, h.valid, h.word⟩

theorem Control.Keeps.setParam (h : Control.Keeps op nr k0 k) {i : Nat} (hi : i < nr) (w : Word) :
    Control.Keeps op nr k0 (k.setParam i w) :=
  ⟨fun j hj => (k.param_setParam_ne w (by omega)).trans (h.params j hj), h.label, h.isOp, h.rdata, h.r32, h.unfinished,
    h.epoch, h.tick, h.valid, h.word⟩

theorem Control.Keeps.finish (h : Control.Keeps op nr k0 k) (hb : k.cBusy = true) : Control.Keeps op nr k0 k.finish := by
  unfold Control.finish
  rw [h.isOp hb]
  cases op
  case getUptime => exact h.okR32 rfl _
  case getTlmEn => exact h.okRdata rfl _
  case getTlmLoc => exact h.okRdata rfl _
  case getAgcEn => exact h.okRdata rfl _
  all_goals exact h.ok hb

theorem Control.Keeps.paramLoop (h : Control.Keeps op nr k0 k) {hs : Handshake} (hh : hs.nr ≤ nr) (i : Nat) :
    Control.Keeps op nr k0 (k.paramLoop hs i) := by
  unfold Control.paramLoop
  split <;> exact h.setAt _ hh

theorem Control.Keeps.resultLoop (h : Control.Keeps op nr k0 k) (hb : k.cBusy = true) {hs : Handshake}
    (hh : hs.nr ≤ nr) (i : Nat) : Control.Keeps op nr k0 (k.resultLoop hs i) := by
  unfold Control.resultLoop
  split
  · exact h.setAt _ ⟨hh, ‹_›⟩
  · exact h.finish hb

theorem Control.Keeps.afterPoll (c : Cfg) (h : Control.Keeps op nr k0 k) (hb : k.cBusy = true) {hs : Handshake}
    (hh : hs.nr ≤ nr) (polls : Nat) (w : Word) : Control.Keeps op nr k0 (k.afterPoll c hs polls w) := by
  unfold Control.afterPoll
  split
  · split
    · exact h.raise hb
    · split
      · exact h.raise hb
      · exact h.setAt _ hh
  · exact h.resultLoop hb hh 0

/-- One answer of the sensor. -/
theorem Control.Keeps.answer (c : Cfg) (a : CciAnswer) (h : Control.Keeps op nr k0 k) (hb : k.cBusy = true) :
    Control.Keeps op nr k0 (k.answer c a) := by
  have hl := h.label
  by_cases hi : k.cAt = .idle
  · rw [Control.answer, hi]; exact h
  cases ha : a.ack with
  | false =>
    obtain ⟨x, he⟩ := k.answer_nack c hi ha
    rw [he]; exact (h.observe x a.cancel).raise hb
  | true =>
    cases hat : k.cAt with
    | idle => exact absurd hat hi
    | regWrite addr value => rw [Control.answer_regWrite c hat ha]; exact (h.observe _ _).ok hb
    | regRead addr =>
      rw [hat] at hl
      rw [Control.answer_regRead c hat ha]
      exact (h.observe _ _).okRdata (by rw [show op = .regRd from hl]; rfl) _
    | param hs i => rw [hat] at hl; rw [Control.answer_param c hat ha]; exact (h.observe _ _).paramLoop hl _
    | length hs => rw [hat] at hl; rw [Control.answer_length c hat ha]; exact (h.observe _ _).setAt _ hl
    | command hs => rw [hat] at hl; rw [Control.answer_command c hat ha]; exact (h.observe _ _).setAt _ hl
    | poll hs polls => rw [hat] at hl; rw [Control.answer_poll c hat ha]; exact (h.observe _ _).afterPoll c hb hl _ _
    | result hs i =>
      rw [hat] at hl
      rw [Control.answer_result c hat ha]
      exact ((h.observe _ _).setParam (Nat.lt_of_lt_of_le hl.2 hl.1) _).resultLoop hb hl.1 _

theorem Control.Keeps.run (c : Cfg) (h : Control.Keeps op nr k0 k) : Control.Keeps op nr k0 (k.run c) :=
  Control.run_induct (P := Control.Keeps op nr k0) (fun _ a h hb => h.answer c a hb)
    (fun _ _ h => ⟨h.params, h.label, h.isOp, h.rdata, h.r32, h.unfinished, h.epoch, h.tick, h.valid, h.word⟩) h

/-- The label of an operation in progress, in a state of the invariant. -/
theorem Control.Inv.within {c : Cfg} {k : Control} {op : ControlOp} (h : k.Inv c) (ho : k.cOp = some op) :
    k.cAt.Within op k.cAt.resultWords := by
  have hl := h.atLegal
  unfold ControlAtLegal at hl
  cases hat : k.cAt with
  | regRead addr => rw [hat] at hl; exact Option.some.inj (ho.symm.trans hl)
  | result hs i => rw [hat] at hl; exact ⟨Nat.le_refl _, hl.2⟩
  | idle => trivial
  | regWrite _ _ => trivial
  | param hs _ => exact Nat.le_refl hs.nr
  | length hs => exact Nat.le_refl hs.nr
  | command hs => exact Nat.le_refl hs.nr
  | poll hs _ => exact Nat.le_refl hs.nr

/-- A later turn of an operation in progress, but for the count of free answers. -/
theorem Control.Keeps.resume (c : Cfg) (hb : k.cBusy = true) (ho : k.cOp = some op) (hl : k.cAt.Within op nr) :
    ∃ n, Control.Keeps op nr { k with tick := n } (k.resume c) := by
  obtain ⟨as, n, he⟩ := Control.resume_form c hb
  rw [he]
  exact ⟨n, Control.runOver_induct (P := Control.Keeps op nr { k with tick := n }) (fun _ a h hb => h.answer c a hb)
    (fun _ _ h => ⟨h.params, h.label, h.isOp, h.rdata, h.r32, h.unfinished, h.epoch, h.tick, h.valid, h.word⟩) as _
    ⟨fun _ _ => rfl, hl, fun _ => ho, fun _ => rfl, fun _ => rfl, fun _ => ⟨rfl, rfl⟩, rfl, rfl, rfl, rfl⟩⟩

/-- An accepted operation, at a label of its own. -/
theorem Control.Keeps.start (k : Control) (l : ControlAt) (hl : l.Within op nr) :
    Control.Keeps op nr k { k.accept op with cAt := l } :=
  ⟨fun _ _ => rfl, hl, fun _ => rfl, fun _ => rfl, fun _ => rfl, fun _ => ⟨rfl, rfl⟩, rfl, rfl, rfl, rfl⟩

/-- The body of a handshake, from a state that differs from the accepted one in `P` only. -/
theorem Control.Keeps.handshake (c : Cfg) {hs : Handshake} (hh : hs.nr ≤ nr)
    (h : ∀ l : ControlAt, l.Within op nr → Control.Keeps op nr k0 { k with cAt := l }) (hb : k.cBusy = true) :
    Control.Keeps op nr k0 (k.handshake c hs) := by
  unfold Control.handshake
  split
  · exact (h .idle trivial).raise hb
  · refine Control.Keeps.run c ?_
    unfold Control.paramLoop
    exact h _ (by split <;> exact hh)

theorem Control.Keeps.getCommand (c : Cfg) (opc : Word) (words : Nat) (k : Control) :
    Control.Keeps op words k (getCommand op opc words c k) :=
  .handshake c (Nat.le_refl _) (fun l hl => .start k l hl) rfl

theorem Control.Keeps.setCommand (c : Cfg) (opc value : Word) (k : Control) :
    Control.Keeps op 1 k (setCommand op opc value c k) :=
  .handshake c (Nat.zero_le _) (fun l hl => (Control.Keeps.start k l hl).setParam (i := 0) (by omega) value) rfl

end Sys2Proof.Machine
end

