-- ==== Sys2Proof/Laws/Handshake.lean ====
section
/-! SUPPORT. The control engine over a script: the writes of a handshake, its busy poll, its result reads, and the whole
handshake on the path that succeeds. -/

namespace Sys2Proof.Machine

open Sys2Proof

/-! ## The writes -/

/-- The parameter loop from word `i` on, every write acknowledged (R270). -/
theorem Control.runOver_params {c : Cfg} {h : Handshake} (as : List CciAnswer) :
    ∀ (acks : List CciAnswer) (i : Nat) (k : Control), k.cBusy = true → i + acks.length = h.np →
      (∀ a ∈ acks, a.ack = true) →
      ∃ k' : Control, Control.runOver c (acks ++ as) (k.paramLoop h i) = Control.runOver c as k' ∧
        k' = { k with
          cmd := { k.cmd with cancel := k'.cmd.cancel }
          cAt := .length h
          bus := k.bus ++ (List.range' i acks.length).map fun j => CciXact.ofWrite c (dataAddr c j) (k.param j) true }
  | [], i, k, _, hn, _ => by
    refine ⟨_, rfl, ?_⟩
    have : ¬ i < h.np := by simp at hn; omega
    simp [Control.paramLoop, this]
  | a :: acks, i, k, hb, hn, ha => by
    have hlt : i < h.np := by simp only [List.length_cons] at hn; omega
    have hat : (k.paramLoop h i).cAt = .param h i := by simp [hlt]
    obtain ⟨k', hrun, hk'⟩ := Control.runOver_params (c := c) (h := h) as acks (i + 1)
      (k.observe (CciXact.ofWrite c (dataAddr c i) (k.param i) true) a.cancel) hb
      (by simp only [List.length_cons] at hn; omega) (fun b hb' => ha b (List.mem_cons_of_mem _ hb'))
    refine ⟨k', ?_, ?_⟩
    · rw [List.cons_append, Control.runOver_busy c a _ _ (show (k.paramLoop h i).cBusy = true from hb),
        Control.answer_param c hat (ha a (List.mem_cons_self ..)), ← hrun]
      rfl
    · rw [hk']
      simp only [Control.observe_cmd, Control.observe_bus, List.length_cons, List.range'_succ, List.map_cons,
        List.append_assoc, List.cons_append, List.nil_append]
      rfl

/-- The writes of a handshake, all acknowledged, up to the first poll (R270, R271). -/
theorem Control.runOver_writes {c : Cfg} {h : Handshake} {x : HandshakeScript} {k : Control} (as : List CciAnswer)
    (hb : k.cBusy = true) (hx : x.WritesAcked h.np) :
    ∃ k' : Control, Control.runOver c (x.writeAnswers ++ as) (k.paramLoop h 0) = Control.runOver c as k' ∧
      k' = { k with
        cmd := { k.cmd with cancel := x.commandAck.cancel }
        cAt := .poll h 0
        bus := k.bus ++ handshakeWrites c h k } := by
  obtain ⟨k1, hrun, hk1⟩ := Control.runOver_params (c := c) (h := h) (x.lengthAck :: x.commandAck :: as) x.paramAcks 0 k hb
    (by simpa using hx.paramCount) hx.params
  have hb1 : k1.cBusy = true := by rw [hk1]; exact hb
  have hat1 : k1.cAt = .length h := by rw [hk1]
  refine ⟨_, ?_, rfl⟩
  simp only [HandshakeScript.writeAnswers, List.append_assoc, List.cons_append, List.nil_append]
  rw [hrun, Control.runOver_busy c _ _ _ hb1, Control.answer_length c hat1 hx.length]
  refine (Control.runOver_busy c x.commandAck as { k1.observe (CciXact.ofWrite c c.regLength (lengthWord h) true)
    x.lengthAck.cancel with cAt := .command h } hb1).trans ?_
  rw [Control.answer_command c rfl hx.command, hk1]
  simp [Control.observe, handshakeWrites, ← hx.paramCount, List.range_eq_range']

/-! ## The poll -/

/-- A run of busy status answers below the poll bound (R272, R273). -/
theorem Control.runOver_busyPolls {c : Cfg} {h : Handshake} (as : List CciAnswer) :
    ∀ (bs : List CciAnswer) (polls : Nat) (k : Control), k.cBusy = true → k.cAt = .poll h polls →
      (∀ a ∈ bs, BusyAnswer c a) → (∀ limit, c.cciPollLimit = some limit → polls + bs.length < limit) →
      ∃ k' : Control, Control.runOver c (bs ++ as) k = Control.runOver c as k' ∧
        k' = { k with
          cmd := { k.cmd with cancel := k'.cmd.cancel }
          cAt := .poll h (polls + bs.length)
          bus := k.bus ++ bs.map (CciXact.ofRead c c.regStatus) }
  | [], polls, k, _, hat, _, _ => ⟨k, rfl, by simp [← hat]⟩
  | a :: bs, polls, k, hb, hat, hbs, hl => by
    have ha := hbs a (List.mem_cons_self ..)
    have hlim : pollLimitReached c (polls + 1) = false := by
      unfold pollLimitReached
      cases hc : c.cciPollLimit with
      | none => rfl
      | some limit => have := hl limit hc; simp only [List.length_cons] at this; simp; omega
    have hans : k.answer c a =
        { k.observe (CciXact.ofRead c c.regStatus a) a.cancel with cAt := .poll h (polls + 1) } := by
      rw [Control.answer_poll c hat ha.ack]
      exact Control.afterPoll_again c h _ ha.busy hlim ha.noCancel
    obtain ⟨k', hrun, hk'⟩ := Control.runOver_busyPolls as bs (polls + 1)
      { k.observe (CciXact.ofRead c c.regStatus a) a.cancel with cAt := .poll h (polls + 1) } hb rfl
      (fun b hb' => hbs b (List.mem_cons_of_mem _ hb'))
      (fun limit hc => by have := hl limit hc; simp only [List.length_cons] at this; omega)
    refine ⟨k', ?_, ?_⟩
    · rw [List.cons_append, Control.runOver_busy c a _ k hb, hans, hrun]
    · rw [hk']
      simp [Control.observe, Nat.add_assoc, Nat.add_comm 1]

/-! ## The results -/

/-- `P` with result words stored from index `i` on (R270). -/
def Control.withResults : Nat → List CciAnswer → Control → Control
  | _, [], k => k
  | i, a :: rs, k => Control.withResults (i + 1) rs (k.setParam i (answerValue a))

theorem Control.withResults_eq : ∀ (rs : List CciAnswer) (i : Nat) (k : Control),
    Control.withResults i rs k = { k with params := (Control.withResults i rs k).params }
  | [], _, _ => rfl
  | a :: rs, i, k => by
    rw [Control.withResults, Control.withResults_eq rs (i + 1) (k.setParam i (answerValue a))]
    rfl

theorem Control.param_withResults : ∀ (rs : List CciAnswer) (i : Nat) (k : Control) (j : Nat), i + rs.length ≤ 16 →
    (Control.withResults i rs k).param j =
      if j < i then k.param j else (rs[j - i]?).elim (k.param j) answerValue
  | [], i, k, j, _ => by simp [Control.withResults]
  | a :: rs, i, k, j, h => by
    have h' : i + 1 + rs.length ≤ 16 := by simp only [List.length_cons] at h; omega
    rw [Control.withResults, Control.param_withResults rs (i + 1) _ j h', Control.param_setParam _ _ _ _ (by omega)]
    rcases Nat.lt_trichotomy j i with hlt | rfl | hgt
    · simp [hlt, show j < i + 1 by omega, show j ≠ i by omega]
    · simp
    · have hsub : j - i = (j - (i + 1)) + 1 := by omega
      rw [if_neg (by omega), if_neg (by omega), if_neg (by omega), hsub, List.getElem?_cons_succ]

/-- The result loop from word `i` on, every read acknowledged, to the end of the operation (R270). -/
theorem Control.runOver_results {c : Cfg} {h : Handshake} (as : List CciAnswer) :
    ∀ (rs : List CciAnswer) (i : Nat) (k : Control), k.cBusy = true → i + rs.length = h.nr →
      (∀ a ∈ rs, a.ack = true) →
      ∃ k' : Control, Control.runOver c (rs ++ as) (k.resultLoop h i) = { k'.finish with sensor := as } ∧
        k' = { k with
          cmd := { k.cmd with cancel := k'.cmd.cancel }
          params := (Control.withResults i rs k).params
          cAt := k'.cAt
          bus := k.bus ++ (rs.zipIdx i).map fun e => CciXact.ofRead c (dataAddr c e.2) e.1 }
  | [], i, k, _, hn, _ => by
    have hlt : ¬ i < h.nr := by simp at hn; omega
    obtain ⟨r, d, hf⟩ := k.finish_cases
    refine ⟨k, ?_, by simp [Control.withResults]⟩
    rw [Control.resultLoop, if_neg hlt, List.nil_append, Control.runOver_idle c as _ (by rw [hf]; rfl)]
  | a :: rs, i, k, hb, hn, ha => by
    have hlt : i < h.nr := by simp only [List.length_cons] at hn; omega
    obtain ⟨k', hrun, hk'⟩ := Control.runOver_results (c := c) (h := h) as rs (i + 1)
      ((k.observe (CciXact.ofRead c (dataAddr c i) a) a.cancel).setParam i (answerValue a)) hb
      (by simp only [List.length_cons] at hn; omega) (fun b hb' => ha b (List.mem_cons_of_mem _ hb'))
    refine ⟨k', ?_, ?_⟩
    · rw [Control.resultLoop, if_pos hlt, List.cons_append]
      refine (Control.runOver_busy c a (rs ++ as) { k with cAt := .result h i } hb).trans ?_
      rw [Control.answer_result c rfl (ha a (List.mem_cons_self ..)), ← hrun]
      rfl
    · have hw : (Control.withResults (i + 1) rs
          ((k.observe (CciXact.ofRead c (dataAddr c i) a) a.cancel).setParam i (answerValue a))).params =
          (Control.withResults i (a :: rs) k).params := by
        rw [Control.withResults]
        have key : ∀ (rs : List CciAnswer) (i : Nat) (k k' : Control), k.params = k'.params →
            (Control.withResults i rs k).params = (Control.withResults i rs k').params := by
          intro rs
          induction rs with
          | nil => intro i k k' h; exact h
          | cons b rs ih => intro i k k' h; exact ih _ _ _ (by simp [h])
        exact key rs _ _ _ rfl
      rw [hk', hw]
      simp [Control.observe, Control.setParam]

/-! ## The whole handshake -/

/-- A handshake that succeeds: its writes, its polls, its result words, then the operation's last step (R270, R286). -/
theorem Control.handshake_succeeds {c : Cfg} {h : Handshake} {x : HandshakeScript} {k : Control} (as : List CciAnswer)
    (hb : k.cBusy = true) (hbad : badWordCounts c h.np h.nr = false) (h16 : c.nData ≤ 16)
    (hs : k.sensor = x.answers ++ as) (hx : x.Succeeds c h.np h.nr) :
    ∃ k' : Control, k.handshake c h = { k'.finish with sensor := as } ∧
      k' = { k with
        cmd := { k.cmd with cancel := k'.cmd.cancel }
        params := k'.params
        cAt := k'.cAt
        bus := k.bus ++ handshakeBus c h k x } ∧
      ∀ j, k'.param j = (x.results[j]?).elim (k.param j) answerValue := by
  have hnr : h.nr ≤ c.nData := by simp [badWordCounts] at hbad; exact hbad.2
  obtain ⟨k1, hrun1, hk1⟩ := Control.runOver_writes (c := c) (h := h) (x.busy ++ x.ready :: x.results ++ as) hb
    hx.toWritesAcked
  have hb1 : k1.cBusy = true := by rw [hk1]; exact hb
  obtain ⟨k2, hrun2, hk2⟩ := Control.runOver_busyPolls (x.ready :: x.results ++ as) x.busy 0 k1 hb1 (by rw [hk1])
    hx.busyAnswers (fun limit hl => by have := hx.belowLimit limit hl; omega)
  have hb2 : k2.cBusy = true := by rw [hk2]; exact hb1
  have hat2 : k2.cAt = .poll h (0 + x.busy.length) := by rw [hk2]
  obtain ⟨k3, hrun3, hk3⟩ := Control.runOver_results (c := c) (h := h) as x.results 0
    (k2.observe (CciXact.ofRead c c.regStatus x.ready) x.ready.cancel) hb2 (by simpa using hx.resultCount) hx.resultAcks
  refine ⟨k3, ?_, ?_, ?_⟩
  · rw [Control.handshake, if_neg (by simp [hbad]), Control.run]
    have hsens : (k.paramLoop h 0).sensor = x.writeAnswers ++ (x.busy ++ x.ready :: x.results ++ as) := by
      rw [Control.paramLoop_sensor, hs, HandshakeScript.answers]; simp
    rw [hsens, hrun1]
    simp only [List.append_assoc, List.cons_append] at *
    rw [hrun2, Control.runOver_busy c _ _ _ hb2, Control.answer_poll c hat2 hx.readyAck,
      Control.afterPoll_ready c h _ _ hx.readyValue, hrun3]
  · rw [hk3, hk2, hk1]
    simp [Control.observe, handshakeBus]
  · intro j
    have hp : k3.params = (Control.withResults 0 x.results
        (k2.observe (CciXact.ofRead c c.regStatus x.ready) x.ready.cancel)).params := by rw [hk3]
    have hp2 : (k2.observe (CciXact.ofRead c c.regStatus x.ready) x.ready.cancel).param j = k.param j := by
      have hpp : k2.params = k.params := by rw [hk2, hk1]
      simp only [Control.param, Control.observe_params, hpp]
    have hlen : x.results.length ≤ 16 := by rw [hx.resultCount]; omega
    have := Control.param_withResults x.results 0 (k2.observe (CciXact.ofRead c c.regStatus x.ready) x.ready.cancel) j
      (by omega)
    simp only [Nat.not_lt_zero, if_false, Nat.sub_zero, hp2] at this
    rw [← this]
    simp [Control.param, hp]

/-- The end of a handshake whose operation copies nothing from `P` (R286). -/
theorem Control.finish_plain {k : Control} {op : ControlOp} (h : k.cOp = some op) (h1 : op ≠ .getUptime)
    (h2 : op ≠ .getTlmEn) (h3 : op ≠ .getTlmLoc) (h4 : op ≠ .getAgcEn) : k.finish = k.complete .ok := by
  unfold Control.finish; rw [h]
  cases op <;> simp_all

/-- From what `handshake_succeeds` gives to `HandshakeDone`; `rd` and `d` are what the operation's last step copied. -/
theorem HandshakeDone.of {s : State} {h : Handshake} {k0 k k' r : Control} {x : HandshakeScript}
    {rest : List CciAnswer} (hbus : k.bus = s.ctl.bus) (h0 : k0.params = k.params) (rd : Word) (d : DWord)
    (hr : r = { Control.complete .ok { k' with cRdata := rd, cR32 := d } with sensor := rest })
    (hk' : k' = { k with
      cmd := { k.cmd with cancel := k'.cmd.cancel }
      params := k'.params
      cAt := k'.cAt
      bus := k.bus ++ handshakeBus s.cfg h k x })
    (hp : ∀ j, k'.param j = (x.results[j]?).elim (k.param j) answerValue) :
    HandshakeDone s h k0 x rest { s with ctl := r } := by
  subst hr
  have hpk : ∀ j, k0.param j = k.param j := fun j => by simp [Control.param, h0]
  refine ⟨rfl, rfl, rfl, rfl, ?_, ?_, ?_, rfl, rfl, rfl⟩
  · simp only [Control.complete]; rw [hk', hbus]; simp [handshakeBus, handshakeWrites, hpk]
  · intro j a hj; refine (show _ = k'.param j from rfl).trans ?_; rw [hp, hj]; rfl
  · intro j hj; refine (show _ = k'.param j from rfl).trans ?_; rw [hp, List.getElem?_eq_none hj, hpk]; rfl

/-- The writes of a handshake and a run of busy polls below the bound, up to the next status read (R270, R273). -/
theorem Control.handshake_polls {c : Cfg} {h : Handshake} {x : HandshakeScript} {k : Control} {busy : List CciAnswer}
    (as : List CciAnswer) (hb : k.cBusy = true) (hbad : badWordCounts c h.np h.nr = false)
    (hs : k.sensor = x.writeAnswers ++ (busy ++ as)) (hw : x.WritesAcked h.np) (hbs : ∀ b ∈ busy, BusyAnswer c b)
    (hl : ∀ limit, c.cciPollLimit = some limit → busy.length < limit) :
    ∃ k' : Control, k.handshake c h = Control.runOver c as k' ∧
      k' = { k with
        cmd := { k.cmd with cancel := k'.cmd.cancel }
        cAt := .poll h busy.length
        bus := k.bus ++ (handshakeWrites c h k ++ busy.map (CciXact.ofRead c c.regStatus)) } := by
  obtain ⟨k1, hrun1, hk1⟩ := Control.runOver_writes (c := c) (h := h) (busy ++ as) hb hw
  obtain ⟨k2, hrun2, hk2⟩ := Control.runOver_busyPolls (c := c) (h := h) as busy 0 k1 (by rw [hk1]; exact hb)
    (by rw [hk1]) hbs (by simpa using hl)
  refine ⟨k2, ?_, ?_⟩
  · rw [Control.handshake, if_neg (by simp [hbad]), Control.run, Control.paramLoop_sensor, hs, hrun1, hrun2]
  · rw [hk2, hk1]; simp

end Sys2Proof.Machine
end

