-- ==== Sys2Proof/Laws/Hold.lean ====
section
/-! SUPPORT. The result registers hold while an operation is in progress (R29, R31, R132): no answer that leaves it in
progress changes them, and so no turn does. -/

namespace Sys2Proof.Machine

open Sys2Proof

/-! ## The video engine -/

/-- From `v` to `v'` the result registers hold if `v'` is still busy. -/
def HeldWhileBusy (v v' : Video) : Prop := v'.vBusy = true → ResultsHeld v v'

theorem HeldWhileBusy.same {v v' : Video} (h1 : v'.vStatus = v.vStatus) (h2 : v'.vFrames = v.vFrames)
    (h3 : v'.vResets = v.vResets) : HeldWhileBusy v v' := fun _ => ⟨h1, h2, h3⟩

theorem HeldWhileBusy.idle {v v' : Video} (h : v'.vBusy = false) : HeldWhileBusy v v' := fun hb => by
  rw [h] at hb; cases hb

/-- A change that keeps the result registers, then one that holds them. -/
theorem HeldWhileBusy.from {v w v' : Video} (h : HeldWhileBusy w v') (h1 : w.vStatus = v.vStatus)
    (h2 : w.vFrames = v.vFrames) (h3 : w.vResets = v.vResets) : HeldWhileBusy v v' := fun hb =>
  ⟨(h hb).status.trans h1, (h hb).frames.trans h2, (h hb).resets.trans h3⟩

theorem Video.held_readSlot (s : Slot) (v : Video) : HeldWhileBusy v (v.readSlot s) := by
  rcases v.readSlot_cases s with h | h <;> rw [h]
  · exact .idle rfl
  · exact .same rfl rfl rfl

theorem Video.held_seekFirst (v : Video) : HeldWhileBusy v v.seekFirst :=
  (Video.held_readSlot 0 { v with fsState := .seekingFirstSegment }).from rfl rfl rfl

theorem Video.held_staleReread (c : Cfg) (s : Slot) (v : Video) : HeldWhileBusy v (v.staleReread c s) := by
  unfold Video.staleReread
  simp only
  split
  · exact .idle rfl
  · exact (Video.held_readSlot s { v with invalid := v.invalid + 1 }).from rfl rfl rfl

theorem Video.held_syncNext (c : Cfg) (v : Video) : HeldWhileBusy v (v.syncNext c) := by
  unfold Video.syncNext; split
  · exact Video.held_readSlot _ v
  · exact .idle rfl

theorem Video.held_xferNext (c : Cfg) (v : Video) : HeldWhileBusy v (v.xferNext c) := by
  unfold Video.xferNext; split
  · exact Video.held_readSlot _ v
  · exact .idle rfl

theorem Video.held_afterSegment (c : Cfg) (s : Slot) (v : Video) : HeldWhileBusy v (v.afterSegment c s) := by
  unfold Video.afterSegment
  split
  case h_2 =>
    unfold Video.syncAfterSegment
    split
    · exact (Video.held_syncNext c { v with seg := s.val + 1 }).from rfl rfl rfl
    · exact .same rfl rfl rfl
    · split
      · exact v.held_seekFirst
      · exact v.held_staleReread c s
    · exact v.held_seekFirst
  case h_3 =>
    unfold Video.xferAfterSegment
    split
    · exact (Video.held_xferNext c { v with seg := s.val + 1 }).from rfl rfl rfl
    · exact v.held_staleReread c s
    all_goals exact .idle rfl
  all_goals exact .idle rfl

theorem Video.held_afterPacket (c : Cfg) (s : Slot) (v : Video) : HeldWhileBusy v (v.afterPacket c s) := by
  have first : HeldWhileBusy v (v.afterFirstPacket c s) := by
    unfold Video.afterFirstPacket; split
    · exact .same rfl rfl rfl
    · exact v.held_afterSegment c s
  unfold Video.afterPacket
  split
  case h_2 => exact first
  case h_3 => exact first
  case h_4 => exact first
  all_goals exact .idle rfl

/-- One answer of the outside world. -/
theorem Video.held_answer (c : Cfg) (a : VideoAnswer) (v : Video) : HeldWhileBusy v (v.answer c a) := by
  unfold Video.answer
  split
  · exact .same rfl rfl rfl
  · rename_i s p _
    rcases v.packetPass_cases c s p a with ⟨_, h⟩ | ⟨_, _, h⟩ | ⟨_, _, h⟩ <;> rw [h]
    · exact .idle rfl
    · rcases Video.skipDiscard_cases c
          ((v.observe (.read 164 164) a.cancel).decodePacket c s p (a.bytes.take 164)) with
        ⟨_, h⟩ | ⟨_, _, h⟩ | ⟨_, _, h⟩ <;> rw [h]
      · exact .idle rfl
      · exact .idle rfl
      · exact .same rfl rfl rfl
    · exact (Video.held_afterPacket c s
        ((v.observe (.read 164 164) a.cancel).decodePacket c s p (a.bytes.take 164))).from rfl rfl rfl
  · rename_i s _
    rcases v.bulkPass_cases c s a with ⟨_, h⟩ | ⟨_, h⟩ <;> rw [h]
    · exact .idle rfl
    · exact (Video.held_afterSegment c s _).from rfl rfl rfl
  · rw [Video.backoffPass, Video.syncAfterBackoff_eq]
    split
    · exact .idle rfl
    · exact (Video.held_readSlot 0 { v.observe (.backoff c.backoffMs) a.cancel with
        resets := v.resets + 1, fsState := .unsynchronized }).from rfl rfl rfl

theorem Video.held_runOver (c : Cfg) (as : List VideoAnswer) {v0 v : Video} (h : HeldWhileBusy v0 v) :
    HeldWhileBusy v0 (v.runOver c as) :=
  Video.runOver_induct (P := HeldWhileBusy v0)
    (fun w a h hb => (w.held_answer c a).from (h hb).status (h hb).frames (h hb).resets)
    (fun _ _ h hb => ⟨(h hb).status, (h hb).frames, (h hb).resets⟩) as v h

/-- A later turn. -/
theorem Video.held_resume (c : Cfg) (v : Video) : HeldWhileBusy v (v.resume c) := by
  unfold Video.resume
  split
  · exact (Video.held_answer c _ _).from rfl rfl rfl
  · exact Video.held_runOver c _ (.same rfl rfl rfl)

/-- The turn that accepts an operation. -/
theorem exec_resultsHeld {i : Instr} {s t : State} (he : exec i s = .next t) : HeldWhileBusy s.video t.video := by
  cases hp : i.port with
  | control =>
    obtain ⟨f, hf⟩ := exec_control hp
    rw [hf, onControl] at he
    cases he
    split <;> exact .same rfl rfl rfl
  | video =>
    cases hb : s.video.vBusy with
    | true =>
      obtain ⟨f, hf⟩ := exec_video hp
      rw [hf, onVideo_busy _ hb] at he
      cases he
      exact .same rfl rfl rfl
    | false =>
      cases i with
      | cfgSession tlm =>
        rw [show exec (.cfgSession tlm) s = _ from onVideo_idle _ hb] at he; cases he; exact .idle rfl
      | rdPkt slot p =>
        rw [show exec (.rdPkt slot p) s = _ from onVideo_idle _ hb] at he; cases he
        simp only [rdPkt]
        split
        · exact .idle rfl
        · exact Video.held_runOver _ _ (.same rfl rfl rfl)
      | rdSeg slot p =>
        rw [show exec (.rdSeg slot p) s = _ from onVideo_idle _ hb] at he; cases he
        simp only [rdSeg]
        split
        · exact .idle rfl
        · exact Video.held_runOver _ _ (.same rfl rfl rfl)
      | sync =>
        rw [show exec .sync s = _ from onVideo_idle _ hb] at he; cases he
        exact Video.held_runOver _ _ ((Video.held_readSlot 0 _).from rfl rfl rfl)
      | xfer =>
        rw [show exec .xfer s = _ from onVideo_idle _ hb] at he; cases he
        simp only [xferOp]
        split
        · exact .idle rfl
        · exact Video.held_runOver _ _ ((Video.held_xferNext _ _).from rfl rfl rfl)
      | setMaxResets value =>
        rw [show exec (.setMaxResets value) s = _ from onVideo_idle _ hb] at he; cases he
        simp only [setMaxResets]
        split <;> exact .idle rfl
      | tlmDec slot p =>
        rw [show exec (.tlmDec slot p) s = _ from onVideo_idle _ hb] at he; cases he
        simp only [tlmDec]
        split <;> exact .idle rfl
      | regWr _ _ => cases hp
      | regRd _ => cases hp
      | cciCmd _ _ _ => cases hp
      | runFfc => cases hp
      | getUptime => cases hp
      | getTlmEn => cases hp
      | setTlmEn _ => cases hp
      | getTlmLoc => cases hp
      | setTlmLoc _ => cases hp
      | getAgcEn => cases hp
      | setAgcEn _ => cases hp

/-! ## The control engine -/

theorem Control.held_resultLoop (h : Handshake) (i : Nat) (k : Control) :
    (k.resultLoop h i).cBusy = true → (k.resultLoop h i).cStatus = k.cStatus := by
  obtain ⟨r, d, hf⟩ := k.finish_cases
  unfold Control.resultLoop
  split
  · exact fun _ => rfl
  · rw [hf]; exact fun hb => nomatch hb

/-- One answer of the sensor. -/
theorem Control.held_answer (c : Cfg) (a : CciAnswer) (k : Control) :
    (k.answer c a).cBusy = true → (k.answer c a).cStatus = k.cStatus := by
  unfold Control.answer
  cases k.cAt <;> simp only
  case idle => exact fun _ => trivial
  case poll h polls =>
    split
    · unfold Control.afterPoll
      split
      · split
        · exact fun hb => nomatch hb
        · split
          · exact fun hb => nomatch hb
          · exact fun _ => rfl
      · exact Control.held_resultLoop h 0 (k.didRead c c.regStatus a)
    · exact fun hb => nomatch hb
  case result h i =>
    split
    · exact Control.held_resultLoop h (i + 1) ((k.didRead c (dataAddr c i) a).setParam i (answerValue a))
    · exact fun hb => nomatch hb
  all_goals split <;> first | exact fun _ => rfl | exact fun hb => nomatch hb

theorem Control.held_runOver (c : Cfg) (as : List CciAnswer) {x : Status} {k : Control}
    (h : k.cBusy = true → k.cStatus = x) : (k.runOver c as).cBusy = true → (k.runOver c as).cStatus = x :=
  Control.runOver_induct (P := fun k => k.cBusy = true → k.cStatus = x)
    (fun w a h hb ha => (w.held_answer c a ha).trans (h hb)) (fun _ _ h => h) as k h

/-- A later turn. -/
theorem Control.held_resume (c : Cfg) (k : Control) :
    (k.resume c).cBusy = true → (k.resume c).cStatus = k.cStatus := by
  unfold Control.resume
  split
  · exact Control.held_answer c _ _
  · exact Control.held_runOver c _ (fun _ => rfl)

theorem Control.held_handshake (c : Cfg) (h : Handshake) (k : Control) :
    (k.handshake c h).cBusy = true → (k.handshake c h).cStatus = k.cStatus := by
  unfold Control.handshake
  split
  · exact fun hb => nomatch hb
  · exact Control.held_runOver c _ (fun _ => rfl)

/-- The turn that accepts an operation. -/
theorem exec_statusHeld {i : Instr} {s t : State} (he : exec i s = .next t) :
    t.ctl.cBusy = true → t.ctl.cStatus = s.ctl.cStatus := by
  cases hp : i.port with
  | video =>
    obtain ⟨f, hf⟩ := exec_video hp
    rw [hf, onVideo] at he
    cases he
    split <;> exact fun _ => rfl
  | control =>
    cases hb : s.ctl.cBusy with
    | true =>
      obtain ⟨f, hf⟩ := exec_control hp
      rw [hf, onControl_busy _ hb] at he
      cases he
      exact fun _ => rfl
    | false =>
      have get : ∀ op opc words, exec i s = onControl s (fun c k => getCommand op opc words c k) →
          t.ctl.cBusy = true → t.ctl.cStatus = s.ctl.cStatus := fun op opc words h => by
        rw [h, onControl_idle _ hb] at he; cases he; exact fun h => Control.held_handshake _ _ _ h
      have set : ∀ op opc value, exec i s = onControl s (fun c k => setCommand op opc value c k) →
          t.ctl.cBusy = true → t.ctl.cStatus = s.ctl.cStatus := fun op opc value h => by
        rw [h, onControl_idle _ hb] at he; cases he; exact fun h => Control.held_handshake _ _ _ h
      cases i with
      | regWr addr value =>
        rw [show exec (.regWr addr value) s = _ from onControl_idle _ hb] at he; cases he
        exact Control.held_runOver _ _ (fun _ => rfl)
      | regRd addr =>
        rw [show exec (.regRd addr) s = _ from onControl_idle _ hb] at he; cases he
        exact Control.held_runOver _ _ (fun _ => rfl)
      | cciCmd opc np nr =>
        rw [show exec (.cciCmd opc np nr) s = _ from onControl_idle _ hb] at he; cases he
        exact fun h => Control.held_handshake _ _ _ h
      | runFfc => exact get .runFfc s.cfg.opcRunFfc 0 rfl
      | getUptime => exact get .getUptime s.cfg.opcGetUptime s.cfg.uptimeWords rfl
      | getTlmEn => exact get .getTlmEn s.cfg.opcGetTlmEn s.cfg.enumWords rfl
      | setTlmEn value => exact set .setTlmEn s.cfg.opcSetTlmEn value rfl
      | getTlmLoc => exact get .getTlmLoc s.cfg.opcGetTlmLoc s.cfg.enumWords rfl
      | setTlmLoc value => exact set .setTlmLoc s.cfg.opcSetTlmLoc value rfl
      | getAgcEn => exact get .getAgcEn s.cfg.opcGetAgcEn s.cfg.enumWords rfl
      | setAgcEn value => exact set .setAgcEn s.cfg.opcSetAgcEn value rfl
      | cfgSession _ => cases hp
      | rdPkt _ _ => cases hp
      | rdSeg _ _ => cases hp
      | sync => cases hp
      | xfer => cases hp
      | setMaxResets _ => cases hp
      | tlmDec _ _ => cases hp

end Sys2Proof.Machine
end

