-- ==== Sys2Proof/Laws/Inv.lean ====
section
/-! SUPPORT. How the lines between two waits keep the invariant of the video side: `Video.Mid` is what holds inside an
operation, and each place where an operation waits or ends has one lemma. -/

namespace Sys2Proof.Machine

open Sys2Proof

/-! ## Slots -/

/-- `SlotGood` looks at the frame buffer's bytes of its own slot, the epoch and the packet counts only. -/
theorem SlotGood.of_read {c : Cfg} {v v' : Video} {k : Slot} (h : SlotGood c v k) (he : v'.epoch = v.epoch)
    (hp : v'.pktCount = v.pktCount)
    (hr : ∀ p < c.segCap, ∀ b < 164, v'.fb.read (fbAddr c k p b) = v.fb.read (fbAddr c k p b))
    (ha : c.anchor < c.segCap) (hc : v.count k ≤ c.segCap) : SlotGood c v' k := by
  have hid : ∀ p < c.segCap, v'.entryId c k p = v.entryId c k p := by
    intro p hp
    simp only [Video.entryId, Video.fbByte, hr p hp 0 (by omega), hr p hp 1 (by omega), he]
  have hcount : v'.count k = v.count k := by simp [Video.count, hp]
  refine ⟨?_, ?_, ?_, ?_⟩
  · rw [hid _ ha]; exact h.anchorLine
  · rw [hid _ ha]; exact h.anchorTtt
  · rw [hid _ (by omega)]; exact h.firstNotDiscard
  · intro p hpk b hb
    rw [hcount] at hpk
    have hb' : b < 164 := by simpa using hb
    rw [hr p (by omega) b hb']
    exact h.written p hpk b hb

theorem SlotGood.congr {c : Cfg} {v v' : Video} {k : Slot} (h : SlotGood c v k) (hf : v'.fb = v.fb)
    (he : v'.epoch = v.epoch) (hp : v'.pktCount = v.pktCount) : SlotGood c v' k := by
  have hid : ∀ p, v'.entryId c k p = v.entryId c k p := by
    intro p; simp only [Video.entryId, Video.fbByte, hf, he]
  refine ⟨?_, ?_, ?_, ?_⟩
  · rw [hid]; exact h.anchorLine
  · rw [hid]; exact h.anchorTtt
  · rw [hid]; exact h.firstNotDiscard
  · intro p hpk b hb
    have hcount : v'.count k = v.count k := by simp [Video.count, hp]
    rw [hf]; exact h.written p (hcount ▸ hpk) b hb

/-! ## Inside an operation -/

/-- What holds of the video side inside an operation, between two waits. -/
structure Video.Mid (c : Cfg) (v : Video) : Prop where
  fbCanonical : v.fb.wf
  fbInRange : ∀ e ∈ v.fb, e.1 < c.fbSize
  counts : (∀ k, v.count k = c.nNormal) ∨ (∀ k, v.count k = c.nTlm)
  maxResetsLegal : v.maxResets ≤ 254
  resetsFit : v.resets ≤ 255
  vResetsFit : v.vResets ≤ 255
  vFramesFit : v.vFrames ≤ 1
  invalidFits : v.invalid ≤ c.invalidLimit + 1
  skips : ∀ bound, c.maxDiscardSkips = some bound → v.skips ≤ bound + 1
  frame : v.frameValid = false

theorem Video.Inv.count_le {c : Cfg} {v : Video} (hc : c.Valid) (h : (∀ k, v.count k = c.nNormal) ∨
    (∀ k, v.count k = c.nTlm)) (k : Slot) : v.count k ≤ c.segCap ∧ c.anchor < v.count k := by
  have h1 := hc.2.1
  have h2 := hc.2.2.1
  simp only [Cfg.segCap]
  rcases h with h | h <;> rw [h k] <;> omega

theorem Video.Mid.complete {c : Cfg} {v : Video} (h : v.Mid c) (st : Status)
    (hi : v.fsState = .synchronized → v.invalid ≤ c.invalidLimit) : (v.complete st).Inv c where
  fbCanonical := h.fbCanonical
  fbInRange := h.fbInRange
  counts := h.counts
  maxResetsLegal := h.maxResetsLegal
  resetsFit := h.resetsFit
  vResetsFit := h.vResetsFit
  vFramesFit := h.vFramesFit
  segFits := by simp
  invalidFits := h.invalidFits
  skipsBounded := fun b hb => ⟨h.skips b hb, by simp⟩
  busyIff := by simp
  notDoneWhileBusy := by simp
  atLegal := by simp [VideoAtLegal]
  syncState := by simp
  syncResets := by simp
  xferState := by simp
  invalidWithinLimit := by simpa using hi
  segZero := by simp
  segOfSlot := by simp [Assembles]
  frameSoFar := by simp [Assembles]
  frameInvalidWhileBusy := by simp
  frameSynchronized := by simp [h.frame]
  frameGood := by simp [h.frame]

theorem Video.Mid.raise {c : Cfg} {v : Video} (h : v.Mid c) (f : Status)
    (hi : faultFsState v.vOp f v.fsState = .synchronized → v.invalid ≤ c.invalidLimit) : (v.raise f).Inv c := by
  refine Video.Mid.complete (v := { v with
    fsState := faultFsState v.vOp f v.fsState
    vFrames := faultFrames v.vOp v.vFrames
    vResets := faultResets v.vOp v.resets v.vResets }) ⟨h.fbCanonical, h.fbInRange, h.counts, h.maxResetsLegal,
      h.resetsFit, ?_, ?_, h.invalidFits, h.skips, h.frame⟩ f hi
  · have := h.resetsFit; have := h.vResetsFit
    simp only [faultResets]; split <;> omega
  · have := h.vFramesFit
    simp only [faultFrames]; split <;> omega

/-- A fault of `SYNC`, or one of `XFER` other than `NotSynchronized`, never leaves `Synchronized` (R325). -/
theorem faultFsState_assembles {op : Option VideoOp} {f : Status} {fs : FsState} (ho : Assembles op)
    (hf : f ≠ .notSynchronized) : faultFsState op f fs ≠ .synchronized := by
  rcases ho with rfl | rfl
  · simp only [faultFsState]; split <;> simp
  · simp [faultFsState, hf]

/-- What holds inside an operation that has just been accepted or answered and is still in progress. -/
structure Video.Running (c : Cfg) (v : Video) : Prop extends v.Mid c where
  busy : v.vBusy = true
  notDone : v.vDone = false
  syncState : v.vOp = some .sync → v.fsState = .unsynchronized ∨ v.fsState = .seekingFirstSegment
  syncResets : v.vOp = some .sync → v.resets ≤ v.maxResets
  xferState : v.vOp = some .xfer → v.fsState = .synchronized
  invalidWithinLimit : v.fsState = .synchronized ∨ v.vOp = some .sync → v.invalid ≤ c.invalidLimit

theorem Video.Running.complete {c : Cfg} {v : Video} (h : v.Running c) (st : Status) : (v.complete st).Inv c :=
  h.toMid.complete st fun hs => h.invalidWithinLimit (.inl hs)

theorem Video.Running.raise {c : Cfg} {v : Video} (h : v.Running c) {f : Status} (hf : f ≠ .notSynchronized) :
    (v.raise f).Inv c := by
  refine h.toMid.raise f fun hs => ?_
  by_cases ho : Assembles v.vOp
  · exact absurd hs (faultFsState_assembles ho hf)
  · refine h.invalidWithinLimit (.inl ?_)
    simp only [Assembles, not_or] at ho
    simp only [faultFsState] at hs
    split at hs <;> simp_all

/-- Waiting for a packet keeps the invariant. -/
theorem Video.Running.startPacket {c : Cfg} {v : Video} (h : v.Running c) {s : Slot} {p : Nat} (hp : p < c.segCap)
    (hop : v.vOp = some .rdPkt ∨ (p = 0 ∧ ReadsSegments v.vOp))
    (hk : Assembles v.vOp → ∀ k < s, SlotGood c v k) (hseg : v.seg < 4) (hso : Assembles v.vOp → v.seg = s.val)
    (hz : ¬ Assembles v.vOp → v.seg = 0) :
    (v.startPacket s p).Inv c where
  fbCanonical := h.fbCanonical
  fbInRange := h.fbInRange
  counts := h.counts
  maxResetsLegal := h.maxResetsLegal
  resetsFit := h.resetsFit
  vResetsFit := h.vResetsFit
  vFramesFit := h.vFramesFit
  segFits := by simpa using hseg
  segZero := hz
  segOfSlot := hso
  invalidFits := h.invalidFits
  skipsBounded := fun b _ => by simp
  busyIff := by simp [h.busy]
  notDoneWhileBusy := by simp [h.notDone]
  atLegal := ⟨hp, hop⟩
  syncState := h.syncState
  syncResets := h.syncResets
  xferState := h.xferState
  invalidWithinLimit := h.invalidWithinLimit
  frameSoFar := fun ho k hks => (hk ho k hks).congr rfl rfl rfl
  frameInvalidWhileBusy := fun _ => h.frame
  frameSynchronized := by simp [h.frame]
  frameGood := by simp [h.frame]

theorem Video.Running.withSeg {c : Cfg} {v : Video} (h : v.Running c) (n : Nat) :
    Video.Running c { v with seg := n } :=
  ⟨⟨h.fbCanonical, h.fbInRange, h.counts, h.maxResetsLegal, h.resetsFit, h.vResetsFit, h.vFramesFit,
    h.invalidFits, h.skips, h.frame⟩, h.busy, h.notDone, h.syncState, h.syncResets, h.xferState,
    h.invalidWithinLimit⟩

theorem Video.Running.readSlot {c : Cfg} {v : Video} (hc : c.Valid) (h : v.Running c) (s : Slot)
    (ho : Assembles v.vOp) (hk : ∀ k < s, SlotGood c v k) : (v.readSlot s).Inv c := by
  rcases v.readSlot_cases s with he | he <;> rw [he]
  · exact h.raise (by simp)
  · have := hc.2.1; have := hc.2.2.1
    exact (h.withSeg s.val).startPacket (by simp only [Cfg.segCap]; omega) (.inr ⟨rfl, .inr ho⟩)
      (fun _ k hks => (hk k hks).congr rfl rfl rfl) s.isLt (fun _ => rfl) fun hn => absurd ho hn

theorem Video.Running.staleReread {c : Cfg} {v : Video} (hc : c.Valid) (h : v.Running c) (s : Slot)
    (ho : Assembles v.vOp) (hk : ∀ k < s, SlotGood c v k) : (v.staleReread c s).Inv c := by
  have hi : v.invalid ≤ c.invalidLimit := h.invalidWithinLimit (by
    rcases ho with ho | ho
    · exact .inr ho
    · exact .inl (h.xferState ho))
  have hm : Video.Mid c { v with invalid := v.invalid + 1 } :=
    ⟨h.fbCanonical, h.fbInRange, h.counts, h.maxResetsLegal, h.resetsFit, h.vResetsFit, h.vFramesFit,
      by simp; omega, h.skips, h.frame⟩
  unfold Video.staleReread
  simp only
  split
  · exact hm.raise _ fun hs => absurd hs (faultFsState_assembles ho (by simp))
  · rename_i hl
    refine Video.Running.readSlot hc ?_ s ho fun k hks => (hk k hks).congr rfl rfl rfl
    exact ⟨hm, h.busy, h.notDone, h.syncState, h.syncResets, h.xferState, fun _ => by simp at hl ⊢; omega⟩

theorem Video.Running.syncSuccess {c : Cfg} {v : Video} (h : v.Running c) (hk : ∀ k, SlotGood c v k) :
    v.syncSuccess.Inv c where
  fbCanonical := h.fbCanonical
  fbInRange := h.fbInRange
  counts := h.counts
  maxResetsLegal := h.maxResetsLegal
  resetsFit := h.resetsFit
  vResetsFit := h.resetsFit
  vFramesFit := by simp
  segFits := by simp
  invalidFits := by simp
  skipsBounded := fun b hb => ⟨h.skips b hb, by simp⟩
  busyIff := by simp
  notDoneWhileBusy := by simp
  atLegal := by simp [VideoAtLegal]
  syncState := by simp
  syncResets := by simp
  xferState := by simp
  invalidWithinLimit := by simp
  segZero := by simp
  segOfSlot := by simp [Assembles]
  frameSoFar := by simp [Assembles]
  frameInvalidWhileBusy := by simp
  frameSynchronized := by simp
  frameGood := fun _ k => (hk k).congr rfl rfl rfl

theorem Video.Running.xferSuccess {c : Cfg} {v : Video} (h : v.Running c) (hs : v.fsState = .synchronized)
    (hk : ∀ k, SlotGood c v k) : v.xferSuccess.Inv c where
  fbCanonical := h.fbCanonical
  fbInRange := h.fbInRange
  counts := h.counts
  maxResetsLegal := h.maxResetsLegal
  resetsFit := h.resetsFit
  vResetsFit := h.vResetsFit
  vFramesFit := by simp
  segFits := by simp
  invalidFits := by simp
  skipsBounded := fun b hb => ⟨h.skips b hb, by simp⟩
  busyIff := by simp
  notDoneWhileBusy := by simp
  atLegal := by simp [VideoAtLegal]
  syncState := by simp
  syncResets := by simp
  xferState := by simp
  invalidWithinLimit := by simp
  segZero := by simp
  segOfSlot := by simp [Assembles]
  frameSoFar := by simp [Assembles]
  frameInvalidWhileBusy := by simp
  frameSynchronized := by simp [hs]
  frameGood := fun _ k => (hk k).congr rfl rfl rfl

theorem checkAnchor_matched {c : Cfg} {v : Video} {s : Slot} (h : v.checkAnchor c s = .matched) :
    lineOf (v.entryId c s c.anchor) = c.anchor ∧ tttOf (v.entryId c s c.anchor) = s.val + 1 := by
  unfold Video.checkAnchor anchorOutcome at h
  split at h
  · cases h
  · split at h
    · rename_i h1 h2; exact ⟨by simpa using h1, by simpa using h2⟩
    · split at h <;> cases h

theorem Video.Running.seekFirst {c : Cfg} {v : Video} (hc : c.Valid) (h : v.Running c) (ho : v.vOp = some .sync) :
    v.seekFirst.Inv c := by
  refine Video.Running.readSlot hc ?_ 0 (.inl ho) (fun k hk => by simp at hk)
  exact ⟨⟨h.fbCanonical, h.fbInRange, h.counts, h.maxResetsLegal, h.resetsFit, h.vResetsFit, h.vFramesFit,
    h.invalidFits, h.skips, h.frame⟩, h.busy, h.notDone, by simp, h.syncResets, by simp [ho],
    fun _ => h.invalidWithinLimit (.inr ho)⟩

/-- The end of a segment read keeps the invariant: slot `s` is stored, the slots before it are good. -/
theorem Video.Running.afterSegment {c : Cfg} {v : Video} (hc : c.Valid) (h : v.Running c) (s : Slot)
    (ho : ReadsSegments v.vOp) (hk : Assembles v.vOp → ∀ k < s, SlotGood c v k)
    (hd : Assembles v.vOp → isDiscard c (v.entryId c s 0) = false)
    (hw : Assembles v.vOp → ∀ p < v.count s, EntryWritten c v s p)
    (hsk : ∀ bound, c.maxDiscardSkips = some bound → v.skips ≤ bound) (hseg : v.seg < 4) : (v.afterSegment c s).Inv c := by
  have hnext : Assembles v.vOp → v.checkAnchor c s = .matched → ∀ k, k.val < s.val + 1 → SlotGood c v k := by
    intro hv hm k hks
    obtain ⟨h1, h2⟩ := checkAnchor_matched hm
    rcases Nat.lt_or_ge k.val s.val with hlt | hge
    · exact hk hv k hlt
    · have hks' : k = s := Fin.ext (by omega)
      subst hks'
      exact ⟨h1, h2, hd hv, hw hv⟩
  rcases ho with ho | ho
  · rw [Video.afterSegment_rdSeg c s ho]; exact h.complete .ok
  · rcases ho with ho | ho
    · rw [Video.afterSegment_sync c s ho, Video.syncAfterSegment]
      have ha : Assembles v.vOp := .inl ho
      cases hm : v.checkAnchor c s with
      | matched =>
        simp only [Video.syncNext]
        split
        · rename_i h4
          exact (h.withSeg (s.val + 1)).readSlot hc _ ha fun k hks => (hnext ha hm k hks).congr rfl rfl rfl
        · rename_i h4
          refine (h.withSeg (s.val + 1)).syncSuccess fun k => (hnext ha hm k ?_).congr rfl rfl rfl
          have := k.isLt; simp at h4; omega
      | misaligned =>
        simp only
        exact ⟨h.fbCanonical, h.fbInRange, h.counts, h.maxResetsLegal, h.resetsFit, h.vResetsFit, h.vFramesFit,
          by simpa using hseg, fun hn => absurd ha hn, fun _ => by simp [SegOfSlot], h.invalidFits, fun b hb => ⟨h.skips b hb, fun _ => hsk b hb⟩, by simp [h.busy], fun _ => h.notDone,
          ho, h.syncState, h.syncResets, h.xferState, h.invalidWithinLimit, fun _ => by simp [FrameSoFar],
          fun _ => h.frame, by simp [h.frame], by simp [h.frame]⟩
      | stale =>
        simp only
        split
        · exact h.seekFirst hc ho
        · exact h.staleReread hc s ha (hk ha)
      | wrongSegment => exact h.seekFirst hc ho
    · rw [Video.afterSegment_xfer c s ho, Video.xferAfterSegment]
      have ha : Assembles v.vOp := .inr ho
      cases hm : v.checkAnchor c s with
      | matched =>
        simp only [Video.xferNext]
        split
        · rename_i h4
          exact (h.withSeg (s.val + 1)).readSlot hc _ ha fun k hks => (hnext ha hm k hks).congr rfl rfl rfl
        · rename_i h4
          refine (h.withSeg (s.val + 1)).xferSuccess (h.xferState ho) fun k =>
            (hnext ha hm k ?_).congr rfl rfl rfl
          have := k.isLt; simp at h4; omega
      | misaligned => exact h.raise (by simp)
      | stale => exact h.staleReread hc s ha (hk ha)
      | wrongSegment => exact h.raise (by simp)

/-! ## What a stored packet and a stored bulk read do to the slots -/

theorem read_decodePacket_outside (c : Cfg) (s : Slot) (p : Nat) {w : List Byte} (v : Video) (hw : w.length = 164)
    (hp : p < c.segCap) {k : Slot} {q : Nat} (hq : q < c.segCap) (hne : k ≠ s ∨ q ≠ p) {b : Nat} (hb : b < 164) :
    (v.decodePacket c s p w).fb.read (fbAddr c k q b) = v.fb.read (fbAddr c k q b) := by
  have hl := entryBytes_length c hw
  rw [Video.decodePacket_fb, fbAddr_eq c k q b]
  apply read_write_outside
  rcases Nat.lt_trichotomy k.val s.val with h | h | h
  · have := fbAddr_lt_of (c := c) (p := q) (p' := p) hq (.inl h); omega
  · have hkq : q ≠ p := by
      rcases hne with hne | hne
      · exact absurd (Fin.ext h) hne
      · exact hne
    rcases Nat.lt_or_gt_of_ne hkq with hlt | hgt
    · have := fbAddr_lt_of (c := c) (s := k.val) (s' := s.val) hq (.inr ⟨h, hlt⟩); omega
    · have := fbAddr_lt_of (c := c) (s := s.val) (s' := k.val) hp (.inr ⟨h.symm, hgt⟩); omega
  · have := fbAddr_lt_of (c := c) (p := p) (p' := q) hp (.inl h); omega

theorem entryWritten_decodePacket (c : Cfg) (s : Slot) (p : Nat) {w : List Byte} (v : Video) (hw : w.length = 164) :
    EntryWritten c (v.decodePacket c s p w) s p := by
  intro b hb
  have hb' : b < 164 := by simpa using hb
  have hl := entryBytes_length c hw
  rw [Video.decodePacket_fb, fbAddr_eq c s p b, read_write_inside _ _ _ (by omega), List.getElem?_eq_getElem (by omega)]
  rfl

theorem bulkStore_length (c : Cfg) {v : Video} (s : Slot) {w : List Byte} (hw : w.length = v.bulkLen c s) :
    (bulkBytes c (v.count s - 1) w).length = 164 * (v.count s - 1) :=
  bulkBytes_length _ _ _ (by rw [hw, Video.bulkLen, Cfg.packetBytes_eq])

theorem read_storeBulk_outside (c : Cfg) (s : Slot) {w : List Byte} (v : Video) (hw : w.length = v.bulkLen c s)
    (hn : v.count s ≤ c.segCap) {k : Slot} {q : Nat} (hq : q < c.segCap)
    (hne : k ≠ s ∨ q = 0 ∨ v.count s ≤ q) {b : Nat} (hb : b < 164) :
    (v.storeBulk c s w).fb.read (fbAddr c k q b) = v.fb.read (fbAddr c k q b) := by
  have hl := bulkStore_length c s hw
  rw [Video.storeBulk_fb, fbAddr_eq c k q b]
  by_cases h0 : v.count s ≤ 1
  · rw [read_write, if_neg (by omega)]
  · obtain ⟨n, hn'⟩ : ∃ n, v.count s = n + 2 := ⟨v.count s - 2, by omega⟩
    have hend : fbAddr c s (n + 1) 0 = fbAddr c s 1 0 + (164 * n + 0) := fbAddr_bulk c s n 0
    apply read_write_outside
    rcases Nat.lt_trichotomy k.val s.val with h | h | h
    · have := fbAddr_lt_of (c := c) (p := q) (p' := 1) hq (.inl h); omega
    · rcases hne with hne | rfl | hne
      · exact absurd (Fin.ext h) hne
      · have := fbAddr_lt_of (c := c) (s := k.val) (s' := s.val) (p := 0) (p' := 1) hq (.inr ⟨h, by omega⟩); omega
      · have := fbAddr_lt_of (c := c) (s := s.val) (s' := k.val) (p := n + 1) (p' := q) (by omega)
          (.inr ⟨h.symm, by omega⟩)
        omega
    · have := fbAddr_lt_of (c := c) (s := s.val) (p := n + 1) (p' := q) (by omega) (.inl h); omega

theorem read_storeBulk_inside (c : Cfg) (s : Slot) {w : List Byte} (v : Video) (hw : w.length = v.bulkLen c s)
    {j : Nat} (hj : j + 1 < v.count s) {b : Nat} (hb : b < 164) :
    (v.storeBulk c s w).fb.read (fbAddr c s (j + 1) b) = (entryBytes c ((w.drop (164 * j)).take 164))[b]? := by
  have hl := bulkStore_length c s hw
  rw [Video.storeBulk_fb, fbAddr_bulk c s j b, read_write_inside _ _ _ (by omega)]
  exact bulkBytes_get _ _ _ _ _ (by rw [hw, Video.bulkLen, Cfg.packetBytes_eq]) (by omega) hb

theorem entryWritten_storeBulk (c : Cfg) (s : Slot) {w : List Byte} (v : Video) (hw : w.length = v.bulkLen c s)
    {j : Nat} (hj : j + 1 < v.count s) : EntryWritten c (v.storeBulk c s w) s (j + 1) := by
  intro b hb
  have hb' : b < 164 := by simpa using hb
  have hlen : ((w.drop (164 * j)).take 164).length = 164 := by
    have h1 : 164 * (v.count s - 1) - 164 * j ≥ 164 := by omega
    simp [hw, Video.bulkLen]; omega
  have hl := entryBytes_length c hlen
  rw [read_storeBulk_inside c s v hw hj hb', List.getElem?_eq_getElem (by omega)]
  rfl

/-! ## One answer -/

theorem Video.Inv.running {c : Cfg} {v : Video} (h : v.Inv c) (hb : v.vBusy = true) : v.Running c :=
  ⟨⟨h.fbCanonical, h.fbInRange, h.counts, h.maxResetsLegal, h.resetsFit, h.vResetsFit, h.vFramesFit,
    h.invalidFits, fun b hb' => (h.skipsBounded b hb').1, h.frameInvalidWhileBusy hb⟩, hb, h.notDoneWhileBusy hb,
    h.syncState, h.syncResets, h.xferState, h.invalidWithinLimit⟩

theorem Video.Running.observe {c : Cfg} {v : Video} (h : v.Running c) (x : VideoXact) (b : Bool) :
    (v.observe x b).Running c :=
  ⟨⟨h.fbCanonical, h.fbInRange, h.counts, h.maxResetsLegal, h.resetsFit, h.vResetsFit, h.vFramesFit,
    h.invalidFits, h.skips, h.frame⟩, h.busy, h.notDone, h.syncState, h.syncResets, h.xferState, h.invalidWithinLimit⟩

theorem Video.Running.decodePacket {c : Cfg} {v : Video} (h : v.Running c) (s : Slot) {p : Nat} (hp : p < c.segCap)
    {w : List Byte} (hw : w.length = 164) : (v.decodePacket c s p w).Running c :=
  ⟨⟨write_wf _ _ h.fbCanonical,
    write_inRange h.fbInRange (by rw [entryBytes_length c hw]; exact fbAddr_inRange s.isLt hp), h.counts,
    h.maxResetsLegal, h.resetsFit, h.vResetsFit, h.vFramesFit, h.invalidFits, h.skips, h.frame⟩,
    h.busy, h.notDone, h.syncState, h.syncResets, h.xferState, h.invalidWithinLimit⟩

theorem Video.Running.storeBulk {c : Cfg} {v : Video} (hc : c.Valid) (h : v.Running c) (s : Slot) {w : List Byte}
    (hw : w.length = v.bulkLen c s) : (v.storeBulk c s w).Running c := by
  have hn := Video.Inv.count_le hc h.counts s
  have hl := bulkStore_length c s hw
  refine ⟨⟨write_wf _ _ h.fbCanonical, write_inRange h.fbInRange ?_, h.counts,
    h.maxResetsLegal, h.resetsFit, h.vResetsFit, h.vFramesFit, h.invalidFits, h.skips, h.frame⟩,
    h.busy, h.notDone, h.syncState, h.syncResets, h.xferState, h.invalidWithinLimit⟩
  rw [hl]
  by_cases h1 : v.count s ≤ 1
  · have := fbAddr_inRange (c := c) s.isLt (show 0 < c.segCap by omega)
    have h0 : fbAddr c s 1 0 = fbAddr c s 0 0 + 164 := by simp [fbAddr]; omega
    omega
  · obtain ⟨n, hn'⟩ : ∃ n, v.count s = n + 2 := ⟨v.count s - 2, by omega⟩
    have := fbAddr_inRange (c := c) s.isLt (show n + 1 < c.segCap by omega)
    have hend : fbAddr c s (n + 1) 0 = fbAddr c s 1 0 + (164 * n + 0) := fbAddr_bulk c s n 0
    omega

theorem SlotGood.decodePacket {c : Cfg} {v : Video} {k s : Slot} {p : Nat} {w : List Byte} (hc : c.Valid)
    (h : SlotGood c v k) (hw : w.length = 164) (hp : p < c.segCap) (hks : k ≠ s)
    (hcounts : (∀ k, v.count k = c.nNormal) ∨ (∀ k, v.count k = c.nTlm)) :
    SlotGood c (v.decodePacket c s p w) k := by
  have hn := Video.Inv.count_le hc hcounts k
  exact h.of_read rfl rfl (fun q hq b hb => read_decodePacket_outside c s p v hw hp hq (.inl hks) hb)
    (by omega) hn.1

theorem SlotGood.storeBulk {c : Cfg} {v : Video} {k s : Slot} {w : List Byte} (hc : c.Valid)
    (h : SlotGood c v k) (hw : w.length = v.bulkLen c s) (hks : k ≠ s)
    (hcounts : (∀ k, v.count k = c.nNormal) ∨ (∀ k, v.count k = c.nTlm)) :
    SlotGood c (v.storeBulk c s w) k := by
  have hn := Video.Inv.count_le hc hcounts k
  have hs := Video.Inv.count_le hc hcounts s
  exact h.of_read rfl rfl (fun q hq b hb => read_storeBulk_outside c s v hw hs.1 hq (.inl hks) hb)
    (by omega) hn.1

theorem skips_le_of_not_tooMany {c : Cfg} {n : Nat} (h : tooManySkips c n = false) :
    ∀ bound, c.maxDiscardSkips = some bound → n ≤ bound := by
  intro bound hb
  simpa [tooManySkips, hb] using h

/-- One packet read keeps the invariant. -/
theorem Video.Inv.packetPass {c : Cfg} {v : Video} (hc : c.Valid) (h : v.Inv c) (hb : v.vBusy = true) {s : Slot}
    {p : Nat} (hat : v.vAt = .packet s p) (a : VideoAnswer) : (v.packetPass c s p a).Inv c := by
  have hr := h.running hb
  have hlegal := h.atLegal
  rw [VideoAtLegal, hat] at hlegal
  obtain ⟨hp, hop⟩ := hlegal
  have hfr : Assembles v.vOp → ∀ k < s, SlotGood c v k := by
    intro ho; have := h.frameSoFar ho; rwa [FrameSoFar, hat] at this
  have hskip := fun b hb' => (h.skipsBounded b hb').2 hb
  rcases v.packetPass_cases c s p a with ⟨_, he⟩ | ⟨hlen, hd, he⟩ | ⟨hlen, hd, he⟩ <;> rw [he]
  · exact (hr.observe _ _).raise (by simp)
  · have hw : (a.bytes.take 164).length = 164 := by simp; omega
    have hr' := (hr.observe (.read 164 164) a.cancel).decodePacket s hp hw
    have hmid : Video.Mid c { ((v.observe (.read 164 164) a.cancel).decodePacket c s p (a.bytes.take 164)) with
        skips := v.skips + 1 } :=
      ⟨hr'.fbCanonical, hr'.fbInRange, hr'.counts, hr'.maxResetsLegal, hr'.resetsFit, hr'.vResetsFit, hr'.vFramesFit,
        hr'.invalidFits, fun b hb' => by have := hskip b hb'; simp; omega, hr'.frame⟩
    have hr'' : Video.Running c { ((v.observe (.read 164 164) a.cancel).decodePacket c s p (a.bytes.take 164)) with
        skips := v.skips + 1 } :=
      ⟨hmid, hr'.busy, hr'.notDone, hr'.syncState, hr'.syncResets, hr'.xferState, hr'.invalidWithinLimit⟩
    rcases Video.skipDiscard_cases c
      ((v.observe (.read 164 164) a.cancel).decodePacket c s p (a.bytes.take 164)) with
      ⟨_, h2⟩ | ⟨_, _, h2⟩ | ⟨htm, _, h2⟩ <;> rw [h2]
    · exact hr''.raise (by simp)
    · exact hr''.raise (by simp)
    · exact
      { fbCanonical := hmid.fbCanonical
        fbInRange := hmid.fbInRange
        counts := hmid.counts
        maxResetsLegal := hmid.maxResetsLegal
        resetsFit := hmid.resetsFit
        vResetsFit := hmid.vResetsFit
        vFramesFit := hmid.vFramesFit
        segFits := h.segFits
        segZero := h.segZero
        segOfSlot := fun ho => by
          have := h.segOfSlot ho
          simp only [SegOfSlot, Video.decodePacket_vAt, Video.observe_vAt, hat] at this ⊢; exact this
        invalidFits := hmid.invalidFits
        skipsBounded := fun b hb' => ⟨hmid.skips b hb', fun _ => skips_le_of_not_tooMany htm b hb'⟩
        busyIff := by simp [hb, hat]
        notDoneWhileBusy := fun _ => hr'.notDone
        atLegal := by simp only [VideoAtLegal, Video.decodePacket_vAt, Video.observe_vAt, hat]; exact ⟨hp, hop⟩
        syncState := hr'.syncState
        syncResets := hr'.syncResets
        xferState := hr'.xferState
        invalidWithinLimit := hr'.invalidWithinLimit
        frameSoFar := fun ho => by
          simp only [FrameSoFar, Video.decodePacket_vAt, Video.observe_vAt, hat]
          intro k hk
          exact (((hfr ho k hk).congr (v' := v.observe (.read 164 164) a.cancel) rfl rfl rfl).decodePacket hc hw hp
            (Fin.ne_of_lt hk) hr.counts).congr rfl rfl rfl
        frameInvalidWhileBusy := fun _ => hr'.frame
        frameSynchronized := fun hf => by rw [show _ = false from hr'.frame] at hf; cases hf
        frameGood := fun hf => by rw [show _ = false from hr'.frame] at hf; cases hf }
  · have hw : (a.bytes.take 164).length = 164 := by simp; omega
    have hr' := (hr.observe (.read 164 164) a.cancel).decodePacket s hp hw
    rcases hop with hop | ⟨rfl, hop⟩
    · rw [Video.afterPacket_rdPkt (v := (v.observe (.read 164 164) a.cancel).decodePacket c s p (a.bytes.take 164)) c s hop]; exact hr'.complete .ok
    · rw [Video.afterPacket_segment (v := (v.observe (.read 164 164) a.cancel).decodePacket c s 0 (a.bytes.take 164)) c s hop]
      have hid := entryId_decodePacket c s 0 (v.observe (.read 164 164) a.cancel) hw
      have hslots : Assembles v.vOp → ∀ k < s, SlotGood c
          ((v.observe (.read 164 164) a.cancel).decodePacket c s 0 (a.bytes.take 164)) k := fun ho k hk =>
        ((hfr ho k hk).congr (v' := v.observe (.read 164 164) a.cancel) rfl rfl rfl).decodePacket hc hw hp
          (Fin.ne_of_lt hk) hr.counts
      unfold Video.afterFirstPacket
      split
      · exact
        { fbCanonical := hr'.fbCanonical
          fbInRange := hr'.fbInRange
          counts := hr'.counts
          maxResetsLegal := hr'.maxResetsLegal
          resetsFit := hr'.resetsFit
          vResetsFit := hr'.vResetsFit
          vFramesFit := hr'.vFramesFit
          segFits := h.segFits
          segZero := h.segZero
          segOfSlot := fun ho => by
            have := h.segOfSlot ho; rw [SegOfSlot, hat] at this; exact this
          invalidFits := hr'.invalidFits
          skipsBounded := fun b hb' => ⟨hr'.skips b hb', fun _ => hskip b hb'⟩
          busyIff := by simp [hb]
          notDoneWhileBusy := fun _ => hr'.notDone
          atLegal := hop
          syncState := hr'.syncState
          syncResets := hr'.syncResets
          xferState := hr'.xferState
          invalidWithinLimit := hr'.invalidWithinLimit
          frameSoFar := fun ho => ⟨fun k hk => (hslots ho k hk).congr rfl rfl rfl, by
            rw [← hd, ← hid]; rfl, entryWritten_decodePacket c s 0 _ hw⟩
          frameInvalidWhileBusy := fun _ => hr'.frame
          frameSynchronized := fun hf => by rw [show _ = false from hr'.frame] at hf; cases hf
          frameGood := fun hf => by rw [show _ = false from hr'.frame] at hf; cases hf }
      · rename_i h1
        refine hr'.afterSegment hc s hop hslots (fun _ => by rw [hid, hd]) (fun _ q hq => ?_) hskip
          (by simpa using h.segFits)
        have : q = 0 := by omega
        subst this
        exact entryWritten_decodePacket c s 0 _ hw

/-- One bulk read keeps the invariant. -/
theorem Video.Inv.bulkPass {c : Cfg} {v : Video} (hc : c.Valid) (h : v.Inv c) (hb : v.vBusy = true) {s : Slot}
    (hat : v.vAt = .bulk s) (a : VideoAnswer) : (v.bulkPass c s a).Inv c := by
  have hr := h.running hb
  have hop := h.atLegal
  rw [VideoAtLegal, hat] at hop
  have hskip := fun b hb' => (h.skipsBounded b hb').2 hb
  rcases v.bulkPass_cases c s a with ⟨_, he⟩ | ⟨hlen, he⟩ <;> rw [he]
  · exact (hr.observe _ _).raise (by simp)
  · have hw : (a.bytes.take (v.bulkLen c s)).length = v.bulkLen c s := by simp; omega
    have hn := Video.Inv.count_le hc hr.counts s
    have hfr : Assembles v.vOp → (∀ k < s, SlotGood c v k) ∧ isDiscard c (v.entryId c s 0) = false ∧
        EntryWritten c v s 0 := by
      intro ho; have := h.frameSoFar ho; rwa [FrameSoFar, hat] at this
    have hread0 : ∀ b < 164, ((v.observe (.read (v.bulkLen c s) (v.bulkLen c s)) a.cancel).storeBulk c s
        (a.bytes.take (v.bulkLen c s))).fb.read (fbAddr c s 0 b) = v.fb.read (fbAddr c s 0 b) := fun b hb' =>
      read_storeBulk_outside c s (v.observe (.read (v.bulkLen c s) (v.bulkLen c s)) a.cancel) hw hn.1 (by omega)
        (.inr (.inl rfl)) hb'
    refine ((hr.observe _ _).storeBulk hc s hw).afterSegment hc s hop (fun ho k hk => ?_) (fun ho => ?_)
      (fun ho q hq => ?_) hskip (by simpa using h.segFits)
    · exact ((hfr ho).1 k hk |>.congr (v' := v.observe _ a.cancel) rfl rfl rfl).storeBulk hc hw (Fin.ne_of_lt hk)
        hr.counts
    · rw [← (hfr ho).2.1]
      simp only [Video.entryId, Video.fbByte, hread0 0 (by omega), hread0 1 (by omega)]
      rfl
    · cases q with
      | zero => intro b hb'; rw [hread0 b (by simpa using hb')]; exact (hfr ho).2.2 b hb'
      | succ j => exact entryWritten_storeBulk c s (v.observe _ a.cancel) hw hq

/-- The end of a backoff keeps the invariant. -/
theorem Video.Inv.backoffPass {c : Cfg} {v : Video} (hc : c.Valid) (h : v.Inv c) (hb : v.vBusy = true)
    (hat : v.vAt = .backoff) (a : VideoAnswer) : (v.backoffPass c a).Inv c := by
  have hr := h.running hb
  have hop := h.atLegal
  rw [VideoAtLegal, hat] at hop
  have hle := h.syncResets hop
  have hmax := h.maxResetsLegal
  replace hop : v.vOp = some .sync := hop
  have hmid : Video.Mid c { v.observe (.backoff c.backoffMs) a.cancel with
      resets := v.resets + 1, fsState := .unsynchronized } :=
    ⟨hr.fbCanonical, hr.fbInRange, hr.counts, hr.maxResetsLegal, by simp; omega, hr.vResetsFit, hr.vFramesFit,
      hr.invalidFits, hr.skips, hr.frame⟩
  rw [Video.backoffPass, Video.syncAfterBackoff_eq]
  split
  · refine hmid.raise _ fun hs => absurd hs ?_
    simp [hop, faultFsState]
  · rename_i hl
    refine Video.Running.readSlot hc ?_ 0 (.inl hop) (fun k hk => by simp at hk)
    exact ⟨hmid, hb, hr.notDone, fun _ => .inl rfl, fun _ => by simp at hl ⊢; omega, by simp [hop],
      fun _ => h.invalidWithinLimit (.inr hop)⟩

/-- One answer of the outside world keeps the invariant of the video side. -/
theorem Video.Inv.answer {c : Cfg} {v : Video} (hc : c.Valid) (h : v.Inv c) (hb : v.vBusy = true) (a : VideoAnswer) :
    (v.answer c a).Inv c := by
  unfold Video.answer
  split
  · exact h
  · rename_i hat; exact h.packetPass hc hb hat a
  · rename_i hat; exact h.bulkPass hc hb hat a
  · rename_i hat; exact h.backoffPass hc hb hat a

/-! ## Operations -/

/-- The invariant looks at none of the port's inputs, the sensor's answers, the free-answer counter, `vStatus` and the
record of the bus. -/
theorem Video.Inv.withInputs {c : Cfg} {v : Video} (h : v.Inv c) (cmd : CmdPort) (sensor : List VideoAnswer)
    (tick : Nat) : Video.Inv c { v with cmd := cmd, sensor := sensor, tick := tick } where
  fbCanonical := h.fbCanonical
  fbInRange := h.fbInRange
  counts := h.counts
  maxResetsLegal := h.maxResetsLegal
  resetsFit := h.resetsFit
  vResetsFit := h.vResetsFit
  vFramesFit := h.vFramesFit
  segFits := h.segFits
  segZero := h.segZero
  segOfSlot := h.segOfSlot
  invalidFits := h.invalidFits
  skipsBounded := h.skipsBounded
  busyIff := h.busyIff
  notDoneWhileBusy := h.notDoneWhileBusy
  atLegal := h.atLegal
  syncState := h.syncState
  syncResets := h.syncResets
  xferState := h.xferState
  invalidWithinLimit := h.invalidWithinLimit
  frameSoFar := fun ho => by
    have := h.frameSoFar ho
    simp only [FrameSoFar] at this ⊢
    split
    · trivial
    · rename_i hat; rw [show v.vAt = _ from hat] at this; exact fun k hk => (this k hk).congr rfl rfl rfl
    · rename_i hat; rw [show v.vAt = _ from hat] at this
      exact ⟨fun k hk => (this.1 k hk).congr rfl rfl rfl, this.2⟩
    · trivial
  frameInvalidWhileBusy := h.frameInvalidWhileBusy
  frameSynchronized := h.frameSynchronized
  frameGood := fun hf k => (h.frameGood hf k).congr rfl rfl rfl

theorem Video.Inv.runOver {c : Cfg} {v : Video} (hc : c.Valid) (h : v.Inv c) (as : List VideoAnswer) :
    (Video.runOver c as v).Inv c :=
  Video.runOver_induct (P := Video.Inv c) (fun _ a hv hb => hv.answer hc hb a)
    (fun v as hv => hv.withInputs v.cmd as v.tick) as v h

theorem Video.Inv.run {c : Cfg} {v : Video} (hc : c.Valid) (h : v.Inv c) : (v.run c).Inv c := h.runOver hc v.sensor

theorem Video.Inv.resume {c : Cfg} {v : Video} (hc : c.Valid) (h : v.Inv c) (hb : v.vBusy = true) :
    (v.resume c).Inv c := by
  unfold Video.resume
  split
  · exact (h.withInputs v.cmd v.sensor (v.tick + 1)).answer hc hb _
  · exact h.runOver hc _

/-- An idle engine assembles nothing. -/
theorem Video.Inv.idleOp {c : Cfg} {v : Video} (h : v.Inv c) (hb : v.vBusy = false) : ¬ Assembles v.vOp := by
  have hat : v.vAt = .idle := by
    by_contra hne; rw [h.busyIff.2 hne] at hb; cases hb
  have hl := h.atLegal
  rw [VideoAtLegal, hat] at hl
  simp [Assembles, show v.vOp = none from hl]

/-- Acceptance of an operation that clears `frame_valid`, other than `SYNC` and `XFER`. -/
theorem Video.Inv.accept {c : Cfg} {v : Video} (h : v.Inv c) {op : VideoOp}
    (hcl : op.clearsFrameValid = true) (ho : ¬ Assembles (some op)) : (v.accept op).Running c := by
  have h0 : op ≠ .sync ∧ op ≠ .xfer := by simpa [Assembles] using ho
  refine ⟨⟨h.fbCanonical, h.fbInRange, h.counts, h.maxResetsLegal, h.resetsFit, h.vResetsFit, h.vFramesFit,
    h.invalidFits, fun b hb' => (h.skipsBounded b hb').1, by simp [hcl]⟩, rfl, rfl, by simp [h0], by simp [h0],
    by simp [h0], ?_⟩
  intro hs
  exact h.invalidWithinLimit (.inl (by simpa [h0] using hs))

theorem Video.Inv.cfgSession {c : Cfg} {v : Video} (h : v.Inv c) (tlm : Bool) :
    (cfgSession tlm c v).Inv c := by
  refine Video.Mid.complete (v := { v.accept .cfgSession with
      pktCount := #v[if tlm then c.nTlm else c.nNormal, if tlm then c.nTlm else c.nNormal,
        if tlm then c.nTlm else c.nNormal, if tlm then c.nTlm else c.nNormal]
      fsState := .unsynchronized
      invalid := 0
      frameValid := false }) ⟨h.fbCanonical, h.fbInRange, ?_, h.maxResetsLegal, h.resetsFit, h.vResetsFit, h.vFramesFit,
        by simp, fun b hb' => (h.skipsBounded b hb').1, rfl⟩ .ok (by simp)
  cases tlm
  · exact .inl fun k => by fin_cases k <;> rfl
  · exact .inr fun k => by fin_cases k <;> rfl

theorem Video.Inv.rdPkt {c : Cfg} {v : Video} (hc : c.Valid) (h : v.Inv c) (hb : v.vBusy = false) (slot : Slot)
    (p : Nat) : (rdPkt slot p c v).Inv c := by
  have ha := h.accept (op := .rdPkt) rfl (by simp [Assembles])
  simp only [Machine.rdPkt]
  split
  · exact ha.raise (by simp)
  · rename_i hp
    have hp' : p < c.segCap := by simpa [badPacketIndex] using hp
    exact (ha.startPacket hp' (.inl rfl) (fun ho => absurd ho (by simp [Assembles])) (by simpa using h.segFits)
      (fun ho => absurd ho (by simp [Assembles])) fun _ => h.segZero (h.idleOp hb)).run hc

theorem Video.Inv.rdSeg {c : Cfg} {v : Video} (hc : c.Valid) (h : v.Inv c) (hb : v.vBusy = false) (slot : Slot)
    (p : Nat) : (rdSeg slot p c v).Inv c := by
  have ha := h.accept (op := .rdSeg) rfl (by simp [Assembles])
  simp only [Machine.rdSeg]
  split
  · exact ha.raise (by simp)
  · rename_i hp
    have hp' : p < c.segCap := by simpa [badPacketIndex] using hp
    exact (ha.startPacket (by omega) (.inr ⟨rfl, .inl rfl⟩) (fun ho => absurd ho (by simp [Assembles]))
      (by simpa using h.segFits) (fun ho => absurd ho (by simp [Assembles])) fun _ => h.segZero (h.idleOp hb)).run hc

theorem Video.Inv.sync {c : Cfg} {v : Video} (hc : c.Valid) (h : v.Inv c) : (syncOp c v).Inv c := by
  have hr : Video.Running c
      { v.accept .sync with resets := 0, invalid := 0, fsState := .unsynchronized } :=
    ⟨⟨h.fbCanonical, h.fbInRange, h.counts, h.maxResetsLegal, by simp, h.vResetsFit, h.vFramesFit,
      by simp, fun b hb' => (h.skipsBounded b hb').1, by simp [VideoOp.clearsFrameValid]⟩, rfl, rfl, fun _ => .inl rfl,
      fun _ => by simp, by simp, fun _ => by simp⟩
  exact (hr.readSlot hc 0 (.inl rfl) fun k hk => by simp at hk).run hc

theorem Video.Inv.xfer {c : Cfg} {v : Video} (hc : c.Valid) (h : v.Inv c) : (xferOp c v).Inv c := by
  have hm : Video.Mid c (v.accept .xfer) :=
    ⟨h.fbCanonical, h.fbInRange, h.counts, h.maxResetsLegal, h.resetsFit, h.vResetsFit, h.vFramesFit,
      h.invalidFits, fun b hb' => (h.skipsBounded b hb').1, by simp [VideoOp.clearsFrameValid]⟩
  simp only [Machine.xferOp]
  split
  · rename_i hs
    exact hm.raise _ fun hs' => absurd hs' (by simpa [faultFsState] using hs)
  · rename_i hs
    have hs' : v.fsState = .synchronized := by simpa using hs
    have hr : Video.Running c { v.accept .xfer with seg := 0 } :=
      ⟨⟨hm.fbCanonical, hm.fbInRange, hm.counts, hm.maxResetsLegal, hm.resetsFit, hm.vResetsFit, hm.vFramesFit,
        hm.invalidFits, hm.skips, hm.frame⟩, rfl, rfl, by simp, by simp, fun _ => hs',
        fun _ => h.invalidWithinLimit (.inl hs')⟩
    rw [Video.xferNext_slot (v := { v.accept .xfer with seg := 0 }) c (s := 0) rfl]
    exact (hr.readSlot hc 0 (.inr rfl) fun k hk => by simp at hk).run hc

/-- `SET_MAX_RESETS` and `TLM_DEC` leave `frame_valid` and everything it promises alone. -/
theorem Video.Inv.completeAt {c : Cfg} {v v' : Video} (h : v.Inv c) (st : Status) (hfb : v'.fb = v.fb)
    (hepoch : v'.epoch = v.epoch) (hcount : v'.pktCount = v.pktCount) (hfs : v'.fsState = v.fsState)
    (hresets : v'.resets = v.resets) (hinvalid : v'.invalid = v.invalid) (hskips : v'.skips = v.skips)
    (hmax : v'.maxResets ≤ 254) (hvalid : v'.frameValid = v.frameValid)
    (hframes : v'.vFrames = v.vFrames) (hvr : v'.vResets = v.vResets) : (v'.complete st).Inv c where
  fbCanonical := by simpa [hfb] using h.fbCanonical
  fbInRange := by simpa [hfb] using h.fbInRange
  counts := by simpa [Video.count, hcount] using h.counts
  maxResetsLegal := hmax
  resetsFit := by simpa [hresets] using h.resetsFit
  vResetsFit := by simpa [hvr] using h.vResetsFit
  vFramesFit := by simpa [hframes] using h.vFramesFit
  segFits := by simp
  invalidFits := by simpa [hinvalid] using h.invalidFits
  skipsBounded := fun b hb => ⟨by simpa [hskips] using (h.skipsBounded b hb).1, by simp⟩
  busyIff := by simp
  notDoneWhileBusy := by simp
  atLegal := by simp [VideoAtLegal]
  syncState := by simp
  syncResets := by simp
  xferState := by simp
  invalidWithinLimit := by simpa [hfs, hinvalid] using fun hs => h.invalidWithinLimit (.inl hs)
  segZero := by simp
  segOfSlot := by simp [Assembles]
  frameSoFar := by simp [Assembles]
  frameInvalidWhileBusy := by simp
  frameSynchronized := by simpa [hvalid, hfs, hframes] using h.frameSynchronized
  frameGood := fun hf k => (h.frameGood (by simpa [hvalid] using hf) k).congr hfb hepoch hcount

theorem Video.Inv.setMaxResets {c : Cfg} {v : Video} (h : v.Inv c) (value : Word) :
    (setMaxResets value c v).Inv c := by
  simp only [Machine.setMaxResets]
  split
  · exact h.completeAt .badOperand rfl rfl rfl rfl rfl rfl rfl h.maxResetsLegal
      (by simp [VideoOp.clearsFrameValid]) rfl rfl
  · rename_i hv
    exact h.completeAt .ok rfl rfl rfl rfl rfl rfl rfl (by simpa [badMaxResets] using hv)
      (by simp [VideoOp.clearsFrameValid]) rfl rfl

theorem Video.Inv.tlmDec {c : Cfg} {v : Video} (h : v.Inv c) (slot : Slot) (p : Nat) :
    (tlmDec slot p c v).Inv c := by
  simp only [Machine.tlmDec]
  split
  · exact h.completeAt .badOperand rfl rfl rfl rfl rfl rfl rfl h.maxResetsLegal
      (by simp [VideoOp.clearsFrameValid]) rfl rfl
  · exact h.completeAt .ok rfl rfl rfl rfl rfl rfl rfl h.maxResetsLegal (by simp [VideoOp.clearsFrameValid]) rfl rfl

/-- The table of R62 meets the invariant. -/
theorem Video.Inv.afterReset {c : Cfg} (hc : c.Valid) (epoch : Nat) (cmd : CmdPort) (sensor : List VideoAnswer)
    (tick : Nat) (bus : List VideoXact) : (Video.atReset c epoch cmd sensor tick bus).Inv c where
  fbCanonical := List.Pairwise.nil
  fbInRange := by simp [Video.atReset]
  counts := .inl fun k => by fin_cases k <;> rfl
  maxResetsLegal := hc.2.2.2.2.2.1
  resetsFit := by simp [Video.atReset]
  vResetsFit := by simp [Video.atReset]
  vFramesFit := by simp [Video.atReset]
  segFits := by simp [Video.atReset]
  invalidFits := by simp [Video.atReset]
  skipsBounded := fun b _ => by simp [Video.atReset]
  busyIff := by simp [Video.atReset]
  notDoneWhileBusy := by simp [Video.atReset]
  atLegal := by simp [Video.atReset, VideoAtLegal]
  syncState := by simp [Video.atReset]
  syncResets := by simp [Video.atReset]
  xferState := by simp [Video.atReset]
  invalidWithinLimit := by simp [Video.atReset]
  segZero := by simp [Video.atReset]
  segOfSlot := by simp [Video.atReset, Assembles]
  frameSoFar := by simp [Video.atReset, Assembles]
  frameInvalidWhileBusy := by simp [Video.atReset]
  frameSynchronized := by simp [Video.atReset]
  frameGood := by simp [Video.atReset]

end Sys2Proof.Machine
end

