-- ==== Sys2Proof/Laws/InvExec.lean ====
section
/-! SUPPORT. The invariant of the block through every operation, through taking a command and through a move of the
host. -/

namespace Sys2Proof.Machine

open Sys2Proof

/-- Every operation keeps the invariant of the block, with `rst` released. -/
theorem State.Inv.exec {i : Instr} {s t : State} (h : s.Inv) (hr : s.rst = false)
    (he : Machine.exec i s = .next t) : t.Inv := by
  obtain ⟨hc, hv, hk, hh⟩ := h
  have hheld : ∀ p : Prop, s.rst = true → p := fun _ h => absurd (hr.symm.trans h) (by simp)
  have vid : ∀ f : Cfg → Video → Video, Machine.exec i s = onVideo s f →
      (s.video.vBusy = false → (f s.cfg s.video).Inv s.cfg) → t.Inv := by
    intro f hf hi
    cases hb : s.video.vBusy with
    | true => rw [hf, onVideo_busy _ hb] at he; cases he; exact ⟨hc, hv, hk, hheld _⟩
    | false => rw [hf, onVideo_idle _ hb] at he; cases he; exact ⟨hc, hi hb, hk, hheld _⟩
  have con : ∀ f : Cfg → Control → Control, Machine.exec i s = onControl s f → (f s.cfg s.ctl).Inv s.cfg → t.Inv := by
    intro f hf hi
    cases hb : s.ctl.cBusy with
    | true => rw [hf, onControl_busy _ hb] at he; cases he; exact ⟨hc, hv, hk, hheld _⟩
    | false => rw [hf, onControl_idle _ hb] at he; cases he; exact ⟨hc, hv, hi, hheld _⟩
  cases i with
  | cfgSession tlm => exact vid _ rfl fun _ => hv.cfgSession tlm
  | rdPkt slot p => exact vid _ rfl fun hb => hv.rdPkt hc hb slot p
  | rdSeg slot p => exact vid _ rfl fun hb => hv.rdSeg hc hb slot p
  | sync => exact vid _ rfl fun _ => hv.sync hc
  | xfer => exact vid _ rfl fun _ => hv.xfer hc
  | setMaxResets value => exact vid _ rfl fun _ => hv.setMaxResets value
  | tlmDec slot p => exact vid _ rfl fun _ => hv.tlmDec slot p
  | regWr addr value => exact con _ rfl (.regWr _ hc addr value _)
  | regRd addr => exact con _ rfl (.regRd _ hc addr _)
  | cciCmd opc np nr => exact con _ rfl (.cciCmd _ hc opc np nr _)
  | runFfc => exact con _ rfl (.getCommand _ hc _ rfl)
  | getUptime => exact con _ rfl (.getCommand _ hc _ rfl)
  | getTlmEn => exact con _ rfl (.getCommand _ hc _ rfl)
  | setTlmEn value => exact con _ rfl (.setCommand _ hc value _ rfl)
  | getTlmLoc => exact con _ rfl (.getCommand _ hc _ rfl)
  | setTlmLoc value => exact con _ rfl (.setCommand _ hc value _ rfl)
  | getAgcEn => exact con _ rfl (.getCommand _ hc _ rfl)
  | setAgcEn value => exact con _ rfl (.setCommand _ hc value _ rfl)

/-- Changing the inputs of a port keeps the invariant of the block. -/
theorem State.Inv.onPort {s : State} (h : s.Inv) (p : Port) (f : CmdPort → CmdPort) : (s.onPort p f).Inv := by
  cases p
  · exact ⟨h.cfgValid, h.video.withInputs _ s.video.sensor s.video.tick, h.ctl, h.heldIdle⟩
  · exact ⟨h.cfgValid, h.video, h.ctl.withInputs _ s.ctl.sensor s.ctl.tick s.ctl.params, h.heldIdle⟩

/-- `IllegalOp` keeps the invariant of the block. -/
theorem State.Inv.raiseIllegalOp {s : State} (h : s.Inv) (p : Port) : (Machine.raiseIllegalOp p s).Inv := by
  cases p
  · exact ⟨h.cfgValid, h.video.completeAt .illegalOp rfl rfl rfl rfl rfl rfl rfl h.video.maxResetsLegal rfl rfl rfl,
      h.ctl, fun hr => ⟨rfl, (h.heldIdle hr).2⟩⟩
  · exact ⟨h.cfgValid, h.video, .ofComplete _ _ _, fun hr => ⟨(h.heldIdle hr).1, rfl⟩⟩

/-- A move of the host keeps the invariant of the block. -/
theorem State.Inv.hostMove {s : State} (h : s.Inv) (m : HostMove) : (Machine.hostMove m s).Inv := by
  cases m with
  | present p w => exact h.onPort p fun q => { q with valid := true, word := w }
  | withdraw p => exact h.onPort p fun q => { q with valid := false }
  | setCancel p l => exact h.onPort p fun q => { q with cancel := l }
  | writeParam idx d =>
    have hk : (s.ctl.hostWrite s.cfg idx d).Inv s.cfg ∧ (s.ctl.hostWrite s.cfg idx d).cBusy = s.ctl.cBusy := by
      rcases s.ctl.hostWrite_cases s.cfg idx d with ⟨_, he⟩ | ⟨_, he⟩ <;> rw [he]
      · exact ⟨h.ctl, rfl⟩
      · exact ⟨h.ctl.withInputs s.ctl.cmd s.ctl.sensor s.ctl.tick _, rfl⟩
    exact ⟨h.cfgValid, h.video, hk.1, fun hr => ⟨(h.heldIdle hr).1, hk.2.trans (h.heldIdle hr).2⟩⟩
  | videoAnswers as => exact ⟨h.cfgValid, h.video.withInputs s.video.cmd _ s.video.tick, h.ctl, h.heldIdle⟩
  | cciAnswers as => exact ⟨h.cfgValid, h.video, h.ctl.withInputs s.ctl.cmd _ s.ctl.tick s.ctl.params, h.heldIdle⟩
  | setReset level =>
    show (s.driveReset level).Inv
    rcases s.driveReset_cases level with ⟨he, _⟩ | ⟨he, _⟩ <;> rw [he]
    · exact ⟨h.cfgValid, .afterReset h.cfgValid _ _ _ _ _, .afterReset _ _ _ _ _ _, fun _ => ⟨rfl, rfl⟩⟩
    · exact h

end Sys2Proof.Machine
end

