-- ==== Sys2Proof/Laws/Outcomes.lean ====
section
/-! SUPPORT. What `SYNC` and `XFER` hold to while they run and leave when they end, status by status (R200, R202, R325), and what a
fault inside an operation leaves (R325). -/

namespace Sys2Proof.Machine

open Sys2Proof

/-! ## Where another segment is due (R206, R210) -/

/-- What `step1` and `reread` leave, by the level of `cancel_v`. -/
theorem Video.readSlot_outcome (k : Slot) (v : Video) (hop : v.vOp = some .sync ∨ v.vOp = some .xfer) :
    ((v.readSlot k).fb = v.fb ∧ (v.readSlot k).bus = v.bus ∧ (v.readSlot k).resets = v.resets ∧
      (v.readSlot k).invalid = v.invalid ∧ (v.readSlot k).frameValid = v.frameValid) ∧
    (v.cmd.cancel = false → (v.readSlot k).vBusy = v.vBusy ∧ (v.readSlot k).vDone = v.vDone ∧
      (v.readSlot k).vAt = .packet k 0 ∧ (v.readSlot k).fsState = v.fsState ∧ (v.readSlot k).vResets = v.vResets) ∧
    (v.cmd.cancel = true → (v.readSlot k).vBusy = false ∧ (v.readSlot k).vDone = true ∧
      (v.readSlot k).vStatus = .cancelled ∧ (v.readSlot k).fsState = .unsynchronized ∧ (v.readSlot k).vFrames = 0 ∧
      (v.readSlot k).vResets = if v.vOp = some .sync then v.resets else v.vResets) := by
  unfold Video.readSlot
  cases hc : v.cmd.cancel with
  | false => exact ⟨⟨rfl, rfl, rfl, rfl, rfl⟩, fun _ => ⟨rfl, rfl, rfl, rfl, rfl⟩, by simp⟩
  | true =>
    refine ⟨⟨rfl, rfl, rfl, rfl, rfl⟩, by simp, fun _ => ⟨rfl, rfl, rfl, ?_, ?_, ?_⟩⟩ <;>
      rcases hop with h | h <;>
      simp [Video.raise, Video.complete, faultFsState, faultFrames, faultResets, h]

/-! ## A fault inside an operation (R325) -/

/-- Raising one of the three faults makes the columns of R325's table. -/
theorem FaultColumns.ofRaise {f : Status} (v : Video) (hf : f ∈ [Status.ioFault, .discardTimeout, .cancelled]) :
    FaultColumns v (v.raise f) := by
  have hs : f ≠ .syncFailure := by rintro rfl; simp at hf
  have hx : f ≠ .notSynchronized := by rintro rfl; simp at hf
  refine ⟨rfl, rfl, rfl, fun h => ?_, fun h => ?_, fun h h' => ?_⟩
  · simp [Video.raise, Video.complete, h, faultFsState, faultFrames, faultResets, hs]
  · simp [Video.raise, Video.complete, h, faultFsState, faultFrames, faultResets, hx]
  · simp only [Video.raise, Video.complete]
    cases hv : v.vOp with
    | none => simp [faultFsState, faultFrames, faultResets]
    | some o => cases o <;> simp_all [faultFsState, faultFrames, faultResets]

/-! ## SYNC -/

/-- `SYNC` that started with `max_resets = m`: while it runs, and once it has completed. -/
def Video.SyncHolds (c : Cfg) (m : Nat) (v : Video) : Prop :=
  v.maxResets = m ∧
  if v.vBusy then v.vOp = some .sync ∧ v.resets ≤ m ∧ v.invalid ≤ c.invalidLimit ∧ v.frameValid = false
  else v.vDone = true ∧ v.vResets = v.resets ∧
    ((v.vStatus = .ok ∧ v.fsState = .synchronized ∧ v.frameValid = true ∧ v.vFrames = 1 ∧ v.invalid = 0 ∧
        v.vResets ≤ v.maxResets) ∨
      (v.vStatus = .syncFailure ∧ v.fsState = .failed ∧ v.frameValid = false ∧ v.vFrames = 0 ∧
        v.vResets = v.maxResets + 1) ∨
      (v.vStatus = .frameInvalid ∧ v.fsState = .unsynchronized ∧ v.frameValid = false ∧ v.vFrames = 0 ∧
        v.invalid = c.invalidLimit + 1) ∨
      (v.vStatus ∈ [.ioFault, .discardTimeout, .cancelled] ∧ v.fsState = .unsynchronized ∧ v.frameValid = false ∧
        v.vFrames = 0))

variable {c : Cfg} {m : Nat} {v : Video}

theorem Video.SyncHolds.busy (h1 : v.maxResets = m) (hb : v.vBusy = true) (h2 : v.vOp = some .sync)
    (h3 : v.resets ≤ m) (h4 : v.invalid ≤ c.invalidLimit) (h5 : v.frameValid = false) : v.SyncHolds c m := by
  refine ⟨h1, ?_⟩; rw [if_pos hb]; exact ⟨h2, h3, h4, h5⟩

theorem Video.SyncHolds.fault {f : Status} (h1 : v.maxResets = m) (h2 : v.vOp = some .sync)
    (h5 : v.frameValid = false) (hf : f ∈ [Status.ioFault, .discardTimeout, .cancelled]) :
    (v.raise f).SyncHolds c m := by
  refine ⟨h1, ?_⟩
  rw [if_neg (by simp)]
  have hne : f ≠ .syncFailure := by rintro rfl; simp at hf
  refine ⟨rfl, by simp [Video.raise, Video.complete, faultResets, h2], .inr (.inr (.inr ⟨hf, ?_, h5, ?_⟩))⟩
  · simp [Video.raise, Video.complete, faultFsState, h2, hne]
  · simp [Video.raise, Video.complete, faultFrames, h2]

theorem Video.SyncHolds.readSlot (k : Slot) (h1 : v.maxResets = m) (hb : v.vBusy = true) (h2 : v.vOp = some .sync)
    (h3 : v.resets ≤ m) (h4 : v.invalid ≤ c.invalidLimit) (h5 : v.frameValid = false) :
    (v.readSlot k).SyncHolds c m := by
  rcases v.readSlot_cases k with h | h <;> rw [h]
  · exact .fault h1 h2 h5 (by simp)
  · exact .busy h1 hb h2 h3 h4 h5

theorem Video.SyncHolds.afterSegment (s : Slot) (h1 : v.maxResets = m) (hb : v.vBusy = true)
    (h2 : v.vOp = some .sync) (h3 : v.resets ≤ m) (h4 : v.invalid ≤ c.invalidLimit) (h5 : v.frameValid = false) :
    (v.afterSegment c s).SyncHolds c m := by
  rw [Video.afterSegment_sync _ _ h2, Video.syncAfterSegment]
  have seek : v.seekFirst.SyncHolds c m :=
    Video.SyncHolds.readSlot (v := { v with fsState := .seekingFirstSegment }) 0 h1 hb h2 h3 h4 h5
  split
  · unfold Video.syncNext
    split
    · exact Video.SyncHolds.readSlot _ h1 hb h2 h3 h4 h5
    · refine ⟨h1, ?_⟩
      rw [if_neg (by simp)]
      exact ⟨rfl, rfl, .inl ⟨rfl, rfl, rfl, rfl, rfl, by simp [h1, h3]⟩⟩
  · exact .busy h1 hb h2 h3 h4 h5
  · split
    · exact seek
    · unfold Video.staleReread
      simp only
      split
      · rename_i hl
        refine ⟨h1, ?_⟩
        rw [if_neg (by simp)]
        refine ⟨rfl, by simp [Video.raise, Video.complete, faultResets, h2], .inr (.inr (.inl ⟨rfl, ?_, h5, ?_, ?_⟩))⟩
        · simp [Video.raise, Video.complete, faultFsState, h2]
        · simp [Video.raise, Video.complete, faultFrames, h2]
        · simp; omega
      · rename_i hl
        exact Video.SyncHolds.readSlot (v := { v with invalid := v.invalid + 1 }) s h1 hb h2 h3
          (by simp at hl ⊢; omega) h5
  · exact seek

/-- One answer of the outside world. -/
theorem Video.SyncHolds.answer (a : VideoAnswer) (h : v.SyncHolds c m) (hb : v.vBusy = true) :
    (v.answer c a).SyncHolds c m := by
  obtain ⟨h1, h⟩ := h
  rw [if_pos hb] at h
  obtain ⟨h2, h3, h4, h5⟩ := h
  unfold Video.answer
  split
  · exact .busy h1 hb h2 h3 h4 h5
  · rename_i s p hat
    rcases v.packetPass_cases c s p a with ⟨_, he⟩ | ⟨_, _, he⟩ | ⟨_, _, he⟩ <;> rw [he]
    · exact .fault h1 h2 h5 (by simp)
    · rcases Video.skipDiscard_cases c
          ((v.observe (.read 164 164) a.cancel).decodePacket c s p (a.bytes.take 164)) with
        ⟨_, he2⟩ | ⟨_, _, he2⟩ | ⟨_, _, he2⟩ <;> rw [he2]
      · exact .fault h1 h2 h5 (by simp)
      · exact .fault h1 h2 h5 (by simp)
      · exact .busy h1 hb h2 h3 h4 h5
    · rw [Video.afterPacket_segment (v := (v.observe (.read 164 164) a.cancel).decodePacket c s p (a.bytes.take 164))
        c s (.inr (.inl h2)), Video.afterFirstPacket]
      split
      · exact .busy h1 hb h2 h3 h4 h5
      · exact .afterSegment s h1 hb h2 h3 h4 h5
  · rename_i s hat
    rcases v.bulkPass_cases c s a with ⟨_, he⟩ | ⟨_, he⟩ <;> rw [he]
    · exact .fault h1 h2 h5 (by simp)
    · exact .afterSegment s h1 hb h2 h3 h4 h5
  · rw [Video.backoffPass, Video.syncAfterBackoff_eq]
    split
    · rename_i hl
      have hl' : v.maxResets < v.resets + 1 := hl
      refine ⟨h1, ?_⟩
      rw [if_neg (by simp)]
      refine ⟨rfl, by simp [Video.raise, Video.complete, faultResets, h2], .inr (.inl ⟨rfl, ?_, h5, ?_, ?_⟩)⟩
      · simp [Video.raise, Video.complete, faultFsState, h2]
      · simp [Video.raise, Video.complete, faultFrames, h2]
      · simp [Video.raise, Video.complete, faultResets, h2]; omega
    · rename_i hl
      have hl' : ¬ v.maxResets < v.resets + 1 := hl
      exact Video.SyncHolds.readSlot
        (v := { v.observe (.backoff c.backoffMs) a.cancel with resets := v.resets + 1, fsState := .unsynchronized })
        0 h1 hb h2 (by simp; omega) h4 h5

/-- `frame_valid` is 1 only once `SYNC` has completed `Ok` (R31). -/
theorem Video.SyncHolds.risen (h : v.SyncHolds c m) (hf : v.frameValid = true) :
    v.vBusy = false ∧ v.vDone = true ∧ v.vStatus = .ok := by
  obtain ⟨_, h⟩ := h
  cases hb : v.vBusy with
  | true => rw [if_pos hb, hf] at h; simp at h
  | false => rw [if_neg (by simp [hb])] at h; simp [hf] at h; exact ⟨rfl, h.1, h.2.2.1⟩

theorem Video.SyncHolds.run (h : v.SyncHolds c m) : (v.run c).SyncHolds c m :=
  Video.run_induct (P := Video.SyncHolds c m) (fun _ a h hb => h.answer a hb) (fun _ _ h => h) h

/-- A later turn of `SYNC`, from a state of the invariant. -/
theorem Video.SyncHolds.resume (h : v.Inv c) (hb : v.vBusy = true) (ho : v.vOp = some .sync) :
    (v.resume c).SyncHolds c v.maxResets := by
  obtain ⟨as, n, he⟩ := Video.resume_form c hb
  rw [he]
  exact Video.runOver_induct (P := Video.SyncHolds c v.maxResets) (fun _ a h hb => h.answer a hb) (fun _ _ h => h) as _
    (.busy (v := { v with tick := n }) rfl hb ho (h.syncResets ho) (h.invalidWithinLimit (.inr ho))
      (h.frameInvalidWhileBusy hb))

/-! ## XFER -/

/-- `XFER` that started in `Synchronized` with `resets = r` and `v_resets = vr`: while it runs, and once it has
completed. -/
def Video.XferHolds (r vr : Nat) (v : Video) : Prop :=
  v.resets = r ∧ v.vResets = vr ∧
  if v.vBusy then v.vOp = some .xfer ∧ v.frameValid = false ∧ v.fsState = .synchronized ∧ v.vAt ≠ .backoff
  else v.vDone = true ∧
    ((v.vStatus = .ok ∧ v.fsState = .synchronized ∧ v.frameValid = true ∧ v.vFrames = 1 ∧ v.invalid = 0) ∨
      (v.vStatus ∈ [.ioFault, .discardTimeout, .cancelled, .frameInvalid] ∧ v.fsState = .unsynchronized ∧
        v.frameValid = false ∧ v.vFrames = 0))

variable {r vr : Nat}

theorem Video.XferHolds.busy (h1 : v.resets = r) (h1' : v.vResets = vr) (hb : v.vBusy = true)
    (h2 : v.vOp = some .xfer) (h5 : v.frameValid = false) (h6 : v.fsState = .synchronized) (h7 : v.vAt ≠ .backoff) :
    v.XferHolds r vr := by
  refine ⟨h1, h1', ?_⟩; rw [if_pos hb]; exact ⟨h2, h5, h6, h7⟩

theorem Video.XferHolds.fault {f : Status} (h1 : v.resets = r) (h1' : v.vResets = vr) (h2 : v.vOp = some .xfer)
    (h5 : v.frameValid = false) (hf : f ∈ [Status.ioFault, .discardTimeout, .cancelled, .frameInvalid]) :
    (v.raise f).XferHolds r vr := by
  refine ⟨h1, by simp [Video.raise, Video.complete, faultResets, h2, h1'], ?_⟩
  rw [if_neg (by simp)]
  have hne : f ≠ .notSynchronized := by rintro rfl; simp at hf
  refine ⟨rfl, .inr ⟨hf, ?_, h5, ?_⟩⟩
  · simp [Video.raise, Video.complete, faultFsState, h2, hne]
  · simp [Video.raise, Video.complete, faultFrames, h2]

theorem Video.XferHolds.readSlot (k : Slot) (h1 : v.resets = r) (h1' : v.vResets = vr) (hb : v.vBusy = true)
    (h2 : v.vOp = some .xfer) (h5 : v.frameValid = false) (h6 : v.fsState = .synchronized) :
    (v.readSlot k).XferHolds r vr := by
  rcases v.readSlot_cases k with h | h <;> rw [h]
  · exact .fault h1 h1' h2 h5 (by simp)
  · exact .busy h1 h1' hb h2 h5 h6 (by simp)

theorem Video.XferHolds.afterSegment (c : Cfg) (s : Slot) (h1 : v.resets = r) (h1' : v.vResets = vr)
    (hb : v.vBusy = true) (h2 : v.vOp = some .xfer) (h5 : v.frameValid = false) (h6 : v.fsState = .synchronized) :
    (v.afterSegment c s).XferHolds r vr := by
  rw [Video.afterSegment_xfer _ _ h2, Video.xferAfterSegment]
  split
  · unfold Video.xferNext
    split
    · exact Video.XferHolds.readSlot _ h1 h1' hb h2 h5 h6
    · refine ⟨h1, h1', ?_⟩
      rw [if_neg (by simp)]
      exact ⟨rfl, .inl ⟨rfl, h6, rfl, rfl, rfl⟩⟩
  · unfold Video.staleReread
    simp only
    split
    · exact Video.XferHolds.fault (v := { v with invalid := v.invalid + 1 }) h1 h1' h2 h5 (by simp)
    · exact Video.XferHolds.readSlot (v := { v with invalid := v.invalid + 1 }) s h1 h1' hb h2 h5 h6
  · exact .fault h1 h1' h2 h5 (by simp)
  · exact .fault h1 h1' h2 h5 (by simp)

/-- One answer of the outside world. -/
theorem Video.XferHolds.answer (c : Cfg) (a : VideoAnswer) (h : v.XferHolds r vr) (hb : v.vBusy = true) :
    (v.answer c a).XferHolds r vr := by
  obtain ⟨h1, h1', h⟩ := h
  rw [if_pos hb] at h
  obtain ⟨h2, h5, h6, h7⟩ := h
  unfold Video.answer
  split
  · exact .busy h1 h1' hb h2 h5 h6 h7
  · rename_i s p hat
    rcases v.packetPass_cases c s p a with ⟨_, he⟩ | ⟨_, _, he⟩ | ⟨_, _, he⟩ <;> rw [he]
    · exact .fault h1 h1' h2 h5 (by simp)
    · rcases Video.skipDiscard_cases c
          ((v.observe (.read 164 164) a.cancel).decodePacket c s p (a.bytes.take 164)) with
        ⟨_, he2⟩ | ⟨_, _, he2⟩ | ⟨_, _, he2⟩ <;> rw [he2]
      · exact .fault h1 h1' h2 h5 (by simp)
      · exact .fault h1 h1' h2 h5 (by simp)
      · exact .busy h1 h1' hb h2 h5 h6 h7
    · rw [Video.afterPacket_segment (v := (v.observe (.read 164 164) a.cancel).decodePacket c s p (a.bytes.take 164))
        c s (.inr (.inr h2)), Video.afterFirstPacket]
      split
      · exact .busy h1 h1' hb h2 h5 h6 (by simp)
      · exact .afterSegment c s h1 h1' hb h2 h5 h6
  · rename_i s hat
    rcases v.bulkPass_cases c s a with ⟨_, he⟩ | ⟨_, he⟩ <;> rw [he]
    · exact .fault h1 h1' h2 h5 (by simp)
    · exact .afterSegment c s h1 h1' hb h2 h5 h6
  · rename_i hat; exact absurd hat h7

/-- `frame_valid` is 1 only once `XFER` has completed `Ok` (R31). -/
theorem Video.XferHolds.risen (h : v.XferHolds r vr) (hf : v.frameValid = true) :
    v.vBusy = false ∧ v.vDone = true ∧ v.vStatus = .ok := by
  obtain ⟨_, _, h⟩ := h
  cases hb : v.vBusy with
  | true => rw [if_pos hb, hf] at h; simp at h
  | false => rw [if_neg (by simp [hb])] at h; simp [hf] at h; exact ⟨rfl, h.1, h.2.1⟩

theorem Video.XferHolds.run (c : Cfg) (h : v.XferHolds r vr) : (v.run c).XferHolds r vr :=
  Video.run_induct (P := Video.XferHolds r vr) (fun _ a h hb => h.answer c a hb) (fun _ _ h => h) h

/-- A later turn of `XFER`, from a state of the invariant. -/
theorem Video.XferHolds.resume (h : v.Inv c) (hb : v.vBusy = true) (ho : v.vOp = some .xfer) :
    (v.resume c).XferHolds v.resets v.vResets := by
  obtain ⟨as, n, he⟩ := Video.resume_form c hb
  have hl := h.atLegal
  rw [he]
  exact Video.runOver_induct (P := Video.XferHolds v.resets v.vResets) (fun _ a h hb => h.answer c a hb) (fun _ _ h => h)
    as _ (.busy (v := { v with tick := n }) rfl rfl hb ho (h.frameInvalidWhileBusy hb) (h.xferState ho) fun hat => by
      simp only [VideoAtLegal, show v.vAt = .backoff from hat, ho] at hl; simp at hl)

end Sys2Proof.Machine
end

