-- ==== Sys2Proof/Laws/PerInstr.lean ====
section
/-! SUPPORT. What holds of every operation as syntax, one lemma per constructor. Family `EncodeOp`: the code that stands in
the encoded word is the operation's own code of R130. -/

namespace Sys2Proof.Laws.EncodeOp

open Sys2Proof

/-- The operation code field of the encoded word is the code R130 gives the operation. -/
def Statement (i : Instr) : Prop := opField (encode i) = i.opcode

theorem cfgSession (tlm : Bool) : Statement (.cfgSession tlm) :=
  opField_encodeWord (by simp [Instr.opcode]) (by omega) (by have := Bool.toNat_lt tlm; omega)
theorem rdPkt (s : Slot) (p : Nat) : Statement (.rdPkt s p) :=
  opField_encodeWord (by simp [Instr.opcode]) (encodeS_lt s p) (by omega)
theorem rdSeg (s : Slot) (p : Nat) : Statement (.rdSeg s p) :=
  opField_encodeWord (by simp [Instr.opcode]) (encodeS_lt s p) (by omega)
theorem sync : Statement .sync := opField_encodeWord (by simp [Instr.opcode]) (by omega) (by omega)
theorem xfer : Statement .xfer := opField_encodeWord (by simp [Instr.opcode]) (by omega) (by omega)
theorem setMaxResets (value : Word) : Statement (.setMaxResets value) :=
  opField_encodeWord (by simp [Instr.opcode]) (by omega) value.isLt
theorem tlmDec (s : Slot) (p : Nat) : Statement (.tlmDec s p) :=
  opField_encodeWord (by simp [Instr.opcode]) (encodeS_lt s p) (by omega)
theorem regWr (addr value : Word) : Statement (.regWr addr value) :=
  opField_encodeWord (by simp [Instr.opcode]) addr.isLt value.isLt
theorem regRd (addr : Word) : Statement (.regRd addr) :=
  opField_encodeWord (by simp [Instr.opcode]) addr.isLt (by omega)
theorem cciCmd (opc : Word) (np nr : Nat) : Statement (.cciCmd opc np nr) :=
  opField_encodeWord (by simp [Instr.opcode]) opc.isLt (encodeG_lt np nr)
theorem runFfc : Statement .runFfc := opField_encodeWord (by simp [Instr.opcode]) (by omega) (by omega)
theorem getUptime : Statement .getUptime := opField_encodeWord (by simp [Instr.opcode]) (by omega) (by omega)
theorem getTlmEn : Statement .getTlmEn := opField_encodeWord (by simp [Instr.opcode]) (by omega) (by omega)
theorem setTlmEn (value : Word) : Statement (.setTlmEn value) :=
  opField_encodeWord (by simp [Instr.opcode]) (by omega) value.isLt
theorem getTlmLoc : Statement .getTlmLoc := opField_encodeWord (by simp [Instr.opcode]) (by omega) (by omega)
theorem setTlmLoc (value : Word) : Statement (.setTlmLoc value) :=
  opField_encodeWord (by simp [Instr.opcode]) (by omega) value.isLt
theorem getAgcEn : Statement .getAgcEn := opField_encodeWord (by simp [Instr.opcode]) (by omega) (by omega)
theorem setAgcEn (value : Word) : Statement (.setAgcEn value) :=
  opField_encodeWord (by simp [Instr.opcode]) (by omega) value.isLt

end Sys2Proof.Laws.EncodeOp
end

