-- ==== Sys2Proof/Laws/Segment.lean ====
section
/-! SUPPORT. The video engine over a script of answers: the packet loop over its discards, one whole `ReadSegment`, and the
anchor it leaves to check. -/

namespace Sys2Proof.Machine

open Sys2Proof

/-! ## Wire bytes -/

theorem wireId_take {n : Nat} (w : List Byte) (h : 2 ≤ n) : wireId (w.take n) = wireId w := by
  obtain ⟨m, rfl⟩ : ∃ m, n = m + 2 := ⟨n - 2, by omega⟩
  rcases w with _ | ⟨x, _ | ⟨y, w⟩⟩ <;> simp [wireId]

theorem tooManySkips_false {c : Cfg} {n : Nat} (h : ∀ bound, c.maxDiscardSkips = some bound → n ≤ bound) :
    tooManySkips c n = false := by
  unfold tooManySkips
  cases hb : c.maxDiscardSkips with
  | none => rfl
  | some bound => simpa using h bound hb

/-! ## The lengths of a script as numbers -/

theorem DiscardAnswer.whole' {c : Cfg} {d : VideoAnswer} (h : DiscardAnswer c d) : 164 ≤ d.bytes.length := by
  simpa using h.whole

theorem Segment.Readable.firstWhole' {c : Cfg} {n : Nat} {g : Segment} (h : g.Readable c n) :
    164 ≤ g.first.bytes.length := by
  simpa using h.firstWhole

theorem Segment.Readable.bulkWhole' {c : Cfg} {n : Nat} {g : Segment} (h : g.Readable c n) :
    164 * (n - 1) ≤ g.bulk.bytes.length := by
  simpa using h.bulkWhole

/-! ## Discard packets -/

/-- The video side after one discard packet has been read into entry `p` of slot `s` and skipped (R152). -/
def Video.skipOne (c : Cfg) (s : Slot) (p : Nat) (v : Video) (d : VideoAnswer) : Video :=
  { ((v.observe (.read 164 164) d.cancel).decodePacket c s p (d.bytes.take 164)) with skips := v.skips + 1 }

/-- The video side after a run of discard packets. -/
def Video.afterDiscards (c : Cfg) (s : Slot) (p : Nat) (ds : List VideoAnswer) (v : Video) : Video :=
  ds.foldl (Video.skipOne c s p) v

theorem Video.answer_discard {c : Cfg} {s : Slot} {p : Nat} {v : Video} {d : VideoAnswer} (hat : v.vAt = .packet s p)
    (hd : DiscardAnswer c d) (hb : ∀ bound, c.maxDiscardSkips = some bound → v.skips + 1 ≤ bound) :
    v.answer c d = v.skipOne c s p d := by
  have hw : 164 ≤ d.bytes.length := hd.whole'
  simp only [Video.answer, hat, Video.skipOne]
  rw [Video.packetPass_discard c s p v hw (by rw [wireId_take _ (by omega)]; exact hd.discard)]
  simp only [Video.skipDiscard, Video.decodePacket_skips, Video.observe_skips, tooManySkips_false hb,
    Video.decodePacket_cmd, Video.observe_cmd, hd.noCancel, Bool.false_eq_true, if_false]

theorem Video.afterDiscards_cons (c : Cfg) (s : Slot) (p : Nat) (d : VideoAnswer) (ds : List VideoAnswer) (v : Video) :
    v.afterDiscards c s p (d :: ds) = (v.skipOne c s p d).afterDiscards c s p ds := rfl

/-- What a run of discard packets leaves alone. -/
theorem Video.afterDiscards_facts (c : Cfg) (s : Slot) (p : Nat) : ∀ (ds : List VideoAnswer) (v : Video),
    (v.afterDiscards c s p ds).vAt = v.vAt ∧ (v.afterDiscards c s p ds).vBusy = v.vBusy ∧
    (v.afterDiscards c s p ds).vOp = v.vOp ∧ (v.afterDiscards c s p ds).skips = v.skips + ds.length
  | [], v => ⟨rfl, rfl, rfl, rfl⟩
  | d :: ds, v => by
    obtain ⟨h1, h2, h3, h4⟩ := Video.afterDiscards_facts c s p ds (v.skipOne c s p d)
    refine ⟨h1, h2, h3, ?_⟩
    rw [Video.afterDiscards_cons, h4]; simp [Video.skipOne]; omega

/-- The packet loop over a run of discard packets within the bound (R152, R153). -/
theorem Video.runOver_discards {c : Cfg} {s : Slot} {p : Nat} (as : List VideoAnswer) :
    ∀ (ds : List VideoAnswer) (v : Video), v.vAt = .packet s p → v.vBusy = true → (∀ d ∈ ds, DiscardAnswer c d) →
      (∀ bound, c.maxDiscardSkips = some bound → v.skips + ds.length ≤ bound) →
      Video.runOver c (ds ++ as) v = Video.runOver c as (v.afterDiscards c s p ds)
  | [], _, _, _, _, _ => rfl
  | d :: ds, v, hat, hb, hd, hn => by
    rw [List.cons_append, Video.runOver_busy c d _ v hb,
      Video.answer_discard hat (hd d (List.mem_cons_self ..)) (fun b h => by
        have := hn b h; simp only [List.length_cons] at this; omega)]
    exact Video.runOver_discards as ds (v.skipOne c s p d) hat hb (fun d' h => hd d' (List.mem_cons_of_mem _ h))
      (fun b h => by have := hn b h; simp only [List.length_cons] at this; simp only [Video.skipOne]; omega)

/-- Reading the discards and then one more packet into the same entry: the discards leave nothing in the frame buffer
(R153). -/
theorem Video.afterDiscards_then (c : Cfg) (s : Slot) (p : Nat) {w : List Byte} (hw : w.length = 164) (cancel : Bool)
    (x : VideoXact) : ∀ (ds : List VideoAnswer) (v : Video), (∀ d ∈ ds, DiscardAnswer c d) →
    ((v.afterDiscards c s p ds).observe x cancel).decodePacket c s p w =
      { v with
        cmd := { v.cmd with cancel := cancel }
        fb := v.fb.write (fbAddr c s p 0) (entryBytes c w)
        skips := v.skips + ds.length
        bus := v.bus ++ (List.replicate ds.length (.read 164 164) ++ [x]) }
  | [], v, _ => by simp [Video.afterDiscards, Video.observe, Video.decodePacket]
  | d :: ds, v, hd => by
    have hlen : (d.bytes.take 164).length = 164 := by
      have := (hd d (List.mem_cons_self ..)).whole'
      simp; omega
    rw [Video.afterDiscards_cons, Video.afterDiscards_then c s p hw cancel x ds (v.skipOne c s p d)
      (fun d' h => hd d' (List.mem_cons_of_mem _ h))]
    simp only [Video.skipOne, Video.decodePacket_cmd, Video.observe_cmd, Video.decodePacket_fb, Video.observe_fb,
      Video.decodePacket_bus, Video.observe_bus, List.length_cons]
    rw [write_write _ _ _ _ (by rw [entryBytes_length c hlen, entryBytes_length c hw])]
    simp [Video.decodePacket, Video.observe, List.replicate_succ, Nat.add_assoc, Nat.add_comm 1]

/-- The video side after a packet read of the loop that met the discards `ds` and then the packet `a`. -/
def Video.gotPacket (c : Cfg) (s : Slot) (p : Nat) (ds : List VideoAnswer) (a : VideoAnswer) (v : Video) : Video :=
  { v with
    cmd := { v.cmd with cancel := a.cancel }
    fb := v.fb.write (fbAddr c s p 0) (entryBytes c (a.bytes.take 164))
    skips := v.skips + ds.length
    bus := v.bus ++ List.replicate (ds.length + 1) (.read 164 164) }

/-- One packet read of the loop after its discards, in a state in which the engine waits for a packet (R152). -/
theorem Video.runOver_packet {c : Cfg} {s : Slot} {p : Nat} {v : Video} {ds : List VideoAnswer} {a : VideoAnswer}
    (as : List VideoAnswer) (hat : v.vAt = .packet s p) (hb : v.vBusy = true) (hd : ∀ d ∈ ds, DiscardAnswer c d)
    (hn : ∀ bound, c.maxDiscardSkips = some bound → v.skips + ds.length ≤ bound) (hw : 164 ≤ a.bytes.length)
    (hv : isDiscard c (wireId a.bytes) = false) :
    Video.runOver c (ds ++ a :: as) v = Video.runOver c as ((v.gotPacket c s p ds a).afterPacket c s) := by
  obtain ⟨h1, h2, _, _⟩ := Video.afterDiscards_facts c s p ds v
  rw [Video.runOver_discards (a :: as) ds v hat hb hd hn, Video.runOver_busy c a as _ (h2.trans hb)]
  congr 1
  rw [Video.answer, h1, hat]
  simp only
  rw [Video.packetPass_valid c s p _ hw (by rw [wireId_take _ (by omega)]; exact hv),
    Video.afterDiscards_then c s p (by simp; omega) a.cancel _ ds v hd]
  simp [Video.gotPacket, List.replicate_succ', hat]

/-! ## One segment -/

/-- The video side after `ReadSegment(s)` has read the segment `g` of `n` packets. -/
def Video.afterRead (c : Cfg) (s : Slot) (n : Nat) (g : Segment) (v : Video) : Video :=
  { v with
    cmd := { v.cmd with cancel := g.cancel n }
    fb := g.stored c s n v.fb
    skips := g.discards.length
    bus := v.bus ++ g.reads c n
    vAt := if 1 < n then .bulk s else .packet s 0 }

/-- A whole bulk read (R171). -/
theorem Video.runOver_bulk {c : Cfg} {s : Slot} {v : Video} {a : VideoAnswer} (as : List VideoAnswer)
    (hat : v.vAt = .bulk s) (hb : v.vBusy = true) (hw : v.bulkLen c s ≤ a.bytes.length) :
    Video.runOver c (a :: as) v = Video.runOver c as
      (((v.observe (.read (v.bulkLen c s) (v.bulkLen c s)) a.cancel).storeBulk c s
        (a.bytes.take (v.bulkLen c s))).afterSegment c s) := by
  rw [Video.runOver_busy c a as v hb, Video.answer, hat]
  simp only
  rw [Video.bulkPass_full c s v hw]

/-- `ReadSegment(s)` over a segment it can read (R171). -/
theorem Video.runOver_segment {c : Cfg} {s : Slot} {v : Video} {g : Segment} {n : Nat} (as : List VideoAnswer)
    (hat : v.vAt = .packet s 0) (hb : v.vBusy = true) (hop : ReadsSegments v.vOp) (hsk : v.skips = 0)
    (hc : v.count s = n) (hg : g.Readable c n) :
    Video.runOver c (g.answers n ++ as) v = Video.runOver c as ((v.afterRead c s n g).afterSegment c s) := by
  have hfw := hg.firstWhole'
  have hpk : ∀ v' : Video, v'.vOp = v.vOp → v'.afterPacket c s = v'.afterFirstPacket c s := fun v' h =>
    Video.afterPacket_segment c s (h ▸ hop)
  rw [Segment.answers, List.append_assoc, List.cons_append,
    Video.runOver_packet _ hat hb hg.discards (fun b h => by have := hg.bounded b h; omega) hfw hg.firstValid,
    hpk (v.gotPacket c s 0 g.discards g.first) rfl, Video.afterFirstPacket]
  have hcount : ∀ v' : Video, v'.pktCount = v.pktCount → v'.count s = n := fun v' h => by
    rw [← hc]; simp [Video.count, h]
  rw [hcount (v.gotPacket c s 0 g.discards g.first) rfl]
  by_cases h1 : 1 < n
  · have hbw := hg.bulkWhole'
    simp only [h1, if_true, List.cons_append, List.nil_append]
    have hcg : v.pktCount.get s = n := hc
    have hlen : Video.bulkLen c { v.gotPacket c s 0 g.discards g.first with vAt := .bulk s } s = 164 * (n - 1) := by
      simp [Video.bulkLen, Video.count, Video.gotPacket, hcg]
    refine (Video.runOver_bulk (v := { v.gotPacket c s 0 g.discards g.first with vAt := .bulk s }) as rfl hb
      (by rw [hlen]; exact hbw)).trans ?_
    rw [hlen]
    congr 2
    simp [Video.storeBulk, Video.count, hcg, Video.observe, Video.gotPacket, Video.afterRead, Segment.cancel, Segment.stored, Segment.reads, h1, hsk]
  · simp only [h1, if_false, List.nil_append]
    congr 2
    simp [Video.gotPacket, Video.afterRead, Segment.cancel, Segment.stored, Segment.reads, h1, hsk, hat]

/-! ## The anchor of a segment just read -/

theorem wireId_drop_take (w : List Byte) {j m : Nat} (h : j + 164 ≤ m) :
    wireId (((w.take m).drop j).take 164) = wireId (w.drop j) := by
  rw [wireId_take _ (by omega), List.drop_take, wireId_take _ (by omega)]

/-- The identifier at the anchor of the slot just read is the one the segment carries there. -/
theorem Video.entryId_afterRead {c : Cfg} {s : Slot} {v : Video} {g : Segment} {n : Nat} (hg : g.Readable c n)
    (ha : c.anchor < n) : (v.afterRead c s n g).entryId c s c.anchor = g.anchorId c := by
  have hfw := hg.firstWhole'
  have hbw := hg.bulkWhole'
  have hfl : (g.first.bytes.take 164).length = 164 := by simp; omega
  have hel := entryBytes_length c hfl
  by_cases h1 : 1 < n
  · have hbl : (g.bulk.bytes.take (164 * (n - 1))).length = 164 * (n - 1) := by simp; omega
    have hkl := bulkBytes_length c _ _ hbl
    cases hA : c.anchor with
    | zero =>
      simp only [Segment.anchorId, hA, if_true, Video.entryId, Video.fbByte, Video.afterRead, Segment.stored, h1,
        Cfg.packetBytes_eq, fbAddr_eq c s 0 1]
      have hlt : fbAddr c s 0 0 + 164 = fbAddr c s 1 0 := by simp [fbAddr]; omega
      rw [read_write_outside _ _ _ (.inl (by omega)), read_write_inside _ _ _ (by omega),
        read_write_outside _ _ _ (.inl (by omega)), read_write_first _ _ _ (by omega), entryBytes_zero, entryBytes_one,
        wireId_take _ (by omega)]
      simp
    | succ j =>
      simp only [Segment.anchorId, hA, Video.entryId, Video.fbByte, Video.afterRead, Segment.stored, h1, if_true,
        Cfg.packetBytes_eq, Nat.add_sub_cancel, fbAddr_bulk c s j 0, fbAddr_bulk c s j 1, Nat.succ_ne_zero, if_false]
      rw [read_write_inside _ _ _ (by omega), read_write_inside _ _ _ (by omega),
        bulkBytes_get _ _ _ _ _ hbl (by omega) (by omega), bulkBytes_get _ _ _ _ _ hbl (by omega) (by omega),
        entryBytes_zero, entryBytes_one, wireId_drop_take _ (by omega)]
      simp
  · have hA : c.anchor = 0 := by omega
    simp only [Segment.anchorId, hA, if_true, Video.entryId, Video.fbByte, Video.afterRead, Segment.stored, h1,
      if_false, Cfg.packetBytes_eq, fbAddr_eq c s 0 1]
    rw [read_write_inside _ _ _ (by omega), read_write_first _ _ _ (by omega), entryBytes_zero, entryBytes_one,
      wireId_take _ (by omega)]
    simp

theorem Video.checkAnchor_afterRead {c : Cfg} {s : Slot} {v : Video} {g : Segment} {n : Nat} (hg : g.Readable c n)
    (ha : c.anchor < n) :
    (v.afterRead c s n g).checkAnchor c s = anchorOutcome c s (g.anchorId c) := by
  rw [Video.checkAnchor, Video.entryId_afterRead hg ha]

theorem anchorOutcome_matched {c : Cfg} {s : Slot} {id : Word} (hl : lineOf id = c.anchor) (ht : tttOf id = s.val + 1) :
    anchorOutcome c s id = .matched := by
  simp [anchorOutcome, hl, ht]

theorem anchorOutcome_misaligned {c : Cfg} {s : Slot} {id : Word} (hl : lineOf id ≠ c.anchor) :
    anchorOutcome c s id = .misaligned := by
  simp [anchorOutcome, hl]

/-- At slot 0 an aligned anchor whose TTT is not 1 is stale or of another segment. -/
theorem anchorOutcome_seek {c : Cfg} {id : Word} (hl : lineOf id = c.anchor) (ht : tttOf id ≠ 1) :
    anchorOutcome c 0 id = .stale ∨ anchorOutcome c 0 id = .wrongSegment := by
  by_cases h0 : tttOf id = 0
  · left; simp [anchorOutcome, hl, h0]
  · right; simpa [anchorOutcome, hl, h0] using ht

/-! ## SYNC over a script -/

/-- `SYNC` waits for packet 0 of slot `k`, cancel low, in a session with `n` packets per segment. -/
structure Video.SyncAt (n : Nat) (k : Slot) (v : Video) : Prop where
  at_ : v.vAt = .packet k 0
  busy : v.vBusy = true
  op : v.vOp = some .sync
  skips : v.skips = 0
  seg : v.seg = k.val
  counts : ∀ j, v.count j = n

theorem Video.SyncAt.run {c : Cfg} {n : Nat} {k : Slot} {v : Video} {g : Segment} (h : v.SyncAt n k)
    (as : List VideoAnswer) (hg : g.Readable c n) :
    Video.runOver c (g.answers n ++ as) v = Video.runOver c as ((v.afterRead c k n g).syncAfterSegment c k) := by
  rw [Video.runOver_segment as h.at_ h.busy (.inr (.inl h.op)) h.skips (h.counts k) hg,
    Video.afterSegment_sync c k (show (v.afterRead c k n g).vOp = some .sync from h.op)]

theorem Video.readSlot_go (k : Slot) (v : Video) (h : v.cmd.cancel = false) :
    v.readSlot k = ({ v with seg := k.val } : Video).startPacket k 0 := by
  simp [Video.readSlot, h]

/-- An attempt that misses goes back to `step1` (R193, R195). -/
theorem Video.SyncAt.missed {c : Cfg} {n : Nat} {v : Video} {t : Attempt} (h : v.SyncAt n 0) (as : List VideoAnswer)
    (ht : t.Missed c n) (ha : c.anchor < n)
    (hr : t.backoff.isSome = true → v.resets + 1 ≤ v.maxResets) :
    ∃ v' : Video, Video.runOver c (t.answers n ++ as) v = Video.runOver c as v' ∧ v'.SyncAt n 0 ∧
      v' = { v with
        cmd := { v.cmd with cancel := false }
        fb := t.seg.stored c 0 n v.fb
        fsState := if t.backoff.isSome then .unsynchronized else .seekingFirstSegment
        resets := v.resets + (if t.backoff.isSome then 1 else 0)
        bus := v.bus ++ attemptBus c n [t] } := by
  obtain ⟨hg, hm⟩ := ht
  have hrun := fun as => h.run as hg
  have hchk := Video.checkAnchor_afterRead (v := v) (s := 0) hg ha
  cases hb : t.backoff with
  | none =>
    rw [hb] at hm
    obtain ⟨hl, htt, hcan⟩ := hm
    have hseek : (v.afterRead c 0 n t.seg).syncAfterSegment c 0 = (v.afterRead c 0 n t.seg).seekFirst := by
      rw [Video.syncAfterSegment, hchk]
      rcases anchorOutcome_seek hl (by simpa using htt) with h' | h' <;> simp [h']
    refine ⟨(v.afterRead c 0 n t.seg).seekFirst, ?_, ?_, ?_⟩
    · simp only [Attempt.answers, hb, Option.toList, List.append_nil]
      rw [hrun as, hseek]
    · rw [Video.seekFirst, Video.readSlot_go _ _ hcan]
      exact ⟨rfl, h.busy, h.op, rfl, rfl, h.counts⟩
    · rw [Video.seekFirst, Video.readSlot_go _ _ hcan]
      simp [Video.startPacket, Video.afterRead, attemptBus, hb, hcan, h.skips, h.at_, h.seg]
  | some b =>
    rw [hb] at hm
    obtain ⟨hl, hcan⟩ := hm
    have hres : v.resets + 1 ≤ v.maxResets := hr (by simp [hb])
    have hmis : (v.afterRead c 0 n t.seg).syncAfterSegment c 0 =
        { v.afterRead c 0 n t.seg with vAt := .backoff } := by
      rw [Video.syncAfterSegment, hchk, anchorOutcome_misaligned hl]
    have hback : Video.answer c b { v.afterRead c 0 n t.seg with vAt := .backoff } =
        Video.startPacket 0 0 { (Video.observe (.backoff c.backoffMs) b.cancel
          { v.afterRead c 0 n t.seg with vAt := .backoff }) with
          resets := v.resets + 1, fsState := .unsynchronized, seg := 0 } := by
      rw [Video.answer]
      simp only [Video.backoffPass]
      rw [Video.syncAfterBackoff_eq, if_neg (by simp [Video.afterRead]; omega), Video.readSlot_go _ _ hcan]
      rfl
    refine ⟨Video.startPacket 0 0 { (Video.observe (.backoff c.backoffMs) b.cancel
      { v.afterRead c 0 n t.seg with vAt := .backoff }) with
      resets := v.resets + 1, fsState := .unsynchronized, seg := 0 }, ?_, ?_, ?_⟩
    · simp only [Attempt.answers, hb, Option.toList, List.append_assoc]
      rw [hrun, hmis, List.cons_append, List.nil_append]
      exact (Video.runOver_busy c b as { v.afterRead c 0 n t.seg with vAt := .backoff } h.busy).trans (by rw [hback])
    · exact ⟨rfl, h.busy, h.op, rfl, rfl, h.counts⟩
    · simp [Video.startPacket, Video.observe, Video.afterRead, attemptBus, hb, hcan, h.skips, h.at_, h.seg]

/-- Any run of attempts that stays within `max_resets` ends at `step1` again (R193, R195). -/
theorem Video.SyncAt.attempts {c : Cfg} {n : Nat} (ha : c.anchor < n) (as : List VideoAnswer) :
    ∀ (ts : List Attempt) (v : Video), v.SyncAt n 0 → v.cmd.cancel = false → (∀ t ∈ ts, t.Missed c n) →
      v.resets + misalignments ts ≤ v.maxResets →
      ∃ v' : Video, Video.runOver c (ts.flatMap (Attempt.answers n) ++ as) v = Video.runOver c as v' ∧ v'.SyncAt n 0 ∧
        v' = { v with
          cmd := { v.cmd with cancel := false }
          fb := attemptStored c n ts v.fb
          fsState := v'.fsState
          resets := v.resets + misalignments ts
          bus := v.bus ++ attemptBus c n ts }
  | [], v, h, hcan, _, _ => ⟨v, rfl, h, by simp [attemptStored, misalignments, attemptBus, ← hcan]⟩
  | t :: ts, v, h, hcan, hm, hr => by
    have hcons : misalignments (t :: ts) = misalignments ts + if t.backoff.isSome then 1 else 0 := by
      simp [misalignments, List.countP_cons]
    obtain ⟨v1, hrun, hat, hv1⟩ := h.missed (ts.flatMap (Attempt.answers n) ++ as) (hm t (List.mem_cons_self ..)) ha
      (fun hb => by rw [hcons, hb] at hr; simp at hr; omega)
    have hres : v1.resets = v.resets + if t.backoff.isSome then 1 else 0 := by rw [hv1]
    have hmax : v1.maxResets = v.maxResets := by rw [hv1]
    obtain ⟨v2, hrun2, hat2, hv2⟩ := Video.SyncAt.attempts ha as ts v1 hat (by rw [hv1])
      (fun t' ht' => hm t' (List.mem_cons_of_mem _ ht')) (by rw [hres, hmax]; omega)
    refine ⟨v2, ?_, hat2, ?_⟩
    · rw [List.flatMap_cons, List.append_assoc, hrun, hrun2]
    · rw [hv2, hv1, hcons]
      have hbus : attemptBus c n (t :: ts) = attemptBus c n [t] ++ attemptBus c n ts := by simp [attemptBus]
      rw [hbus]
      simp only [attemptStored, List.foldl_cons, List.append_assoc]
      congr 1
      omega

/-- The misalignment that exceeds `max_resets` ends `SYNC` (R193, R194). -/
theorem Video.SyncAt.fails {c : Cfg} {n : Nat} {v : Video} {g : Segment} {b : VideoAnswer} (h : v.SyncAt n 0)
    (as : List VideoAnswer) (hg : g.Readable c n) (ha : c.anchor < n) (hl : lineOf (g.anchorId c) ≠ c.anchor)
    (hr : v.resets = v.maxResets) :
    Video.runOver c (g.answers n ++ b :: as) v =
      { v with
        cmd := { v.cmd with cancel := b.cancel }
        sensor := as
        fb := g.stored c 0 n v.fb
        fsState := .failed
        resets := v.maxResets + 1
        skips := g.discards.length
        vFrames := 0
        vResets := v.maxResets + 1
        vStatus := .syncFailure
        vDone := true
        vBusy := false
        vOp := none
        vAt := .idle
        seg := 0
        bus := v.bus ++ (g.reads c n ++ [.backoff c.backoffMs]) } := by
  have hmis : (v.afterRead c 0 n g).syncAfterSegment c 0 = { v.afterRead c 0 n g with vAt := .backoff } := by
    rw [Video.syncAfterSegment, Video.checkAnchor_afterRead hg ha, anchorOutcome_misaligned hl]
  have hback : Video.answer c b { v.afterRead c 0 n g with vAt := .backoff } =
      Video.raise .syncFailure { (Video.observe (.backoff c.backoffMs) b.cancel
        { v.afterRead c 0 n g with vAt := .backoff }) with
        resets := v.resets + 1, fsState := .unsynchronized } := by
    rw [Video.answer]
    simp only [Video.backoffPass]
    rw [Video.syncAfterBackoff_eq, if_pos (by simp [Video.afterRead]; omega)]
    rfl
  rw [h.run _ hg, hmis]
  refine (Video.runOver_busy c b as { v.afterRead c 0 n g with vAt := .backoff } h.busy).trans ?_
  rw [hback, Video.runOver_idle _ _ _ rfl]
  simp [Video.raise, Video.complete, Video.observe, Video.afterRead, faultFsState, faultFrames, faultResets, h.op, hr]

/-- A segment that matches at slot `k` before the last sends `SYNC` to the next slot (R197). -/
theorem Video.SyncAt.matched {c : Cfg} {n : Nat} {v : Video} {g : Segment} {k k' : Slot} (h : v.SyncAt n k)
    (as : List VideoAnswer) (hg : g.Readable c n) (ha : c.anchor < n) (hl : lineOf (g.anchorId c) = c.anchor)
    (ht : tttOf (g.anchorId c) = k.val + 1) (hk : k'.val = k.val + 1) (hcan : g.cancel n = false) :
    Video.runOver c (g.answers n ++ as) v =
      Video.runOver c as (Video.startPacket k' 0 { v.afterRead c k n g with seg := k'.val }) ∧
    Video.SyncAt n k' (Video.startPacket k' 0 { v.afterRead c k n g with seg := k'.val }) := by
  refine ⟨?_, ⟨rfl, h.busy, h.op, rfl, rfl, h.counts⟩⟩
  rw [h.run as hg, Video.syncAfterSegment, Video.checkAnchor_afterRead hg ha, anchorOutcome_matched hl ht]
  simp only
  rw [Video.syncNext_slot (s := k') c hk.symm, Video.readSlot_go _ _ (show _ = false from hcan)]

/-- A segment that matches at slot 3 completes `SYNC` (R200). -/
theorem Video.SyncAt.matchedLast {c : Cfg} {n : Nat} {v : Video} {g : Segment} (h : v.SyncAt n 3)
    (as : List VideoAnswer) (hg : g.Readable c n) (ha : c.anchor < n) (hl : lineOf (g.anchorId c) = c.anchor)
    (ht : tttOf (g.anchorId c) = 4) :
    Video.runOver c (g.answers n ++ as) v =
      { (Video.syncSuccess { v.afterRead c 3 n g with seg := 4 }) with sensor := as } := by
  rw [h.run as hg, Video.syncAfterSegment, Video.checkAnchor_afterRead hg ha, anchorOutcome_matched hl ht]
  simp only
  rw [Video.syncNext_end _ (by simp)]
  rw [Video.runOver_idle _ _ _ rfl]
  rfl

/-- Four segments that match complete `SYNC` (R200). -/
theorem Video.SyncAt.goodFrame {c : Cfg} {n : Nat} {v : Video} {g : Slot → Segment} (h : v.SyncAt n 0)
    (as : List VideoAnswer) (ha : c.anchor < n) (hg : GoodFrame c n g) :
    Video.runOver c (frameAnswers n g ++ as) v =
      { v with
        cmd := { v.cmd with cancel := (g 3).cancel n }
        sensor := as
        fb := frameStored c n g v.fb
        fsState := .synchronized
        invalid := 0
        skips := (g 3).discards.length
        seg := 0
        frameValid := true
        vStatus := .ok
        vDone := true
        vBusy := false
        vFrames := 1
        vResets := v.resets
        vOp := none
        vAt := .idle
        bus := v.bus ++ frameReads c n g } := by
  obtain ⟨h1, a1⟩ := h.matched (k' := 1) ((g 1).answers n ++ ((g 2).answers n ++ ((g 3).answers n ++ as)))
    (hg.readable 0) ha (hg.line 0) (hg.ttt 0) rfl (hg.noCancel 0 (by decide))
  obtain ⟨h2, a2⟩ := a1.matched (k' := 2) ((g 2).answers n ++ ((g 3).answers n ++ as))
    (hg.readable 1) ha (hg.line 1) (hg.ttt 1) rfl (hg.noCancel 1 (by decide))
  obtain ⟨h3, a3⟩ := a2.matched (k' := 3) ((g 3).answers n ++ as)
    (hg.readable 2) ha (hg.line 2) (hg.ttt 2) rfl (hg.noCancel 2 (by decide))
  have h4 := a3.matchedLast as (hg.readable 3) ha (hg.line 3) (hg.ttt 3)
  simp only [frameAnswers, List.append_assoc]
  rw [h1, h2, h3, h4]
  simp [Video.syncSuccess, Video.complete, Video.startPacket, Video.afterRead, frameStored, frameReads]

/-! ## XFER over a script -/

/-- `XFER` waits for packet 0 of slot `k` in a session with `n` packets per segment. -/
structure Video.XferAt (n : Nat) (k : Slot) (v : Video) : Prop where
  at_ : v.vAt = .packet k 0
  busy : v.vBusy = true
  op : v.vOp = some .xfer
  skips : v.skips = 0
  seg : v.seg = k.val
  counts : ∀ j, v.count j = n

theorem Video.XferAt.run {c : Cfg} {n : Nat} {k : Slot} {v : Video} {g : Segment} (h : v.XferAt n k)
    (as : List VideoAnswer) (hg : g.Readable c n) :
    Video.runOver c (g.answers n ++ as) v = Video.runOver c as ((v.afterRead c k n g).xferAfterSegment c k) := by
  rw [Video.runOver_segment as h.at_ h.busy (.inr (.inr h.op)) h.skips (h.counts k) hg,
    Video.afterSegment_xfer c k (show (v.afterRead c k n g).vOp = some .xfer from h.op)]

theorem Video.XferAt.matched {c : Cfg} {n : Nat} {v : Video} {g : Segment} {k k' : Slot} (h : v.XferAt n k)
    (as : List VideoAnswer) (hg : g.Readable c n) (ha : c.anchor < n) (hl : lineOf (g.anchorId c) = c.anchor)
    (ht : tttOf (g.anchorId c) = k.val + 1) (hk : k'.val = k.val + 1) (hcan : g.cancel n = false) :
    Video.runOver c (g.answers n ++ as) v =
      Video.runOver c as (Video.startPacket k' 0 { v.afterRead c k n g with seg := k'.val }) ∧
    Video.XferAt n k' (Video.startPacket k' 0 { v.afterRead c k n g with seg := k'.val }) := by
  refine ⟨?_, ⟨rfl, h.busy, h.op, rfl, rfl, h.counts⟩⟩
  rw [h.run as hg, Video.xferAfterSegment, Video.checkAnchor_afterRead hg ha, anchorOutcome_matched hl ht]
  simp only
  rw [Video.xferNext_slot (s := k') c hk.symm, Video.readSlot_go _ _ (show _ = false from hcan)]

/-- Four segments that match complete `XFER` (R202). -/
theorem Video.XferAt.goodFrame {c : Cfg} {n : Nat} {v : Video} {g : Slot → Segment} (h : v.XferAt n 0)
    (as : List VideoAnswer) (ha : c.anchor < n) (hg : GoodFrame c n g) :
    Video.runOver c (frameAnswers n g ++ as) v =
      { v with
        cmd := { v.cmd with cancel := (g 3).cancel n }
        sensor := as
        fb := frameStored c n g v.fb
        invalid := 0
        skips := (g 3).discards.length
        seg := 0
        frameValid := true
        vStatus := .ok
        vDone := true
        vBusy := false
        vFrames := 1
        vOp := none
        vAt := .idle
        bus := v.bus ++ frameReads c n g } := by
  obtain ⟨h1, a1⟩ := h.matched (k' := 1) ((g 1).answers n ++ ((g 2).answers n ++ ((g 3).answers n ++ as)))
    (hg.readable 0) ha (hg.line 0) (hg.ttt 0) rfl (hg.noCancel 0 (by decide))
  obtain ⟨h2, a2⟩ := a1.matched (k' := 2) ((g 2).answers n ++ ((g 3).answers n ++ as))
    (hg.readable 1) ha (hg.line 1) (hg.ttt 1) rfl (hg.noCancel 1 (by decide))
  obtain ⟨h3, a3⟩ := a2.matched (k' := 3) ((g 3).answers n ++ as)
    (hg.readable 2) ha (hg.line 2) (hg.ttt 2) rfl (hg.noCancel 2 (by decide))
  simp only [frameAnswers, List.append_assoc]
  rw [h1, h2, h3, a3.run as (hg.readable 3), Video.xferAfterSegment, Video.checkAnchor_afterRead (hg.readable 3) ha,
    anchorOutcome_matched (hg.line 3) (hg.ttt 3)]
  simp only
  rw [Video.xferNext_end _ (by simp), Video.runOver_idle _ _ _ rfl]
  simp [Video.xferSuccess, Video.complete, Video.startPacket, Video.afterRead, frameStored, frameReads]

end Sys2Proof.Machine
end

