-- ==== Sys2Proof/Laws/Telemetry.lean ====
section
/-! SUPPORT. The telemetry fields as numbers, and on which bytes each depends. -/

namespace Sys2Proof.Machine

open Sys2Proof

/-! ## Fields as numbers (R223, R224, R226) -/

theorem tlmWord_toNat (f : Nat → Byte) (o : Nat) : (tlmWord f o).toNat = 256 * (f o).toNat + (f (o + 1)).toNat := by
  have h1 := (f o).isLt
  have h2 := (f (o + 1)).isLt
  simp only [tlmWord, beWord, BitVec.toNat_append]
  rw [← Nat.shiftLeft_add_eq_or_of_lt h2, Nat.shiftLeft_eq]; omega

theorem append16_toNat (a b : Word) : (a ++ b : BitVec 32).toNat = 65536 * a.toNat + b.toNat := by
  have h2 := b.isLt
  rw [BitVec.toNat_append, ← Nat.shiftLeft_add_eq_or_of_lt h2, Nat.shiftLeft_eq]; omega

theorem tlmDword_toNat (c : Cfg) (f : Nat → Byte) (o : Nat) : (tlmDword c f o).toNat =
    if c.tlmDwordMswFirst then 65536 * (tlmWord f o).toNat + (tlmWord f (o + 2)).toNat
    else 65536 * (tlmWord f (o + 2)).toNat + (tlmWord f o).toNat := by
  unfold tlmDword; split <;> rw [append16_toNat]

theorem tlmSwRevision_toNat (f : Nat → Byte) (o : Nat) : (tlmSwRevision f o).toNat =
    2 ^ 48 * (tlmWord f o).toNat + 2 ^ 32 * (tlmWord f (o + 2)).toNat + 2 ^ 16 * (tlmWord f (o + 4)).toNat +
      (tlmWord f (o + 6)).toNat := by
  have h2 := (tlmWord f (o + 2)).isLt
  have h3 := (tlmWord f (o + 4)).isLt
  have h4 := (tlmWord f (o + 6)).isLt
  unfold tlmSwRevision
  rw [BitVec.toNat_append, ← Nat.shiftLeft_add_eq_or_of_lt h4, BitVec.toNat_append,
    ← Nat.shiftLeft_add_eq_or_of_lt h3, BitVec.toNat_append, ← Nat.shiftLeft_add_eq_or_of_lt h2]
  simp only [Nat.shiftLeft_eq]; omega

/-! ## The bytes each field depends on (R246) -/

/-- Two payloads that differ only inside the bytes of field `k` of a legal layout agree on the bytes of every other
field. -/
theorem agree_of_otherField {l : TlmLayout} {n : Nat} (hv : l.Valid n) {a b : Nat → Byte} {k : Nat} (hk : k < l.ranges.length)
    (h : AgreeOutside n (l.ranges[k]).1 (l.ranges[k]).2 a b) {j : Nat} (hj : j < l.ranges.length) (hne : j ≠ k) :
    ∀ i, (l.ranges[j]).1 ≤ i → i < (l.ranges[j]).1 + (l.ranges[j]).2 → a i = b i := by
  intro i h1 h2
  have hb := hv.1 _ (List.getElem_mem hj)
  refine h i (by omega) ?_
  have hp := List.pairwise_iff_getElem.1 hv.2.1
  rcases Nat.lt_or_gt_of_ne hne with hlt | hgt
  · rcases hp j k hj hk hlt with h' | h' <;> omega
  · rcases hp k j hk hj hgt with h' | h' <;> omega

theorem tlmWord_congr {a b : Nat → Byte} {o : Nat} (h : ∀ i, o ≤ i → i < o + 2 → a i = b i) :
    tlmWord a o = tlmWord b o := by
  rw [tlmWord, tlmWord, h o (by omega) (by omega), h (o + 1) (by omega) (by omega)]

theorem tlmDword_congr {c : Cfg} {a b : Nat → Byte} {o : Nat} (h : ∀ i, o ≤ i → i < o + 4 → a i = b i) :
    tlmDword c a o = tlmDword c b o := by
  rw [tlmDword, tlmDword, tlmWord_congr (o := o) fun i h1 h2 => h i (by omega) (by omega),
    tlmWord_congr (o := o + 2) fun i h1 h2 => h i (by omega) (by omega)]

theorem tlmSwRevision_congr {a b : Nat → Byte} {o : Nat} (h : ∀ i, o ≤ i → i < o + 8 → a i = b i) :
    tlmSwRevision a o = tlmSwRevision b o := by
  rw [tlmSwRevision, tlmSwRevision, tlmWord_congr (o := o) fun i h1 h2 => h i (by omega) (by omega),
    tlmWord_congr (o := o + 2) fun i h1 h2 => h i (by omega) (by omega),
    tlmWord_congr (o := o + 4) fun i h1 h2 => h i (by omega) (by omega),
    tlmWord_congr (o := o + 6) fun i h1 h2 => h i (by omega) (by omega)]

end Sys2Proof.Machine
end

