-- ==== Sys2Proof/Laws/VideoFrame.lean ====
section
/-! SUPPORT. What `RD_PKT`, `RD_SEG`, `SYNC` and `XFER` keep, from acceptance to their end: one predicate that every answer
of the outside world preserves. -/

namespace Sys2Proof.Machine

open Sys2Proof

/-- The operations that read packets. -/
def VideoOp.Reads (op : VideoOp) : Prop := op = .rdPkt ∨ op = .rdSeg ∨ op = .sync ∨ op = .xfer

/-- The packets `P` and the bulk reads `B` that the operation `op` may reach store inside the region `R` of addresses, and
are closed under where the operation goes next; `cnt` is `pkt_count`. -/
structure VideoRegion (c : Cfg) (op : VideoOp) (cnt : Vector Nat 4) (P : Slot → Nat → Prop) (B : Slot → Prop)
    (R : Nat → Prop) : Prop where
  packet : ∀ s p, P s p → ∀ x, fbAddr c s p 0 ≤ x → x < fbAddr c s p 0 + 164 → R x
  bulk : ∀ s, B s → ∀ x, fbAddr c s 1 0 ≤ x → x < fbAddr c s 1 0 + 164 * (cnt.get s - 1) → R x
  toBulk : op ≠ .rdPkt → ∀ s p, P s p → B s
  anySlot : op = .sync ∨ op = .xfer → ∀ k, P k 0

/-- The label is one that the operation may reach. -/
def VideoAt.Within (op : VideoOp) (P : Slot → Nat → Prop) (B : Slot → Prop) : VideoAt → Prop
  | .idle => True
  | .packet s p => P s p
  | .bulk s => B s
  | .backoff => op = .sync

/-- What the operation `op` has kept of the video side `v0`. -/
structure Video.Keeps (op : VideoOp) (P : Slot → Nat → Prop) (B : Slot → Prop) (R : Nat → Prop) (v0 v : Video) :
    Prop where
  mem : ∀ x, ¬ R x → v.fb.read x = v0.fb.read x
  isOp : v.vBusy = true → v.vOp = some op
  label : v.vAt.Within op P B
  ofRead : op = .rdPkt ∨ op = .rdSeg → v.fsState = v0.fsState ∧ v.resets = v0.resets ∧ v.invalid = v0.invalid ∧
    v.vFrames = v0.vFrames ∧ v.vResets = v0.vResets ∧ v.frameValid = false
  ofXfer : op = .xfer → v.resets = v0.resets ∧ v.vResets = v0.vResets
  maxResets : v.maxResets = v0.maxResets
  pktCount : v.pktCount = v0.pktCount
  tlm : v.tlm = v0.tlm
  epoch : v.epoch = v0.epoch
  tick : v.tick = v0.tick
  valid : v.cmd.valid = v0.cmd.valid
  word : v.cmd.word = v0.cmd.word
  segKept : op = .rdPkt ∨ op = .rdSeg → v.seg = v0.seg ∨ v.seg = 0

variable {op : VideoOp} {P : Slot → Nat → Prop} {B : Slot → Prop} {R : Nat → Prop} {v0 v : Video} {c : Cfg}
  {cnt : Vector Nat 4}

theorem Video.Keeps.raise {f : Status} (h : Video.Keeps op P B R v0 v) (hb : v.vBusy = true) :
    Video.Keeps op P B R v0 (v.raise f) := by
  have ho := h.isOp hb
  refine ⟨h.mem, by simp, trivial, fun hk => ?_, fun hk => ?_, h.maxResets, h.pktCount, h.tlm, h.epoch, h.tick, h.valid,
    h.word, fun _ => .inr rfl⟩
  · obtain ⟨a, b, d, f', g, fv⟩ := h.ofRead hk
    rcases hk with rfl | rfl <;> simp [Video.raise, faultFsState, faultFrames, faultResets, ho, a, b, d, f', g, fv]
  · obtain ⟨a, b⟩ := h.ofXfer hk
    subst hk
    simp [Video.raise, faultResets, ho, a, b]

theorem Video.Keeps.ok (h : Video.Keeps op P B R v0 v) : Video.Keeps op P B R v0 (v.complete .ok) :=
  ⟨h.mem, by simp, trivial, h.ofRead, h.ofXfer, h.maxResets, h.pktCount, h.tlm, h.epoch, h.tick, h.valid, h.word,
    fun _ => .inr rfl⟩

/-- The synchronizer's registers may change in `SYNC` and `XFER`. -/
theorem Video.Keeps.frameRegs (h : Video.Keeps op P B R v0 v) (ho : op = .sync ∨ op = .xfer) (fs : FsState)
    (inv seg frames : Nat) (fv : Bool) :
    Video.Keeps op P B R v0
      { v with fsState := fs, invalid := inv, seg := seg, vFrames := frames, frameValid := fv } :=
  ⟨h.mem, h.isOp, h.label, fun hk => by rcases ho with rfl | rfl <;> simp at hk, h.ofXfer, h.maxResets, h.pktCount,
    h.tlm, h.epoch, h.tick, h.valid, h.word, fun hk => by rcases ho with rfl | rfl <;> simp at hk⟩

theorem Video.Keeps.setAt (h : Video.Keeps op P B R v0 v) (l : VideoAt) (hl : l.Within op P B) (skips : Nat) :
    Video.Keeps op P B R v0 { v with vAt := l, skips := skips } :=
  ⟨h.mem, h.isOp, hl, h.ofRead, h.ofXfer, h.maxResets, h.pktCount, h.tlm, h.epoch, h.tick, h.valid, h.word,
    h.segKept⟩

theorem Video.Keeps.observe (h : Video.Keeps op P B R v0 v) (x : VideoXact) (b : Bool) :
    Video.Keeps op P B R v0 (v.observe x b) :=
  ⟨h.mem, h.isOp, h.label, h.ofRead, h.ofXfer, h.maxResets, h.pktCount, h.tlm, h.epoch, h.tick, h.valid, h.word,
    h.segKept⟩

theorem Video.Keeps.write (h : Video.Keeps op P B R v0 v) (x : Nat) (bs : List Byte)
    (hR : ∀ y, x ≤ y → y < x + bs.length → R y) : Video.Keeps op P B R v0 { v with fb := v.fb.write x bs } := by
  refine ⟨fun y hy => ?_, h.isOp, h.label, h.ofRead, h.ofXfer, h.maxResets, h.pktCount, h.tlm, h.epoch, h.tick, h.valid,
    h.word, h.segKept⟩
  rw [← h.mem y hy]
  apply read_write_outside
  by_contra hc
  exact hy (hR y (by omega) (by omega))

theorem Video.Keeps.readSlot (hr : VideoRegion c op cnt P B R) (h : Video.Keeps op P B R v0 v) (hb : v.vBusy = true)
    (ho : op = .sync ∨ op = .xfer) (k : Slot) : Video.Keeps op P B R v0 (v.readSlot k) := by
  rcases v.readSlot_cases k with he | he <;> rw [he]
  · exact h.raise hb
  · exact (h.frameRegs ho v.fsState v.invalid k.val v.vFrames v.frameValid).setAt (.packet k 0) (hr.anySlot ho k) 0

theorem Video.Keeps.staleReread (hr : VideoRegion c op cnt P B R) (h : Video.Keeps op P B R v0 v) (hb : v.vBusy = true)
    (ho : op = .sync ∨ op = .xfer) (s : Slot) : Video.Keeps op P B R v0 (v.staleReread c s) := by
  have h' := h.frameRegs ho v.fsState (v.invalid + 1) v.seg v.vFrames v.frameValid
  unfold Video.staleReread
  simp only
  split
  · exact h'.raise hb
  · exact h'.readSlot hr hb ho s

theorem Video.Keeps.afterSegment (hr : VideoRegion c op cnt P B R) (h : Video.Keeps op P B R v0 v)
    (hb : v.vBusy = true) (h4 : op.Reads) (s : Slot) : Video.Keeps op P B R v0 (v.afterSegment c s) := by
  have hop := h.isOp hb
  rcases h4 with rfl | rfl | rfl | rfl
  · rw [Video.afterSegment, hop]; exact h.ok
  · rw [Video.afterSegment, hop]; exact h.ok
  · rw [Video.afterSegment_sync _ _ hop, Video.syncAfterSegment]
    have seek : Video.Keeps .sync P B R v0 v.seekFirst :=
      (h.frameRegs (.inl rfl) .seekingFirstSegment v.invalid v.seg v.vFrames v.frameValid).readSlot hr hb (.inl rfl) 0
    split
    · have h' := h.frameRegs (.inl rfl) v.fsState v.invalid (s.val + 1) v.vFrames v.frameValid
      unfold Video.syncNext
      split
      · exact h'.readSlot hr hb (.inl rfl) _
      · exact ⟨h.mem, by simp [Video.syncSuccess], trivial, by simp, by simp, h.maxResets, h.pktCount, h.tlm, h.epoch,
          h.tick, h.valid, h.word, by simp⟩
    · exact h.setAt .backoff rfl v.skips
    · split
      · exact seek
      · exact h.staleReread hr hb (.inl rfl) s
    · exact seek
  · rw [Video.afterSegment_xfer _ _ hop, Video.xferAfterSegment]
    split
    · unfold Video.xferNext
      split
      · exact (h.frameRegs (.inr rfl) v.fsState v.invalid (s.val + 1) v.vFrames v.frameValid).readSlot hr hb
          (.inr rfl) _
      · exact (h.frameRegs (.inr rfl) v.fsState 0 (s.val + 1) 1 true).ok
    · exact h.staleReread hr hb (.inr rfl) s
    · exact h.raise hb
    · exact h.raise hb

/-- One answer of the outside world. -/
theorem Video.Keeps.answer (hr : VideoRegion c op v0.pktCount P B R) (h4 : op.Reads) (a : VideoAnswer)
    (h : Video.Keeps op P B R v0 v) (hb : v.vBusy = true) : Video.Keeps op P B R v0 (v.answer c a) := by
  have hop := h.isOp hb
  have hl := h.label
  unfold Video.answer
  split <;> rename_i hat <;> rw [hat] at hl
  · exact h
  · rename_i s p
    have hst : 164 ≤ a.bytes.length → Video.Keeps op P B R v0
        ((v.observe (.read 164 164) a.cancel).decodePacket c s p (a.bytes.take 164)) := fun hlen =>
      (h.observe _ _).write _ _ (by rw [entryBytes_length c (by simp; omega)]; exact hr.packet s p hl)
    rcases v.packetPass_cases c s p a with ⟨_, he⟩ | ⟨hlen, _, he⟩ | ⟨hlen, _, he⟩ <;> rw [he]
    · exact (h.observe _ _).raise hb
    · have hsk := (hst hlen).setAt _ (hst hlen).label (v.skips + 1)
      rcases Video.skipDiscard_cases c
          ((v.observe (.read 164 164) a.cancel).decodePacket c s p (a.bytes.take 164)) with
        ⟨_, he2⟩ | ⟨_, _, he2⟩ | ⟨_, _, he2⟩ <;> rw [he2]
      · exact hsk.raise hb
      · exact hsk.raise hb
      · exact hsk
    · by_cases ho : op = .rdPkt
      · subst ho
        rw [Video.afterPacket_rdPkt (v := (v.observe (.read 164 164) a.cancel).decodePacket c s p (a.bytes.take 164))
          c s hop]
        exact (hst hlen).ok
      · have hseg : ReadsSegments v.vOp := by
          rw [hop]
          rcases h4 with rfl | rfl | rfl | rfl <;> simp_all [ReadsSegments, Assembles]
        rw [Video.afterPacket_segment
          (v := (v.observe (.read 164 164) a.cancel).decodePacket c s p (a.bytes.take 164)) c s hseg,
          Video.afterFirstPacket]
        split
        · exact (hst hlen).setAt (.bulk s) (hr.toBulk ho s p hl) v.skips
        · exact (hst hlen).afterSegment hr hb h4 s
  · rename_i s
    rcases v.bulkPass_cases c s a with ⟨_, he⟩ | ⟨hlen, he⟩ <;> rw [he]
    · exact (h.observe _ _).raise hb
    · have hl' : (a.bytes.take (v.bulkLen c s)).length = 164 * (v.count s - 1) := by
        have : v.bulkLen c s = 164 * (v.count s - 1) := by simp [Video.bulkLen]
        rw [this] at hlen ⊢
        simp; omega
      have hcc : v.count s = v0.pktCount.get s := by rw [Video.count, h.pktCount]
      refine Video.Keeps.afterSegment (v := (v.observe (.read (v.bulkLen c s) (v.bulkLen c s)) a.cancel).storeBulk c s
        (a.bytes.take (v.bulkLen c s))) hr ((h.observe _ _).write _ _ ?_) hb h4 s
      rw [show ((v.observe (.read (v.bulkLen c s) (v.bulkLen c s)) a.cancel).count s) = v.count s from rfl,
        bulkBytes_length _ _ _ hl', hcc]
      exact hr.bulk s hl
  · have hsync : op = .sync := hl
    subst hsync
    rw [Video.backoffPass, Video.syncAfterBackoff_eq]
    have h' : Video.Keeps .sync P B R v0
        { v.observe (.backoff c.backoffMs) a.cancel with resets := v.resets + 1, fsState := .unsynchronized } :=
      ⟨h.mem, h.isOp, h.label, by simp, by simp, h.maxResets, h.pktCount, h.tlm, h.epoch, h.tick, h.valid, h.word,
        by simp⟩
    split
    · exact h'.raise hb
    · exact h'.readSlot hr hb (.inl rfl) 0

theorem Video.Keeps.run (hr : VideoRegion c op v0.pktCount P B R) (h4 : op.Reads) (h : Video.Keeps op P B R v0 v) :
    Video.Keeps op P B R v0 (v.run c) :=
  Video.run_induct (P := Video.Keeps op P B R v0) (fun _ a h hb => h.answer hr h4 a hb)
    (fun _ _ h => ⟨h.mem, h.isOp, h.label, h.ofRead, h.ofXfer, h.maxResets, h.pktCount, h.tlm, h.epoch, h.tick, h.valid,
      h.word, h.segKept⟩) h

/-- A later turn of an operation in progress, but for the count of free answers. -/
theorem Video.Keeps.resume (hr : VideoRegion c op v.pktCount P B R) (h4 : op.Reads) (hb : v.vBusy = true)
    (ho : v.vOp = some op) (hl : v.vAt.Within op P B) (hf : v.frameValid = false) :
    ∃ n, Video.Keeps op P B R { v with tick := n } (v.resume c) := by
  obtain ⟨as, n, he⟩ := Video.resume_form c hb
  rw [he]
  refine ⟨n, Video.runOver_induct (P := Video.Keeps op P B R { v with tick := n })
    (fun _ a h hb => Video.Keeps.answer (v0 := { v with tick := n }) hr h4 a h hb)
    (fun _ _ h => ⟨h.mem, h.isOp, h.label, h.ofRead, h.ofXfer, h.maxResets, h.pktCount, h.tlm, h.epoch, h.tick, h.valid,
      h.word, h.segKept⟩) as _ ?_⟩
  exact ⟨fun _ _ => rfl, fun _ => ho, hl, fun _ => ⟨rfl, rfl, rfl, rfl, rfl, hf⟩, fun _ => ⟨rfl, rfl⟩, rfl, rfl, rfl,
    rfl, rfl, rfl, rfl, fun _ => .inl rfl⟩

/-- An accepted operation, at a label of its own. -/
theorem Video.Keeps.start (op : VideoOp) (P : Slot → Nat → Prop) (B : Slot → Prop) (R : Nat → Prop) (v : Video)
    (l : VideoAt) (hl : l.Within op P B) (skips : Nat) :
    Video.Keeps op P B R v { v.accept op with vAt := l, skips := skips } :=
  ⟨fun _ _ => rfl, fun _ => rfl, hl,
    fun hk => ⟨rfl, rfl, rfl, rfl, rfl, by rcases hk with rfl | rfl <;> simp [VideoOp.clearsFrameValid]⟩,
    fun _ => ⟨rfl, rfl⟩, rfl, rfl, rfl, rfl, rfl, rfl, rfl, fun _ => .inl rfl⟩

/-- An operation that faults at its acceptance. -/
theorem Video.Keeps.startRaise (op : VideoOp) (P : Slot → Nat → Prop) (B : Slot → Prop) (R : Nat → Prop) (v : Video)
    (f : Status) : Video.Keeps op P B R v ((v.accept op).raise f) := by
  have h := Video.Keeps.raise (f := f) (Video.Keeps.start op P B R v .idle trivial v.skips) rfl
  exact h

/-- The active entries of the four slots, as the region that `SYNC` and `XFER` store to. -/
theorem VideoRegion.frame (c : Cfg) (op : VideoOp) {cnt : Vector Nat 4} (hn : ∀ k : Slot, 0 < cnt.get k) :
    VideoRegion c op cnt (fun _ p => p = 0) (fun _ => True)
      (fun x => ∃ k : Slot, fbAddr c k 0 0 ≤ x ∧ x < fbAddr c k 0 0 + 164 * cnt.get k) where
  packet s p hp x h1 h2 := by
    subst hp
    have := hn s
    exact ⟨s, h1, by omega⟩
  bulk s _ x h1 h2 := by
    have h3 : fbAddr c s 1 0 = fbAddr c s 0 0 + 164 := by simp [fbAddr]; omega
    rw [h3] at h1 h2
    exact ⟨s, by omega, by omega⟩
  toBulk _ _ _ _ := trivial
  anySlot _ _ := rfl

end Sys2Proof.Machine
end

