-- ==== Sys2Proof/Tests/Slice0.lean ====
section
/-! SUPPORT. The model's own tests: the checks of `WellFormed`, decoding of words written out from R125, R126, R130 and R135,
single steps with results taken from the spec's worked examples (95_test_vectors.md, 45_cci_commands.md), and for every
obligation with hypotheses a named witness that meets them. -/

namespace Sys2Proof.Tests

open Sys2Proof Sys2Proof.Machine

/-! ## WellFormed -/

theorem test_wellFormed_refuses_packetIndex :
    WellFormed (.rdPkt 0 128) = false ∧ WellFormed (.rdSeg 3 128) = false ∧ WellFormed (.tlmDec 1 128) = false ∧
    WellFormed (.rdPkt 0 127) = true := by decide

theorem test_wellFormed_refuses_wordCounts :
    WellFormed (.cciCmd 0 32 0) = false ∧ WellFormed (.cciCmd 0 0 32) = false ∧
    WellFormed (.cciCmd 0xFFFF 31 31) = true := by decide

/-! ## Decoding -/

/-- Formats N and C: R135, V20, V88. -/
theorem test_decode_control_words :
    decode 0x0400000000 = .ok .sync ∧ decode 0x04FFFFFFFF = .ok .sync ∧ decode 0x0500000000 = .ok .xfer ∧
    decode 0x0100000001 = .ok (.cfgSession true) ∧ decode 0x0100000003 = .ok (.cfgSession true) ∧
    decode 0x010000FFFE = .ok (.cfgSession false) := by decide

/-- Format S: R135, V7, V9, V10, V16, V56. -/
theorem test_decode_packet_words :
    decode 0x0200140000 = .ok (.rdPkt 0 20) ∧ decode 0x02FC940000 = .ok (.rdPkt 0 20) ∧
    decode 0x02033C0000 = .ok (.rdPkt 3 60) ∧ decode 0x02003D0000 = .ok (.rdPkt 0 61) ∧
    decode 0x0302000000 = .ok (.rdSeg 2 0) ∧ decode 0x03027F0000 = .ok (.rdSeg 2 127) ∧
    decode 0x10033C0000 = .ok (.tlmDec 3 60) := by decide

/-- Format V: R135, V21, V79; the codes 0x35 and 0x37 from R130. -/
theorem test_decode_value_words :
    decode 0x060000001E = .ok (.setMaxResets 30) ∧ decode 0x0600000100 = .ok (.setMaxResets 0x0100) ∧
    decode 0x330000ABCD = .ok (.setTlmEn 0xABCD) ∧ decode 0x3500000001 = .ok (.setTlmLoc 1) ∧
    decode 0x3700000000 = .ok (.setAgcEn 0) := by decide

/-- Formats W, R and G: R135, V60, V63, V64, V67. -/
theorem test_decode_register_words :
    decode 0x201234BEEF = .ok (.regWr 0x1234 0xBEEF) ∧ decode 0x2112340000 = .ok (.regRd 0x1234) ∧
    decode 0x22020C0200 = .ok (.cciCmd 0x020C 0 2) ∧ decode 0x220ABC0002 = .ok (.cciCmd 0x0ABC 2 0) ∧
    decode 0x2200000011 = .ok (.cciCmd 0 17 0) ∧ decode 0x2200000301 = .ok (.cciCmd 0 1 3) := by decide

/-- The commands without an operand: R130. -/
theorem test_decode_command_words :
    decode 0x3000000000 = .ok .runFfc ∧ decode 0x3100000000 = .ok .getUptime ∧ decode 0x3200000000 = .ok .getTlmEn ∧
    decode 0x3400000000 = .ok .getTlmLoc ∧ decode 0x3600000000 = .ok .getAgcEn := by decide

/-- Reserved codes and codes of the other port: V85, V86, V87. -/
theorem test_decode_refuses :
    decodeOn .video 0x0000000000 = .error (.reservedOp 0) ∧ decodeOn .video 0x0700000000 = .error (.reservedOp 7) ∧
    decodeOn .video 0x1F00000000 = .error (.reservedOp 0x1F) ∧
    decodeOn .control 0x3800000000 = .error (.reservedOp 0x38) ∧
    decodeOn .control 0xFF00000000 = .error (.reservedOp 0xFF) ∧
    decodeOn .video 0x2000000000 = .error (.wrongPort 0x20) ∧
    decodeOn .control 0x0400000000 = .error (.wrongPort 0x04) := by decide

theorem test_decodeTableWord :
    decodeTableWord 40 0x03027F0000 = some (.rdSeg 2 127) ∧ decodeTableWord 40 0x1100000000 = none := by decide

/-! ## Small states -/

/-- A legal configuration with two packets per segment, so that a step stays small. -/
def tiny : Cfg := { anchor := 1, nNormal := 2, nTlm := 3, maxInvalidFrames := 1 }

theorem tiny_valid : tiny.Valid := by decide

/-- A packet with the given identifier and a payload of zeros. -/
def pkt (id : Word) : List Byte := [hiByte id, loByte id, 0, 0] ++ List.replicate 160 0

/-- A whole packet as the answer to a read. -/
def whole (id : Word) : VideoAnswer := { bytes := pkt id, cancel := false }

/-- A segment of two packets whose second, the anchor of `tiny`, has the identifier `id`. -/
def seg (id : Word) : Segment := { discards := [], first := whole 0x1000, bulk := whole id }

/-- The four segments that match in `tiny`. -/
def frame (k : Slot) : Segment := seg (BitVec.ofNat 16 (4096 * (k.val + 1) + 1))

/-- The answers of a whole frame in `tiny`. -/
def frameBytes : List VideoAnswer := frameAnswers 2 frame

/-- Right after reset, with answers waiting on the video bus. -/
def withVideo (c : Cfg) (as : List VideoAnswer) : State :=
  { State.resetWith c with video := { (State.resetWith c).video with sensor := as } }

/-- The same, with the synchronizer in `Synchronized`. -/
def synced (c : Cfg) (as : List VideoAnswer) : State :=
  { withVideo c as with video := { (withVideo c as).video with fsState := .synchronized } }

/-- In the middle of an operation of the video port, at a label. -/
def midVideo (c : Cfg) (op : VideoOp) (l : VideoAt) (as : List VideoAnswer) : State :=
  { withVideo c as with video := { (withVideo c as).video with vBusy := true, vOp := some op, vAt := l } }

/-- An acknowledged answer on the control bus that carries a word. -/
def ack (w : Word) : CciAnswer := { ack := true, r0 := hiByte w, r1 := loByte w, cancel := false }

/-- A transaction that is not acknowledged. -/
def nack : CciAnswer := { ack := false, r0 := 0, r1 := 0, cancel := false }

/-- Right after reset, with answers waiting on the control bus. -/
def withControl (c : Cfg) (as : List CciAnswer) : State :=
  { State.resetWith c with ctl := { (State.resetWith c).ctl with sensor := as } }

/-- In the middle of `CCI_CMD`, at a label. -/
def midControl (c : Cfg) (l : ControlAt) (as : List CciAnswer) : State :=
  { withControl c as with ctl := { (withControl c as).ctl with cBusy := true, cOp := some .cciCmd, cAt := l } }

/-- A part of the next state, if there is one. -/
def see {α : Type} (o : Host.Outcome State Fault Refusal) (f : State → α) : Option α :=
  match o with
  | .next t => some (f t)
  | .fault _ => none
  | .refused _ => none

/-- The bytes sent over the control bus, transaction by transaction. -/
def sent (t : State) : List (List Byte) := t.ctl.bus.map CciXact.sent

/-! ## Video operations, one step each -/

/-- V20. -/
theorem test_cfgSession :
    see (exec (.cfgSession true) (synced Cfg.default [])) (fun t => (t.video.pktCount, t.video.fsState, t.video.vStatus))
      = some (#v[61, 61, 61, 61], .unsynchronized, .ok) := by decide

/-- V1: the byte view `14 10 CD AB 00 01`. -/
theorem test_rdPkt_stores :
    see (exec (.rdPkt 0 0) (withVideo Cfg.default
        [{ bytes := [0x10, 0x14, 0xAB, 0xCD] ++ (List.range 160).map (BitVec.ofNat 8), cancel := false }]))
      (fun t => (t.video.fb.take 6, t.video.vStatus, t.video.frameValid))
      = some ([(0, 0x14), (1, 0x10), (2, 0xCD), (3, 0xAB), (4, 0x00), (5, 0x01)], .ok, false) := by decide +kernel

/-- V3: with the bound 1, `DiscardTimeout` after two reads. -/
theorem test_rdPkt_discardTimeout :
    see (exec (.rdPkt 0 0) (withVideo { Cfg.default with maxDiscardSkips := some 1 }
        [whole 0xF000, whole 0xFFFF, whole 0x1000]))
      (fun t => (t.video.vStatus, t.video.bus.length, t.video.sensor.length, t.video.fb.take 2))
      = some (.discardTimeout, 2, 1, [(0, 0xFF), (1, 0xFF)]) := by decide +kernel

/-- V12 with two packets per segment: two discards, then the segment; the entries of slot 1 start at 1 * 3 * 164 = 492. -/
theorem test_rdSeg :
    see (exec (.rdSeg 1 0) (withVideo tiny [whole 0xF000, whole 0xF000, whole 0x2000, whole 0x2001]))
      (fun t => (t.video.vStatus, t.video.bus.length, t.video.skips, [492, 493, 656, 820].map t.video.fb.read))
      = some (.ok, 4, 2, [some 0x00, some 0x20, some 0x01, none]) := by decide +kernel

/-- V16. -/
theorem test_rdSeg_badOperand :
    see (exec (.rdSeg 2 127) (withVideo Cfg.default [whole 0x1000]))
      (fun t => (t.video.vStatus, t.video.bus, t.video.sensor.length)) = some (.badOperand, [], 1) := by decide

/-- V30 with two packets per segment. -/
theorem test_sync_success :
    see (exec .sync (withVideo tiny frameBytes))
      (fun t => (t.video.vStatus, t.video.vFrames, t.video.vResets, t.video.fsState, t.video.frameValid,
        t.video.bus.length)) = some (.ok, 1, 0, .synchronized, true, 8) := by decide +kernel

/-- R24: `seg` is the slot being filled, and 0 once the operation is over. -/
theorem test_sync_seg :
    see (exec .sync (withVideo tiny ((frame 0).answers 2 ++ (frame 1).answers 2))) (fun t => (t.video.vBusy, t.video.seg))
      = some (true, 2) ∧
    see (exec .sync (withVideo tiny frameBytes)) (fun t => (t.video.vBusy, t.video.seg)) = some (false, 0) := by
  decide +kernel

/-- V40 with `max_resets = 0`: one read, one backoff, `v_resets = 1`. -/
theorem test_sync_failure :
    see (exec .sync { withVideo tiny ((seg 0x1005).answers 2 ++ [whole 0]) with
        video := { (withVideo tiny ((seg 0x1005).answers 2 ++ [whole 0])).video with maxResets := 0 } })
      (fun t => (t.video.vStatus, t.video.vFrames, t.video.vResets, t.video.fsState, t.video.bus.getLast?))
      = some (.syncFailure, 0, 1, .failed, some (.backoff 185)) := by decide +kernel

/-- V44 with two packets per segment. -/
theorem test_xfer_success :
    see (exec .xfer (synced tiny frameBytes))
      (fun t => (t.video.vStatus, t.video.vFrames, t.video.fsState, t.video.frameValid))
      = some (.ok, 1, .synchronized, true) := by decide +kernel

/-- V46: `S(1) S(3)` is `FrameInvalid` after two segment reads. -/
theorem test_xfer_wrongSegment :
    see (exec .xfer (synced tiny ((frame 0).answers 2 ++ (frame 2).answers 2)))
      (fun t => (t.video.vStatus, t.video.vFrames, t.video.fsState, t.video.bus.length))
      = some (.frameInvalid, 0, .unsynchronized, 4) := by decide +kernel

/-- V22: the anchor check, the line field first and bits 11 to 8 ignored. -/
theorem test_anchorOutcome :
    [0x1014, 0x0014, 0x2014, 0xF014, 0x1F14, 0x1015, 0x0015].map (anchorOutcome Cfg.default 0) =
      [.matched, .stale, .wrongSegment, .wrongSegment, .matched, .misaligned, .misaligned] ∧
    [0x4014, 0x5014, 0x0014].map (anchorOutcome Cfg.default 3) = [.matched, .wrongSegment, .stale] := by decide

/-- V4: the discard predicate. -/
theorem test_isDiscard :
    [0xF000, 0xFFFF, 0xFF14, 0x0FFF, 0xEFFF, 0x1F14, 0x0000].map (isDiscard Cfg.default) =
      [true, true, true, false, false, false, false] := by decide

/-- V21. -/
theorem test_setMaxResets :
    see (exec (.setMaxResets 254) State.reset) (fun t => (t.video.maxResets, t.video.vStatus)) = some (254, .ok) ∧
    see (exec (.setMaxResets 0x0100) State.reset) (fun t => (t.video.maxResets, t.video.vStatus))
      = some (30, .badOperand) := by decide

/-- The payload of V54: byte `i` is `i`. -/
def countingPayload (i : Nat) : Byte := BitVec.ofNat 8 i

/-- V54. -/
theorem test_telemetry_fields :
    let t := decodeTelemetry Cfg.default countingPayload
    t.revision = 0x0001 ∧ t.msecSinceBoot = 0x02030405 ∧ t.swRevision = 0x1A1B1C1D1E1F2021 ∧
    t.frameCounter = 0x28292A2B ∧ t.fpaTempK100 = 0x3031 ∧ t.agcRoiRight = 0x4A4B ∧ t.videoFormat = 0x90919293 ∧
    t.ffcDesired = true ∧ t.ffcState = 0 ∧ t.agcState = false := by decide

/-- V54 with the less significant half first. -/
theorem test_telemetry_halves :
    let t := decodeTelemetry { Cfg.default with tlmDwordMswFirst := false } countingPayload
    t.msecSinceBoot = 0x04050203 ∧ t.frameCounter = 0x2A2B2829 ∧ t.swRevision = 0x1A1B1C1D1E1F2021 ∧
    t.ffcDesired = false := by decide

/-- V50 through `TLM_DEC 0, 0`: bytes 6 to 9 of the payload stand at addresses 10 to 13 of the frame buffer. -/
theorem test_tlmDec :
    see (exec (.tlmDec 0 0) { State.reset with video := { State.reset.video with
        fb := [(10, 0x00), (11, 0x10), (12, 0x90), (13, 0x28)] } })
      (fun t => (t.video.tlm.ffcDesired, t.video.tlm.ffcState, t.video.tlm.agcState, t.video.tlm.shutterLockout,
        t.video.tlm.overtempImminent, t.video.vStatus)) = some (true, 2, true, true, true, .ok) := by decide

/-! ## Control operations, one step each -/

/-- V60, the write: `12 34 BE EF` to the device at 0x2A. -/
theorem test_regWr :
    see (exec (.regWr 0x1234 0xBEEF) (withControl Cfg.default [ack 0]))
      (fun t => (t.ctl.cStatus, sent t, t.ctl.bus.map CciXact.dev)) =
        some (.ok, [[0x12, 0x34, 0xBE, 0xEF]], [0x2A]) := by decide

/-- V60, the read. -/
theorem test_regRd :
    see (exec (.regRd 0x1234) (withControl Cfg.default [ack 0xBEEF]))
      (fun t => (t.ctl.cStatus, t.ctl.cRdata, sent t)) = some (.ok, 0xBEEF, [[0x12, 0x34]]) := by decide

/-- V61: a read that fails leaves `c_rdata`. -/
theorem test_regRd_ioFault :
    see (exec (.regRd 0x0002) { withControl Cfg.default [nack] with
        ctl := { (withControl Cfg.default [nack]).ctl with cRdata := 0x5555 } })
      (fun t => (t.ctl.cStatus, t.ctl.cRdata)) = some (.ioFault, 0x5555) := by decide

/-- V62. -/
theorem test_cciCmd :
    see (exec (.cciCmd 0x020C 0 2) (withControl Cfg.default
        [ack 0, ack 0, ack 1, ack 0, ack 0x5678, ack 0x1234]))
      (fun t => (t.ctl.cStatus, [0, 1].map t.ctl.param, sent t)) =
        some (.ok, [0x5678, 0x1234], [[0x00, 0x06, 0x00, 0x02], [0x00, 0x04, 0x02, 0x0C], [0x00, 0x02], [0x00, 0x02],
          [0x00, 0x08], [0x00, 0x0A]]) := by decide

/-- V64. -/
theorem test_cciCmd_badOperand :
    see (exec (.cciCmd 0 17 0) (withControl Cfg.default [ack 0])) (fun t => (t.ctl.cStatus, sent t))
      = some (.badOperand, []) := by decide

/-- The example of R290. -/
theorem test_runFfc :
    see (exec .runFfc (withControl Cfg.default [ack 0, ack 0, ack 1, ack 1, ack 0]))
      (fun t => (t.ctl.cStatus, sent t)) =
        some (.ok, [[0x00, 0x06, 0x00, 0x00], [0x00, 0x04, 0x02, 0x42], [0x00, 0x02], [0x00, 0x02], [0x00, 0x02]]) := by
  decide

/-- The example of R291. -/
theorem test_getUptime :
    see (exec .getUptime (withControl Cfg.default [ack 0, ack 0, ack 0, ack 0x5678, ack 0x1234]))
      (fun t => (t.ctl.cStatus, t.ctl.cR32, t.ctl.cRdata)) = some (.ok, 0x12345678, 0) := by decide

/-- V80: `CciTimeout` leaves `c_r32`. -/
theorem test_getUptime_timeout :
    let c := { Cfg.default with cciPollLimit := some 2 }
    let s := withControl c [ack 0, ack 0, ack 1, ack 1, ack 0]
    see (exec .getUptime { s with ctl := { s.ctl with cR32 := 0x11112222 } })
      (fun t => (t.ctl.cStatus, t.ctl.cR32, t.ctl.sensor.length)) = some (.cciTimeout, 0x11112222, 1) := by decide

/-- V78. -/
theorem test_getTlmEn :
    see (exec .getTlmEn (withControl Cfg.default [ack 0, ack 0, ack 0, ack 0x1234]))
      (fun t => (t.ctl.cStatus, t.ctl.cRdata, sent t)) =
        some (.ok, 0x1234, [[0x00, 0x06, 0x00, 0x01], [0x00, 0x04, 0x02, 0x18], [0x00, 0x02], [0x00, 0x08]]) := by decide

/-- V79. -/
theorem test_setTlmEn :
    see (exec (.setTlmEn 0xABCD) (withControl Cfg.default [ack 0, ack 0, ack 0, ack 0]))
      (fun t => (t.ctl.cStatus, t.ctl.param 0, sent t)) =
        some (.ok, 0xABCD, [[0x00, 0x08, 0xAB, 0xCD], [0x00, 0x06, 0x00, 0x01], [0x00, 0x04, 0x02, 0x19],
          [0x00, 0x02]]) := by decide

/-- The example of R294. -/
theorem test_getTlmLoc :
    see (exec .getTlmLoc (withControl Cfg.default [ack 0, ack 0, ack 0, ack 0x0000]))
      (fun t => (t.ctl.cStatus, t.ctl.cRdata, sent t)) =
        some (.ok, 0, [[0x00, 0x06, 0x00, 0x01], [0x00, 0x04, 0x02, 0x1C], [0x00, 0x02], [0x00, 0x08]]) := by decide

/-- The example of R295. -/
theorem test_setTlmLoc :
    see (exec (.setTlmLoc 1) (withControl Cfg.default [ack 0, ack 0, ack 0, ack 0]))
      (fun t => (t.ctl.cStatus, sent t)) =
        some (.ok, [[0x00, 0x08, 0x00, 0x01], [0x00, 0x06, 0x00, 0x01], [0x00, 0x04, 0x02, 0x1D], [0x00, 0x02]]) := by
  decide

/-- The example of R296. -/
theorem test_getAgcEn :
    see (exec .getAgcEn (withControl Cfg.default [ack 0, ack 0, ack 0, ack 0x0001]))
      (fun t => (t.ctl.cStatus, t.ctl.cRdata, sent t)) =
        some (.ok, 1, [[0x00, 0x06, 0x00, 0x01], [0x00, 0x04, 0x01, 0x00], [0x00, 0x02], [0x00, 0x08]]) := by decide

/-- The example of R297. -/
theorem test_setAgcEn :
    see (exec (.setAgcEn 0) (withControl Cfg.default [ack 0, ack 0, ack 0, ack 0]))
      (fun t => (t.ctl.cStatus, sent t)) =
        some (.ok, [[0x00, 0x08, 0x00, 0x00], [0x00, 0x06, 0x00, 0x01], [0x00, 0x04, 0x01, 0x01], [0x00, 0x02]]) := by
  decide

/-- V82: the length write fails. -/
theorem test_setAgcEn_ioFault :
    see (exec (.setAgcEn 1) (withControl Cfg.default [ack 0, nack, ack 0]))
      (fun t => (t.ctl.cStatus, t.ctl.param 0, sent t)) =
        some (.ioFault, 1, [[0x00, 0x08, 0x00, 0x01], [0x00, 0x06, 0x00, 0x01]]) := by decide

/-- R360: a command presented under `rst` is not accepted; it is once `rst` is released. -/
theorem test_reset_holds_engines :
    let s := hostMove (.setReset true) (hostMove (.present .video 0x0600000005) State.reset)
    see (serve .video s) (fun t => (t.video.maxResets, t.video.vDone, t.video.cmd.valid)) = some (30, false, true) ∧
    see (serve .video (hostMove (.setReset false) s)) (fun t => (t.video.maxResets, t.video.vDone)) = some (5, true) := by
  decide

/-- The word of a table row runs as the first operation after reset. -/
theorem test_withFetchWord :
    see (step (State.reset.withFetchWord 40 0x0600000005)) (fun t => (t.video.maxResets, t.video.vStatus, t.video.vDone))
      = some (5, .ok, true) := by decide

/-! ## Witnesses: for each obligation with hypotheses, states and operands that meet them -/

/-! ### Encodings -/

theorem witness_DecodeInvertsEncode :
    WellFormed (.rdPkt 3 127) = true ∧ WellFormed (.tlmDec 0 0) = true ∧ WellFormed (.cciCmd 0xFFFF 31 31) = true ∧
    (Instr.rdPkt 3 127).port = .video ∧ (Instr.cciCmd 0xFFFF 31 31).port = .control := by decide

theorem witness_DecoderTakesExactlyTheListedCodes :
    decode 0x0100000000 = .ok (.cfgSession false) ∧ decode 0x37FFFFFFFF = .ok (.setAgcEn 0xFFFF) ∧
    opField 0x3700000000 ∈ [0x01, 0x37] ∧ opField 0x3800000000 ∉ [0x01, 0x37] ∧ opField 0x0000000000 = 0 := by decide

theorem witness_UnnamedBitsAreIgnored :
    (opField 0x0400000000 = opField 0x04FFFFFFFF ∧ opField 0x0400000000 ∈ [0x04, 0x05, 0x30, 0x31, 0x32, 0x34, 0x36]) ∧
    (opField 0x02007F0000 = opField 0x02FCFFFFFF ∧ slice (0x02007F0000 : CmdWord) 25 24 = slice (0x02FCFFFFFF : CmdWord) 25 24 ∧
      slice (0x02007F0000 : CmdWord) 22 16 = slice (0x02FCFFFFFF : CmdWord) 22 16) ∧
    (opField 0x0100000001 = 0x01 ∧ slice (0x0100000001 : CmdWord) 0 0 = slice (0x01FFFFFFFF : CmdWord) 0 0) ∧
    (opField 0x201234BEEF = 0x20 ∧ slice (0x201234BEEF : CmdWord) 31 16 = 0x1234 ∧
      slice (0x201234BEEF : CmdWord) 15 0 = 0xBEEF) ∧
    (opField 0x2112340000 = 0x21 ∧ slice (0x2112340000 : CmdWord) 31 16 = slice (0x211234FFFF : CmdWord) 31 16) ∧
    (opField 0x0600001234 ∈ [0x06, 0x33, 0x35, 0x37] ∧
      slice (0x0600001234 : CmdWord) 15 0 = slice (0x06FFFF1234 : CmdWord) 15 0) ∧
    (opField 0x22ABCD1F1F = 0x22 ∧ slice (0x22ABCD1F1F : CmdWord) 31 16 = slice (0x22ABCDFFFF : CmdWord) 31 16 ∧
      slice (0x22ABCD1F1F : CmdWord) 4 0 = slice (0x22ABCDFFFF : CmdWord) 4 0 ∧
      slice (0x22ABCD1F1F : CmdWord) 12 8 = slice (0x22ABCDFFFF : CmdWord) 12 8) := by decide

/-! ### The step -/

/-- Right after reset, with a word presented on a port. -/
def presented (p : Port) (cw : CmdWord) (moves : List Move) : State :=
  { State.reset.presentIdle p cw with agenda := moves }

theorem default_valid : Cfg.default.Valid := by decide

theorem witness_StepRunsDecodedOperation_agenda :
    let s := presented .control 0x3700000001 [.serve .control, .serve .video]
    s.cfg.Valid ∧ s.agenda = .serve .control :: [.serve .video] ∧ s.rst = false ∧ s.busy .control = false ∧
    (s.port .control).valid = true ∧ decodeOn .control (s.port .control).word = .ok (.setAgcEn 1) :=
  ⟨default_valid, rfl, rfl, rfl, rfl, by decide⟩

theorem witness_StepRunsDecodedOperation_empty :
    let s := presented .video 0x0400000000 []
    s.cfg.Valid ∧ s.agenda = [] ∧ Port.video = s.nextPort ∧ s.rst = false ∧ s.busy .video = false ∧
    (s.port .video).valid = true ∧ decodeOn .video (s.port .video).word = .ok .sync :=
  ⟨default_valid, rfl, rfl, rfl, rfl, rfl, by decide⟩

theorem witness_StepWithoutNewCommand :
    (let s := { midVideo tiny .rdPkt (.packet 3 2) [] with agenda := [.serve .video] }
     s.cfg.Valid ∧ s.agenda = .serve .video :: [] ∧ s.rst = false ∧ s.busy .video = true) ∧
    (let s := { State.reset with agenda := [.serve .control] }
     s.cfg.Valid ∧ s.agenda = .serve .control :: [] ∧ s.busy .control = false ∧ (s.port .control).valid = false) ∧
    (let s := hostMove (.setReset true) { presented .video 0x0400000000 [.serve .video] with ctl := (midControl tiny (.regRead 0) []).ctl }
     s.cfg.Valid ∧ s.agenda = .serve .video :: [] ∧ s.rst = true ∧ (s.port .video).valid = true) ∧
    (let s := { State.reset with agenda := [.host (.setReset true)] }
     s.cfg.Valid ∧ s.agenda = .host (.setReset true) :: []) ∧
    (State.reset.cfg.Valid ∧ State.reset.agenda = []) ∧
    ¬ (State.resetWith { Cfg.default with nTlm := 60 }).cfg.Valid :=
  ⟨⟨tiny_valid, rfl, rfl, rfl⟩, ⟨default_valid, rfl, rfl, rfl⟩, ⟨default_valid, rfl, rfl, rfl⟩, ⟨default_valid, rfl⟩,
    ⟨default_valid, rfl⟩, fun h => absurd h.2.2.1 (by decide)⟩

theorem witness_UnlistedCommandIsIllegal :
    (let s := presented .video 0x0000000000 [.serve .video]
     s.cfg.Valid ∧ s.rst = false ∧ s.agenda = .serve .video :: [] ∧ s.video.vBusy = false ∧ s.video.cmd.valid = true ∧
     decodeOn .video s.video.cmd.word = .error (.reservedOp 0)) ∧
    (let s := presented .control 0x1000000000 [.serve .control]
     s.cfg.Valid ∧ s.rst = false ∧ s.agenda = .serve .control :: [] ∧ s.ctl.cBusy = false ∧ s.ctl.cmd.valid = true ∧
     decodeOn .control s.ctl.cmd.word = .error (.wrongPort 0x10)) :=
  ⟨⟨default_valid, rfl, rfl, rfl, rfl, by decide⟩, ⟨default_valid, rfl, rfl, rfl, rfl, by decide⟩⟩

theorem witness_BusyPortTakesNoCommand :
    (midVideo tiny .sync .backoff []).busy (Instr.rdPkt 0 0).port = true ∧
    (midControl tiny (.regRead 0x0002) []).busy Instr.runFfc.port = true := ⟨rfl, rfl⟩

/-- On each engine: an acceptance that pauses and one that completes; a later turn that pauses, one that completes, and one
without an answer at hand. -/
theorem witness_PausingIsTransparent :
    ([whole 0x1000] ≠ [] ∧ [ack 0] ≠ [] ∧ Instr.sync.port = .video ∧ Instr.runFfc.port = .control) ∧
    (State.reset.video.vBusy = false ∧ (∃ t, exec .sync State.reset = .next t ∧ t.video.vBusy = true) ∧
      ∃ t, exec (.setMaxResets 5) State.reset = .next t ∧ t.video.vBusy = false) ∧
    (let s := midVideo tiny .rdPkt (.packet 0 0)
     (s [whole 0xF000]).video.vBusy = true ∧ (s [whole 0xF000]).video.sensor ≠ [] ∧ (s []).video.sensor = [] ∧
     ((s [whole 0xF000]).resume .video).video.vBusy = true ∧
     ((s [whole 0x1000]).resume .video).video.vBusy = false) ∧
    (State.reset.ctl.cBusy = false ∧ (∃ t, exec .runFfc State.reset = .next t ∧ t.ctl.cBusy = true) ∧
      ∃ t, exec (.cciCmd 0 17 0) State.reset = .next t ∧ t.ctl.cBusy = false) ∧
    (let s := midControl tiny (.length ⟨0, 0, 0⟩)
     (s [ack 0]).ctl.cBusy = true ∧ (s [ack 0]).ctl.sensor ≠ [] ∧ (s []).ctl.sensor = [] ∧
     ((s [ack 0]).resume .control).ctl.cBusy = true ∧ ((s [nack]).resume .control).ctl.cBusy = false) :=
  ⟨⟨by simp, by simp, rfl, rfl⟩, ⟨rfl, ⟨_, rfl, rfl⟩, ⟨_, rfl, rfl⟩⟩,
    ⟨rfl, by simp [midVideo, withVideo], rfl, by decide +kernel, by decide +kernel⟩,
    ⟨rfl, ⟨_, rfl, rfl⟩, ⟨_, rfl, rfl⟩⟩, ⟨rfl, by simp [midControl, withControl], rfl, rfl, rfl⟩⟩

theorem witness_EngineTurnsCommute :
    let s := { midVideo tiny .rdPkt (.packet 0 0) [whole 0x1000] with ctl := (midControl tiny (.length ⟨0, 0, 0⟩) [nack]).ctl }
    ∃ a b, serve .video s = .next a ∧ serve .control a = .next b := ⟨_, _, rfl, rfl⟩

theorem witness_PortsShareNoState :
    (∃ t, exec .sync State.reset = .next t ∧ Instr.sync.port = .video) ∧
    (∃ t, exec .runFfc State.reset = .next t ∧ Instr.runFfc.port = .control) := ⟨⟨_, rfl, rfl⟩, ⟨_, rfl, rfl⟩⟩

/-! ### Reset and the host's ports -/

/-- `rst` asserted in the middle of `SYNC`, released, and the state the machine starts from. -/
theorem witness_ResetValues :
    (∃ t, t = hostMove (.setReset true) (midVideo tiny .sync .backoff [])) ∧
    (let s := hostMove (.setReset true) (midVideo tiny .sync .backoff [])
     s.rst = true ∧ ∃ t, t = hostMove (.setReset false) s) ∧
    (∃ t, t = State.resetWith tiny) := ⟨⟨_, rfl⟩, ⟨rfl, _, rfl⟩, ⟨_, rfl⟩⟩

theorem witness_ResetIsALevel :
    (hostMove (.setReset true) State.reset).rst = true ∧ State.reset.rst = false := ⟨rfl, rfl⟩

theorem witness_ParameterWritePort :
    (midControl tiny (.regRead 0x0002) []).ctl.cBusy = true ∧
    (State.reset.ctl.cBusy = false ∧ (15 : BitVec 4).toNat < State.reset.cfg.nData) ∧
    (State.resetWith { Cfg.default with nData := 15 }).cfg.nData ≤ (15 : BitVec 4).toNat ∧
    (0 : BitVec 4).toNat < State.reset.cfg.nData := by decide

/-! ### Operations without a transaction -/

theorem witness_CfgSessionResult : State.reset.video.vBusy = false := rfl

theorem witness_SetMaxResetsResult :
    State.reset.video.vBusy = false ∧ (254 : Word).toNat ≤ 254 ∧ 254 < (255 : Word).toNat := by decide

theorem witness_TlmDecResult :
    State.reset.video.vBusy = false ∧ 60 < State.reset.cfg.segCap ∧ State.reset.cfg.segCap ≤ 61 ∧
    (∃ t, exec (.tlmDec 0 60) State.reset = .next t) ∧ ∃ t, exec (.tlmDec 0 61) State.reset = .next t :=
  ⟨rfl, by decide, by decide, ⟨_, rfl⟩, ⟨_, rfl⟩⟩

theorem witness_TelemetryOffsetIsolation :
    Cfg.default.tlmLayout.Valid Cfg.default.payloadBytes ∧
    ∀ r ∈ Cfg.default.tlmLayout.ranges, AgreeOutside Cfg.default.payloadBytes r.1 r.2 (fun _ => 0) (fun i => if i = r.1 then 1 else 0) := by
  refine ⟨by decide, fun r hr i _ ho => ?_⟩
  have hpos : 0 < r.2 := (show ∀ r ∈ Cfg.default.tlmLayout.ranges, 0 < r.2 by decide) r hr
  have : i ≠ r.1 := by omega
  simp [this]

theorem witness_BadOperandIsRefused :
    (State.reset.video.vBusy = false ∧ State.reset.cfg.segCap ≤ 61) ∧
    (State.reset.ctl.cBusy = false ∧ State.reset.cfg.nData < 17) := by decide

theorem witness_XferNeedsSynchronized :
    State.reset.video.vBusy = false ∧ State.reset.video.fsState ≠ .synchronized := by decide

theorem witness_CancelledBeforeFirstRead :
    let s := { synced tiny frameBytes with video := { (synced tiny frameBytes).video with
      cmd := { CmdPort.quiet with cancel := true } } }
    s.video.vBusy = false ∧ s.video.cmd.cancel = true ∧ s.video.fsState = .synchronized := ⟨rfl, rfl, rfl⟩

/-! ### Packets -/

theorem pkt_length (id : Word) : (pkt id).length = 164 := by
  rw [pkt, List.length_append, List.length_replicate]; rfl

theorem discard_tiny (c : Cfg) (h : isDiscard c (wireId (pkt 0xF000)) = true) : DiscardAnswer c (whole 0xF000) :=
  ⟨by simp [whole, pkt_length], h, rfl⟩

theorem witness_StoredPacketViews : (pkt 0x1014).length = Cfg.default.packetBytes := by simp [pkt_length]

theorem witness_PacketByteOrderRoundTrip : (List.replicate 160 (0x5A : Byte)).length = Cfg.default.payloadBytes := by simp

theorem witness_StoredBulkViews :
    (pkt 0x1001).length = (withVideo tiny []).video.bulkLen tiny 0 ∧ 0 + 1 < (withVideo tiny []).video.count 0 :=
  ⟨by rw [pkt_length]; rfl, by decide⟩

/-- One discard packet within the bound 1, then a valid packet, into the last entry of a slot. -/
theorem witness_RdPktSkipsDiscards :
    let c := { tiny with maxDiscardSkips := some 1 }
    let s := withVideo c [whole 0xF000, whole 0x1000]
    s.video.vBusy = false ∧ 2 < s.cfg.segCap ∧ s.video.sensor = [whole 0xF000] ++ whole 0x1000 :: [] ∧
    (∀ d ∈ [whole 0xF000], DiscardAnswer s.cfg d) ∧
    (∀ bound, s.cfg.maxDiscardSkips = some bound → [whole 0xF000].length ≤ bound) ∧
    s.cfg.packetBytes ≤ (whole 0x1000).bytes.length ∧ isDiscard s.cfg (wireId (whole 0x1000).bytes) = false := by
  refine ⟨rfl, by decide, rfl, ?_, ?_, by simp [whole, pkt_length], by decide⟩
  · intro d hd; rw [List.mem_singleton.1 hd]; exact discard_tiny _ (by decide)
  · intro bound h; cases h; simp

/-- One discard more than the bound 1, and one discard within it with the cancel input high. -/
theorem witness_DiscardLoopFaults :
    (let c := { tiny with maxDiscardSkips := some 1 }
     let s := withVideo c [whole 0xF000, whole 0xFFFF]
     s.video.vBusy = false ∧ 0 < s.cfg.segCap ∧ s.video.sensor = [whole 0xF000] ++ whole 0xFFFF :: [] ∧
     (∀ d ∈ [whole 0xF000], DiscardAnswer s.cfg d) ∧ s.cfg.packetBytes ≤ (whole 0xFFFF).bytes.length ∧
     isDiscard s.cfg (wireId (whole 0xFFFF).bytes) = true ∧ s.cfg.maxDiscardSkips = some [whole 0xF000].length) ∧
    (let c := { tiny with maxDiscardSkips := some 1 }
     let a : VideoAnswer := { whole 0xF000 with cancel := true }
     let s := withVideo c [a]
     s.video.vBusy = false ∧ 0 < s.cfg.segCap ∧ s.video.sensor = [] ++ a :: [] ∧ s.cfg.packetBytes ≤ a.bytes.length ∧
     isDiscard s.cfg (wireId a.bytes) = true ∧
     (∀ bound, s.cfg.maxDiscardSkips = some bound → ([] : List VideoAnswer).length + 1 ≤ bound) ∧ a.cancel = true) := by
  refine ⟨⟨rfl, by decide, rfl, ?_, by simp [whole, pkt_length], by decide, rfl⟩,
    ⟨rfl, by decide, rfl, by simp [whole, pkt_length], by decide, ?_, rfl⟩⟩
  · intro d hd; rw [List.mem_singleton.1 hd]; exact discard_tiny _ (by decide)
  · intro bound h; cases h; simp

/-- The same in the middle of each operation, at the bound 1: after one discard that an earlier turn has skipped, and at the
first one. -/
theorem witness_DiscardLoopFaults_later (op : VideoOp) :
    (let c := { tiny with maxDiscardSkips := some 1 }
     let m := midVideo c op (.packet 3 0) [whole 0xFFFF]
     let s := { m with video := { m.video with skips := 1 } }
     s.rst = false ∧ s.video.vBusy = true ∧ s.video.vOp = some op ∧ s.video.vAt = .packet 3 0 ∧
     s.video.sensor = [] ++ whole 0xFFFF :: [] ∧ s.cfg.packetBytes ≤ (whole 0xFFFF).bytes.length ∧
     isDiscard s.cfg (wireId (whole 0xFFFF).bytes) = true ∧
     s.cfg.maxDiscardSkips = some (s.video.skips + ([] : List VideoAnswer).length)) ∧
    (let c := { tiny with maxDiscardSkips := some 1 }
     let a : VideoAnswer := { whole 0xF000 with cancel := true }
     let s := midVideo c op (.packet 3 0) [a]
     s.rst = false ∧ s.video.vBusy = true ∧ s.video.vOp = some op ∧ s.video.vAt = .packet 3 0 ∧
     s.video.sensor = [] ++ a :: [] ∧ s.cfg.packetBytes ≤ a.bytes.length ∧
     isDiscard s.cfg (wireId a.bytes) = true ∧ a.cancel = true ∧
     ∀ bound, s.cfg.maxDiscardSkips = some bound → s.video.skips + ([] : List VideoAnswer).length + 1 ≤ bound) := by
  refine ⟨⟨rfl, rfl, rfl, rfl, rfl, by simp [whole, pkt_length], by cases op <;> decide, rfl⟩,
    ⟨rfl, rfl, rfl, rfl, rfl, by simp [whole, pkt_length], by cases op <;> decide, rfl, ?_⟩⟩
  intro bound h; cases h; exact Nat.le_refl 1

theorem witness_UnboundedDiscardLoopRunsOn_later (op : VideoOp) :
    let s := midVideo tiny op (.packet 3 0) [whole 0xF000]
    s.cfg.maxDiscardSkips = none ∧ s.rst = false ∧ s.video.vBusy = true ∧ s.video.vAt = .packet 3 0 ∧
    s.video.sensor ≠ [] ∧ ∀ d ∈ s.video.sensor, DiscardAnswer s.cfg d := by
  refine ⟨rfl, rfl, rfl, rfl, by simp [midVideo, withVideo], fun d hd => ?_⟩
  have : d = whole 0xF000 := by simpa [midVideo, withVideo] using hd
  rw [this]; exact discard_tiny _ (by cases op <;> decide)

theorem witness_UnboundedDiscardLoopRunsOn :
    let s := withVideo tiny [whole 0xF000, whole 0xF000]
    s.cfg.maxDiscardSkips = none ∧ s.video.vBusy = false ∧ 2 < s.cfg.segCap ∧
    ∀ d ∈ s.video.sensor, DiscardAnswer s.cfg d := by
  refine ⟨rfl, rfl, by decide, fun d hd => ?_⟩
  have : d = whole 0xF000 := by simpa [withVideo] using hd
  rw [this]; exact discard_tiny _ (by decide)

/-- A short packet read in each of the operations that read packets, and a short bulk read. -/
theorem witness_ShortVideoReadIsIoFault :
    let a : VideoAnswer := { bytes := (pkt 0x1000).take 163, cancel := false }
    (∀ op, (midVideo tiny op (.packet 0 2) [a]).rst = false ∧ (midVideo tiny op (.packet 0 2) [a]).video.vBusy = true ∧
      (midVideo tiny op (.packet 0 2) [a]).video.sensor = a :: [] ∧
      (midVideo tiny op (.packet 0 2) [a]).video.vOp = some op) ∧ a.bytes.length < tiny.packetBytes ∧
    (midVideo tiny .xfer (.bulk 3) [a]).video.vAt = .bulk 3 ∧
    a.bytes.length < tiny.packetBytes * ((midVideo tiny .xfer (.bulk 3) [a]).video.count 3 - 1) := by
  refine ⟨fun op => ⟨rfl, rfl, rfl, rfl⟩, ?_, rfl, ?_⟩
  · simp [pkt_length]
  · rw [show (midVideo tiny .xfer (.bulk 3) _).video.count 3 = 2 from rfl]
    simp [pkt_length]

/-! ### Segments -/

theorem seg_readable {id : Word} : (seg id).Readable tiny 2 where
  discards := by simp [seg]
  bounded := by simp [tiny]
  firstWhole := by simp [seg, whole, pkt_length]
  firstValid := by simp only [seg, whole]; decide
  bulkWhole := by simp [seg, whole, pkt_length]

theorem seg_anchorId (id : Word) : (seg id).anchorId tiny = id :=
  (show (seg id).anchorId tiny = beWord (hiByte id) (loByte id) from rfl).trans (beWord_hi_lo id)

theorem frame_good : GoodFrame tiny 2 frame where
  readable _ := seg_readable
  line k := by simp only [frame, seg_anchorId]; revert k; decide
  ttt k := by simp only [frame, seg_anchorId]; revert k; decide
  noCancel _ _ := rfl

theorem reset_inv {c : Cfg} (hc : c.Valid) : (State.resetWith c).Inv :=
  ⟨hc, .afterReset hc _ _ _ _ _, .afterReset _ _ _ _ _ _, nofun⟩

/-- The block with its video side in a state of the invariant, and answers waiting there. -/
theorem inv_withVideo {v : Video} (h : v.Inv tiny) (as : List VideoAnswer) :
    State.Inv { State.resetWith tiny with video := { v with sensor := as } } :=
  ⟨tiny_valid, h.withInputs v.cmd as v.tick, (reset_inv tiny_valid).ctl, nofun⟩

theorem video_inv (as : List VideoAnswer) : (withVideo tiny as).video.Inv tiny :=
  (reset_inv tiny_valid).video.withInputs (State.resetWith tiny).video.cmd as (State.resetWith tiny).video.tick

theorem tiny_counts (as : List VideoAnswer) (k : Slot) : (withVideo tiny as).video.count k = 2 := by
  have h : ∀ k, (withVideo tiny []).video.count k = 2 := by decide
  exact h k

/-- With two packets per segment, and with one. -/
theorem witness_RdSegResult :
    (let s := withVideo tiny ((seg 0x2001).answers 2 ++ [])
     s.video.vBusy = false ∧ 2 < s.cfg.segCap ∧ s.video.sensor = (seg 0x2001).answers (s.video.count 1) ++ [] ∧
     (seg 0x2001).Readable s.cfg (s.video.count 1)) ∧
    (let c := { tiny with anchor := 0, nNormal := 1, nTlm := 2 }
     let s := withVideo c ((seg 0x2001).answers 1 ++ [])
     s.video.vBusy = false ∧ 0 < s.cfg.segCap ∧ s.video.sensor = (seg 0x2001).answers (s.video.count 3) ++ [] ∧
     (seg 0x2001).Readable s.cfg (s.video.count 3)) := by
  refine ⟨⟨rfl, by decide, rfl, ?_⟩, ⟨rfl, by decide, rfl, ?_⟩⟩
  · rw [tiny_counts]; exact seg_readable
  · exact ⟨by simp [seg], by simp [tiny, withVideo, State.resetWith], by simp [seg, whole, pkt_length],
      by simp only [seg, whole]; decide, Nat.zero_le _⟩

/-- In the accepting turn and in a later one: `RD_PKT`, and `RD_SEG` at each of its two waits. -/
theorem witness_PacketAndSegmentReadFrame :
    (∃ t, exec (.rdPkt 3 2) (withVideo tiny [whole 0x1000]) = .next t) ∧
    (∃ t, exec (.rdSeg 3 0) (withVideo tiny ((seg 0x4001).answers 2)) = .next t) ∧
    0 < (withVideo tiny ((seg 0x4001).answers 2)).video.count 3 ∧
    (∃ s : State, s.Inv ∧ s.video.vBusy = true ∧ s.video.vOp = some .rdPkt ∧ s.video.vAt = .packet 3 2) ∧
    (∃ s : State, s.Inv ∧ s.video.vBusy = true ∧ s.video.vOp = some .rdSeg ∧ s.video.vAt = .packet 3 0 ∧
      0 < s.video.count 3) ∧
    (∃ s : State, s.Inv ∧ s.video.vBusy = true ∧ s.video.vOp = some .rdSeg ∧ s.video.vAt = .bulk 3 ∧
      0 < s.video.count 3) := by
  have hi : ∀ as, (withVideo tiny as).Inv := fun as => inv_withVideo (video_inv []) as
  have h1 : (∃ t, exec (.rdPkt 3 2) (withVideo tiny []) = .next t ∧ t.video.vBusy = true ∧ t.video.vOp = some .rdPkt ∧
      t.video.vAt = .packet 3 2) := ⟨_, rfl, rfl, rfl, rfl⟩
  have h2 : (∃ t, exec (.rdSeg 3 0) (withVideo tiny []) = .next t ∧ t.video.vBusy = true ∧ t.video.vOp = some .rdSeg ∧
      t.video.vAt = .packet 3 0 ∧ 0 < t.video.count 3) := ⟨_, rfl, rfl, rfl, rfl, by decide⟩
  have h3 : (∃ t, exec (.rdSeg 3 0) (withVideo tiny [whole 0x4000]) = .next t ∧ t.video.vBusy = true ∧
      t.video.vOp = some .rdSeg ∧ t.video.vAt = .bulk 3 ∧ 0 < t.video.count 3) :=
    ⟨_, rfl, by decide +kernel, by decide +kernel, by decide +kernel, by decide +kernel⟩
  obtain ⟨t1, e1, r1⟩ := h1
  obtain ⟨t2, e2, r2⟩ := h2
  obtain ⟨t3, e3, r3⟩ := h3
  exact ⟨⟨_, rfl⟩, ⟨_, rfl⟩, by rw [tiny_counts]; omega, ⟨t1, (hi _).exec rfl e1, r1⟩, ⟨t2, (hi _).exec rfl e2, r2⟩,
    ⟨t3, (hi _).exec rfl e3, r3⟩⟩

/-! ### The synchronizer -/

/-- A misaligned attempt with its backoff, and one whose TTT is 3. -/
def missedAttempts : List Attempt :=
  [{ seg := seg 0x1005, backoff := some (whole 0) }, { seg := seg 0x3001, backoff := none }]

theorem missed_ok : ∀ t ∈ missedAttempts, t.Missed tiny 2 := by
  intro t ht
  simp only [missedAttempts, List.mem_cons, List.not_mem_nil, or_false] at ht
  rcases ht with rfl | rfl
  · refine ⟨seg_readable, ?_⟩
    simp only [seg_anchorId]
    exact ⟨by decide, rfl⟩
  · refine ⟨seg_readable, ?_⟩
    simp only [seg_anchorId]
    exact ⟨by decide, by decide, rfl⟩

theorem witness_SyncAcquiresFrame :
    let s := withVideo tiny (missedAttempts.flatMap (Attempt.answers 2) ++ (frameAnswers 2 frame ++ []))
    s.video.vBusy = false ∧ s.video.cmd.cancel = false ∧ (∀ k, s.video.count k = 2) ∧ s.cfg.anchor < 2 ∧
    (∀ t ∈ missedAttempts, t.Missed s.cfg 2) ∧ misalignments missedAttempts ≤ s.video.maxResets ∧
    GoodFrame s.cfg 2 frame ∧
    s.video.sensor = missedAttempts.flatMap (Attempt.answers 2) ++ (frameAnswers 2 frame ++ []) :=
  ⟨rfl, rfl, tiny_counts _, by decide, missed_ok, by decide, frame_good, rfl⟩

/-- `max_resets = 1`, as many misalignments as that, and one more. -/
theorem witness_SyncFailsPastMaxResets :
    let as := missedAttempts.flatMap (Attempt.answers 2) ++ ((seg 0x1005).answers 2 ++ whole 0 :: [])
    let s := withVideo { tiny with maxResetsDefault := 1 } as
    s.video.vBusy = false ∧ s.video.cmd.cancel = false ∧ (∀ k, s.video.count k = 2) ∧ s.cfg.anchor < 2 ∧
    (∀ t ∈ missedAttempts, t.Missed s.cfg 2) ∧ misalignments missedAttempts = s.video.maxResets ∧
    (seg 0x1005).Readable s.cfg 2 ∧ lineOf ((seg 0x1005).anchorId s.cfg) ≠ s.cfg.anchor ∧ s.video.sensor = as := by
  refine ⟨rfl, rfl, ?_, by decide, ?_, by decide, ?_, ?_, rfl⟩
  · intro k; exact tiny_counts [] k
  · intro t ht
    obtain ⟨⟨h1, h2, h3, h4, h5⟩, h⟩ := missed_ok t ht
    exact ⟨⟨fun d hd => ⟨(h1 d hd).1, (h1 d hd).2, (h1 d hd).3⟩, h2, h3, h4, h5⟩, h⟩
  · obtain ⟨h1, h2, h3, h4, h5⟩ := seg_readable (id := 0x1005)
    exact ⟨fun d hd => ⟨(h1 d hd).1, (h1 d hd).2, (h1 d hd).3⟩, h2, h3, h4, h5⟩
  · exact (show lineOf ((seg 0x1005).anchorId tiny) ≠ 1 by rw [seg_anchorId]; decide)

theorem witness_SyncSeeksWithoutBound :
    let seeks : List Attempt := [{ seg := seg 0x3001, backoff := none }, { seg := seg 0x0001, backoff := none }]
    let s := withVideo tiny (seeks.flatMap (Attempt.answers 2))
    s.video.vBusy = false ∧ s.video.cmd.cancel = false ∧ (∀ k, s.video.count k = 2) ∧ s.cfg.anchor < 2 ∧
    (∀ t ∈ seeks, t.Missed s.cfg 2 ∧ t.backoff = none) ∧ seeks ≠ [] ∧
    s.video.sensor = seeks.flatMap (Attempt.answers 2) := by
  refine ⟨rfl, rfl, tiny_counts _, by decide, fun t ht => ?_, by simp, rfl⟩
  have hs : ∀ id : Word, lineOf id = tiny.anchor → tttOf id ≠ tiny.tttFirst →
      Attempt.Missed tiny 2 { seg := seg id, backoff := none } := fun id h1 h2 =>
    ⟨seg_readable, by simp only [seg_anchorId]; exact ⟨h1, h2, rfl⟩⟩
  simp only [List.mem_cons, List.not_mem_nil, or_false] at ht
  rcases ht with rfl | rfl
  · exact ⟨hs _ (by decide) (by decide), rfl⟩
  · exact ⟨hs _ (by decide) (by decide), rfl⟩

theorem mid_counts (op : VideoOp) (l : VideoAt) (as : List VideoAnswer) (k : Slot) :
    (midVideo tiny op l as).video.count k = 2 := tiny_counts as k

/-- The common hypotheses of `SyncSegmentOutcomes` and `XferSegmentOutcomes`, for every operation, slot and anchor. -/
theorem witness_SegmentOutcomes (op : VideoOp) (k : Slot) (id : Word) :
    let s := midVideo tiny op (.packet k 0) ((seg id).answers 2)
    s.video.vBusy = true ∧ s.video.vOp = some op ∧ s.video.vAt = .packet k 0 ∧ s.video.skips = 0 ∧
    s.video.count k = 2 ∧ s.cfg.anchor < 2 ∧ (seg id).Readable s.cfg 2 ∧ s.video.sensor = (seg id).answers 2 ∧
    s.rst = false ∧ (seg id).anchorId s.cfg = id ∧ (seg id).cancel 2 = false :=
  ⟨rfl, rfl, rfl, rfl, mid_counts .., (by decide : tiny.anchor < 2), seg_readable, rfl, rfl, seg_anchorId id, rfl⟩

/-- An anchor for each clause of the two statements: misaligned; matched at slot 3 and before it; stale at slot 1, within
the limit and past it; of another segment at slot 1 and at slot 0, where stale counts as that. -/
theorem witness_SegmentOutcomes_clauses :
    lineOf 0x1005 ≠ tiny.anchor ∧
    (lineOf 0x4001 = tiny.anchor ∧ tttOf 0x4001 = (3 : Slot).val + 1) ∧
    (lineOf 0x1001 = tiny.anchor ∧ tttOf 0x1001 = (0 : Slot).val + 1 ∧ (1 : Slot).val = (0 : Slot).val + 1) ∧
    (lineOf 0x0001 = tiny.anchor ∧ tttOf 0x0001 = 0 ∧ (1 : Slot) ≠ 0 ∧ 3 + 1 ≤ tiny.invalidLimit ∧
      tiny.invalidLimit < 4 + 1) ∧
    (lineOf 0x4001 = tiny.anchor ∧ tttOf 0x4001 ≠ (1 : Slot).val + 1 ∧ tttOf 0x4001 ≠ 0) ∧
    (lineOf 0x0001 = tiny.anchor ∧ tttOf 0x0001 ≠ (0 : Slot).val + 1) := by decide

/-- A segment whose last read leaves the cancel input high. -/
def cancelSeg (id : Word) : Segment := { seg id with bulk := { whole id with cancel := true } }

theorem cancelSeg_readable {id : Word} : (cancelSeg id).Readable tiny 2 :=
  let h := seg_readable (id := id)
  ⟨h.discards, h.bounded, h.firstWhole, h.firstValid, h.bulkWhole⟩

/-- The clauses for the cancel input, for every operation, slot and anchor, and an anchor for each form of them: matched
before slot 3, stale within the limit, of another segment. -/
theorem witness_SegmentOutcomes_cancel (op : VideoOp) (k : Slot) (id : Word) :
    (let s := midVideo tiny op (.packet k 0) ((cancelSeg id).answers 2)
     s.video.vBusy = true ∧ s.video.vOp = some op ∧ s.video.vAt = .packet k 0 ∧ s.video.skips = 0 ∧
     s.video.count k = 2 ∧ s.cfg.anchor < 2 ∧ (cancelSeg id).Readable s.cfg 2 ∧
     s.video.sensor = (cancelSeg id).answers 2 ∧ s.rst = false ∧ (cancelSeg id).anchorId s.cfg = id ∧
     (cancelSeg id).cancel 2 = true) ∧
    (lineOf 0x3001 = tiny.anchor ∧ tttOf 0x3001 = (2 : Slot).val + 1 ∧ (2 : Slot) ≠ 3 ∧
      lineOf 0x0001 = tiny.anchor ∧ tttOf 0x0001 = 0 ∧ 3 + 1 ≤ tiny.invalidLimit ∧
      lineOf 0x4001 = tiny.anchor ∧ tttOf 0x4001 ≠ (1 : Slot).val + 1 ∧ tttOf 0x4001 ≠ 0) :=
  ⟨⟨rfl, rfl, rfl, rfl, mid_counts .., (by decide : tiny.anchor < 2), cancelSeg_readable, rfl, rfl,
    seg_anchorId id, rfl⟩, by decide⟩

/-- One misalignment more than `max_resets`, and as many, with the cancel input high and low. -/
theorem witness_SyncBackoffOutcomes :
    let s := fun (resets : Nat) (cancel : Bool) =>
      { midVideo tiny .sync .backoff [] with video := { (midVideo tiny .sync .backoff []).video with
          resets := resets, sensor := [{ bytes := [], cancel := cancel }] } }
    (∀ n b, (s n b).rst = false ∧ (s n b).video.vBusy = true ∧ (s n b).video.vOp = some .sync ∧
      (s n b).video.vAt = .backoff ∧ (s n b).video.sensor = [{ bytes := [], cancel := b }]) ∧
    (s 30 true).video.maxResets < (s 30 true).video.resets + 1 ∧
    (s 29 true).video.resets + 1 ≤ (s 29 true).video.maxResets ∧
    (s 29 false).video.resets + 1 ≤ (s 29 false).video.maxResets :=
  ⟨fun _ _ => ⟨rfl, rfl, rfl, rfl, rfl⟩, by decide, by decide, by decide⟩

theorem witness_XferTransfersFrame :
    let s := synced tiny (frameAnswers 2 frame ++ [])
    s.video.vBusy = false ∧ s.video.fsState = .synchronized ∧ s.video.cmd.cancel = false ∧
    (∀ k, s.video.count k = 2) ∧ s.cfg.anchor < 2 ∧ GoodFrame s.cfg 2 frame ∧
    s.video.sensor = frameAnswers 2 frame ++ [] :=
  ⟨rfl, rfl, rfl, tiny_counts [], by decide, frame_good, rfl⟩

/-- `SYNC` paused before its first segment, and a whole frame waiting. -/
def pausedSync : State :=
  { State.resetWith tiny with video := { syncOp tiny (withVideo tiny []).video with sensor := frameBytes } }

/-- `XFER` paused before its first segment, and a whole frame waiting. -/
def pausedXfer : State :=
  { State.resetWith tiny with video := { xferOp tiny (synced tiny []).video with sensor := frameBytes } }

theorem pausedSync_inv : pausedSync.Inv := inv_withVideo ((video_inv _).sync tiny_valid) _

theorem synced_inv : (synced tiny []).video.Inv tiny :=
  let h := video_inv []
  ⟨h.fbCanonical, h.fbInRange, h.counts, h.maxResetsLegal, h.resetsFit, h.vResetsFit, h.vFramesFit, h.segFits, h.segZero,
    h.segOfSlot, h.invalidFits, h.skipsBounded, h.busyIff, h.notDoneWhileBusy, h.atLegal, nofun, nofun, nofun,
    fun _ => Nat.zero_le _, h.frameSoFar, h.frameInvalidWhileBusy, nofun, nofun⟩

theorem pausedXfer_inv : pausedXfer.Inv := inv_withVideo (synced_inv.xfer tiny_valid) _

/-- A read that delivers nothing. -/
def noBytes : VideoAnswer := { bytes := [], cancel := false }

/-- In the accepting turn, on a short read, and in a later one, on a whole frame. -/
theorem witness_SyncCompletionTable :
    (let s := withVideo tiny [noBytes]
     s.video.vBusy = false ∧ ∃ t, exec .sync s = .next t ∧ t.video.vBusy = false) ∧
    (pausedSync.Inv ∧ pausedSync.video.vBusy = true ∧ pausedSync.video.vOp = some .sync ∧
     ∃ t, serve .video pausedSync = .next t ∧ t.video.vBusy = false) :=
  ⟨⟨rfl, _, rfl, rfl⟩, ⟨pausedSync_inv, rfl, rfl, _, serve_busy rfl rfl, by decide +kernel⟩⟩

/-- In the accepting turn, on a short read, and in a later one, on a whole frame. -/
theorem witness_XferCompletionTable :
    (let s := synced tiny [noBytes]
     s.video.vBusy = false ∧ s.video.fsState = .synchronized ∧
     ∃ t, exec .xfer s = .next t ∧ t.video.vBusy = false) ∧
    (pausedXfer.Inv ∧ pausedXfer.video.vBusy = true ∧ pausedXfer.video.vOp = some .xfer ∧
     ∃ t, serve .video pausedXfer = .next t ∧ t.video.vBusy = false) :=
  ⟨⟨rfl, rfl, _, rfl, rfl⟩, ⟨pausedXfer_inv, rfl, rfl, _, serve_busy rfl rfl, by decide +kernel⟩⟩

/-- In the accepting turn and in a later one. -/
theorem witness_SyncAndXferFrame :
    (let s := synced tiny frameBytes
     (∃ t, exec .sync s = .next t) ∧ (∃ t, exec .xfer s = .next t) ∧ ∀ k, 0 < s.video.count k) ∧
    (pausedSync.Inv ∧ pausedSync.video.vBusy = true ∧ pausedSync.video.vOp = some .sync ∧
      ∀ k, 0 < pausedSync.video.count k) ∧
    (pausedXfer.Inv ∧ pausedXfer.video.vBusy = true ∧ pausedXfer.video.vOp = some .xfer ∧
      ∀ k, 0 < pausedXfer.video.count k) :=
  ⟨⟨⟨_, rfl⟩, ⟨_, rfl⟩, fun k => by have := tiny_counts frameBytes k; exact this ▸ Nat.zero_lt_two⟩,
    ⟨pausedSync_inv, rfl, rfl, by decide⟩, ⟨pausedXfer_inv, rfl, rfl, by decide⟩⟩

/-- A turn that leaves the operation in progress, in the accepting turn and in a later one: `RD_PKT` and `RD_SEG`. -/
theorem witness_PacketAndSegmentReadFrame_paused :
    (∃ t, exec (.rdPkt 0 2) (State.resetWith tiny) = .next t ∧ t.video.vBusy = true) ∧
    (∃ t, exec (.rdSeg 0 0) (State.resetWith tiny) = .next t ∧ t.video.vBusy = true) ∧
    ((midVideo tiny .rdPkt (.packet 0 2) [whole 0xF000]).resume .video).video.vBusy = true ∧
    ((midVideo tiny .rdSeg (.packet 0 0) [whole 0x1000]).resume .video).video.vBusy = true :=
  ⟨⟨_, rfl, rfl⟩, ⟨_, rfl, rfl⟩, by decide +kernel, by decide +kernel⟩

/-- The same for `SYNC` and `XFER`. -/
theorem witness_SyncAndXferFrame_paused :
    (∃ t, exec .sync (withVideo tiny []) = .next t ∧ t.video.vBusy = true) ∧
    (∃ t, exec .xfer (synced tiny []) = .next t ∧ t.video.vBusy = true) ∧
    ((midVideo tiny .sync (.packet 0 0) [whole 0x1000]).resume .video).video.vBusy = true ∧
    ((midVideo tiny .xfer (.packet 0 0) [whole 0x1000]).resume .video).video.vBusy = true :=
  ⟨⟨_, rfl, rfl⟩, ⟨_, rfl, rfl⟩, by decide +kernel, by decide +kernel⟩

/-- `RD_PKT` from reset with no answer at hand: it goes on in a later step, and the invariant holds meanwhile. `frame_valid`
rises in the turn that accepts `SYNC` and in a later one. -/
theorem witness_WritersOfVideoState :
    (∃ s : State, exec (.rdPkt 0 2) (State.resetWith tiny) = .next s ∧ s.Inv ∧ s.video.vBusy = true) ∧
    ((withVideo tiny frameBytes).video.frameValid = false ∧
      ∃ t, exec .sync (withVideo tiny frameBytes) = .next t ∧ t.video.frameValid = true) ∧
    (pausedSync.Inv ∧ pausedSync.video.vBusy = true ∧ (pausedSync.resume .video).video.frameValid = true) :=
  ⟨⟨_, rfl, (reset_inv tiny_valid).exec (i := .rdPkt 0 2) rfl rfl, rfl⟩, ⟨rfl, _, rfl, by decide +kernel⟩,
    ⟨pausedSync_inv, rfl, by decide +kernel⟩⟩

/-! ### The control port -/

theorem witness_RegWrResult :
    (withControl Cfg.default [ack 0]).ctl.cBusy = false ∧ (withControl Cfg.default [ack 0]).ctl.sensor = ack 0 :: [] ∧
    (withControl Cfg.default [nack]).ctl.sensor = nack :: [] := ⟨rfl, rfl, rfl⟩

theorem witness_RegRdResult :
    (withControl Cfg.default [ack 7]).ctl.cBusy = false ∧ (withControl Cfg.default [ack 7]).ctl.sensor = ack 7 :: [] ∧
    (withControl Cfg.default [nack]).ctl.sensor = nack :: [] := ⟨rfl, rfl, rfl⟩

theorem witness_WriteThenRead :
    let s := withControl Cfg.default [ack 0, ack 0xBEEF]
    s.ctl.cBusy = false ∧ s.ctl.sensor = ack 0 :: ack 0xBEEF :: [] ∧ (ack 0).ack = true ∧ (ack 0xBEEF).ack = true ∧
    (ack 0xBEEF).r0 = hiByte 0xBEEF ∧ (ack 0xBEEF).r1 = loByte 0xBEEF ∧
    ∃ t, exec (.regWr 0x1234 0xBEEF) s = .next t := ⟨rfl, rfl, rfl, rfl, rfl, rfl, _, rfl⟩

/-- A handshake of `np` parameter words and the given result words, with one busy status read. -/
def script (np : Nat) (results : List CciAnswer) : HandshakeScript where
  paramAcks := List.replicate np (ack 0)
  lengthAck := ack 0
  commandAck := ack 0
  busy := [ack 0xFFFF]
  ready := ack 0xFFFE
  results := results

theorem script_acked (np : Nat) (results : List CciAnswer) : (script np results).WritesAcked np where
  paramCount := by simp [script]
  params a ha := by simp [script] at ha; rw [ha.2]; rfl
  length := rfl
  command := rfl

theorem busy_answer : BusyAnswer Cfg.default (ack 0xFFFF) := ⟨rfl, by decide, rfl⟩

theorem script_succeeds (np : Nat) (results : List CciAnswer) (h : ∀ a ∈ results, a.ack = true) :
    (script np results).Succeeds Cfg.default np results.length where
  toWritesAcked := script_acked np results
  busyAnswers a ha := by rw [List.mem_singleton.1 ha]; exact busy_answer
  belowLimit limit hl := by simp [Cfg.default] at hl
  readyAck := rfl
  readyValue := by simp only [script]; decide
  resultCount := rfl
  resultAcks := h

/-- The most words that `N_DATA` allows, of both kinds. -/
theorem witness_CciCmdResult :
    let x := script 16 (List.replicate 16 (ack 5))
    let s := withControl Cfg.default (x.answers ++ [])
    s.cfg.Valid ∧ s.ctl.cBusy = false ∧ 16 ≤ s.cfg.nData ∧ s.ctl.sensor = x.answers ++ [] ∧
    x.Succeeds s.cfg 16 16 :=
  ⟨default_valid, rfl, by decide, rfl, script_succeeds 16 (List.replicate 16 (ack 5)) fun a ha => by
    rw [List.eq_of_mem_replicate ha]; rfl⟩

theorem witness_RunFfcResult :
    let x := script 0 []
    let s := withControl Cfg.default (x.answers ++ [])
    s.cfg.Valid ∧ s.ctl.cBusy = false ∧ s.ctl.sensor = x.answers ++ [] ∧ x.Succeeds s.cfg 0 0 :=
  ⟨default_valid, rfl, rfl, script_succeeds 0 [] (by simp)⟩

theorem witness_GetUptimeResult :
    let x := script 0 [ack 0x5678, ack 0x1234]
    let s := withControl Cfg.default (x.answers ++ [])
    s.cfg.Valid ∧ s.ctl.cBusy = false ∧ s.ctl.sensor = x.answers ++ [] ∧ x.Succeeds s.cfg 0 2 ∧
    x.results = [ack 0x5678, ack 0x1234] :=
  ⟨default_valid, rfl, rfl, script_succeeds 0 [ack 0x5678, ack 0x1234] (by simp [ack]), rfl⟩

theorem witness_GetEnumResult :
    let x := script 0 [ack 0xFFFF]
    let s := withControl Cfg.default (x.answers ++ [])
    s.cfg.Valid ∧ s.ctl.cBusy = false ∧ s.cfg.enumWords ≤ s.cfg.nData ∧ s.ctl.sensor = x.answers ++ [] ∧
    x.Succeeds s.cfg 0 s.cfg.enumWords ∧
    x.results[0]? = some (ack 0xFFFF) ∧
    (Instr.getAgcEn, s.cfg.opcGetAgcEn) ∈ [(Instr.getTlmEn, s.cfg.opcGetTlmEn), (.getTlmLoc, s.cfg.opcGetTlmLoc),
      (.getAgcEn, s.cfg.opcGetAgcEn)] :=
  ⟨default_valid, rfl, by decide, rfl, script_succeeds 0 [ack 0xFFFF] (by simp [ack]), rfl, by simp⟩

theorem witness_SetEnumResult :
    let x := script 1 []
    let s := withControl Cfg.default (x.answers ++ [])
    s.cfg.Valid ∧ s.ctl.cBusy = false ∧ s.cfg.enumWords ≤ s.cfg.nData ∧ s.ctl.sensor = x.answers ++ [] ∧
    x.Succeeds s.cfg s.cfg.enumWords 0 ∧
    (Instr.setTlmLoc 9, s.cfg.opcSetTlmLoc) ∈ [(Instr.setTlmEn 9, s.cfg.opcSetTlmEn),
      (.setTlmLoc 9, s.cfg.opcSetTlmLoc), (.setAgcEn 9, s.cfg.opcSetAgcEn)] :=
  ⟨default_valid, rfl, by decide, rfl, script_succeeds 1 [] (by simp), by simp⟩

/-- `N_DATA` 2, `ENUM_WORDS` 3: the smallest number of words beyond the smallest window. -/
theorem witness_EnumWordsBeyondDataIsBadOperand :
    let s := withControl { Cfg.default with nData := 2, enumWords := 3 } []
    s.cfg.Valid ∧ s.ctl.cBusy = false ∧ s.cfg.nData < s.cfg.enumWords ∧
    Instr.getAgcEn ∈ [Instr.getTlmEn, .getTlmLoc, .getAgcEn] ∧
    Instr.setAgcEn 9 ∈ [Instr.setTlmEn 9, .setTlmLoc 9, .setAgcEn 9] :=
  ⟨by decide, rfl, by decide, by simp, by simp⟩

/-- The bound 2: one busy answer, then the last one the bound allows. -/
theorem witness_PollBoundTimesOut :
    let x := script 1 []
    let busy := [ack 0xFFFF]
    let s := withControl { Cfg.default with cciPollLimit := some 2 } (x.writeAnswers ++ (busy ++ ack 1 :: []))
    s.ctl.cBusy = false ∧ 1 ≤ s.cfg.nData ∧ 0 ≤ s.cfg.nData ∧
    s.ctl.sensor = x.writeAnswers ++ (busy ++ ack 1 :: []) ∧ x.WritesAcked 1 ∧ (∀ b ∈ busy, BusyAnswer s.cfg b) ∧
    (ack 1).ack = true ∧ isBusy s.cfg (answerValue (ack 1)) = true ∧ s.cfg.cciPollLimit = some (busy.length + 1) := by
  refine ⟨rfl, by decide, by decide, rfl, script_acked 1 [], fun b hb => ?_, rfl, by decide, rfl⟩
  rw [List.mem_singleton.1 hb]; exact ⟨rfl, by decide, rfl⟩

/-- The bound 3: one busy answer, then one below the bound with the cancel input high. -/
theorem witness_PollIsCancelled :
    let x := script 0 []
    let busy := [ack 0xFFFF]
    let a : CciAnswer := { ack 1 with cancel := true }
    let s := withControl { Cfg.default with cciPollLimit := some 3 } (x.writeAnswers ++ (busy ++ a :: []))
    s.ctl.cBusy = false ∧ 0 ≤ s.cfg.nData ∧ s.ctl.sensor = x.writeAnswers ++ (busy ++ a :: []) ∧ x.WritesAcked 0 ∧
    (∀ b ∈ busy, BusyAnswer s.cfg b) ∧ a.ack = true ∧ isBusy s.cfg (answerValue a) = true ∧ a.cancel = true ∧
    (∀ limit, s.cfg.cciPollLimit = some limit → busy.length + 1 < limit) := by
  refine ⟨rfl, by decide, rfl, script_acked 0 [], fun b hb => ?_, rfl, by decide, rfl, fun limit h => ?_⟩
  · rw [List.mem_singleton.1 hb]; exact ⟨rfl, by decide, rfl⟩
  · cases h; decide

theorem witness_UnboundedPollRunsOn :
    let x := script 2 []
    let busy := [ack 0xFFFF, ack 1]
    let s := withControl Cfg.default (x.writeAnswers ++ busy)
    s.cfg.cciPollLimit = none ∧ s.ctl.cBusy = false ∧ 2 ≤ s.cfg.nData ∧ 16 ≤ s.cfg.nData ∧
    s.ctl.sensor = x.writeAnswers ++ busy ∧ x.WritesAcked 2 ∧ ∀ b ∈ busy, BusyAnswer s.cfg b := by
  refine ⟨rfl, rfl, by decide, by decide, rfl, script_acked 2 [], fun b hb => ?_⟩
  simp only [List.mem_cons, List.not_mem_nil, or_false] at hb
  rcases hb with rfl | rfl
  · exact busy_answer
  · exact ⟨rfl, by decide, rfl⟩

/-- In the busy poll of an operation of the control port, with the answers at hand. -/
def midPoll (c : Cfg) (op : ControlOp) (polls : Nat) (as : List CciAnswer) : State :=
  let s := midControl c (.poll ⟨0, 0, 1⟩ polls) as
  { s with ctl := { s.ctl with cOp := some op } }

/-- In each operation, after one poll in an earlier turn and one more, at the bound 3. -/
theorem witness_PollBoundTimesOut_later (op : ControlOp) :
    let busy := [ack 0xFFFF]
    let s := midPoll { Cfg.default with cciPollLimit := some 3 } op 1 (busy ++ ack 1 :: [])
    s.rst = false ∧ s.ctl.cBusy = true ∧ s.ctl.cOp = some op ∧ s.ctl.cAt = .poll ⟨0, 0, 1⟩ 1 ∧
    s.ctl.sensor = busy ++ ack 1 :: [] ∧ (∀ b ∈ busy, BusyAnswer s.cfg b) ∧ (ack 1).ack = true ∧
    isBusy s.cfg (answerValue (ack 1)) = true ∧ s.cfg.cciPollLimit = some (1 + busy.length + 1) := by
  refine ⟨rfl, rfl, rfl, rfl, rfl, fun b hb => ?_, rfl, by cases op <;> decide, rfl⟩
  rw [List.mem_singleton.1 hb]; exact ⟨rfl, by cases op <;> decide, rfl⟩

/-- In each operation, with the cancel input high one poll before the last that the bound 2 allows. -/
theorem witness_PollIsCancelled_later (op : ControlOp) :
    let a : CciAnswer := { ack 1 with cancel := true }
    let s := midPoll { Cfg.default with cciPollLimit := some 2 } op 0 ([] ++ a :: [])
    s.rst = false ∧ s.ctl.cBusy = true ∧ s.ctl.cOp = some op ∧ s.ctl.cAt = .poll ⟨0, 0, 1⟩ 0 ∧
    s.ctl.sensor = [] ++ a :: [] ∧ a.ack = true ∧ isBusy s.cfg (answerValue a) = true ∧ a.cancel = true ∧
    (∀ limit, s.cfg.cciPollLimit = some limit → 0 + ([] : List CciAnswer).length + 1 < limit) :=
  ⟨rfl, rfl, rfl, rfl, rfl, rfl, by cases op <;> decide, rfl, fun limit h => by cases h; decide⟩

theorem witness_UnboundedPollRunsOn_later (op : ControlOp) :
    let s := midPoll Cfg.default op 7 [ack 0xFFFF]
    s.cfg.cciPollLimit = none ∧ s.rst = false ∧ s.ctl.cBusy = true ∧ s.ctl.cOp = some op ∧
    s.ctl.cAt = .poll ⟨0, 0, 1⟩ 7 ∧ s.ctl.sensor ≠ [] ∧ ∀ b ∈ s.ctl.sensor, BusyAnswer s.cfg b := by
  refine ⟨rfl, rfl, rfl, rfl, rfl, by simp [midPoll, midControl, withControl], fun b hb => ?_⟩
  have : b = ack 0xFFFF := by simpa [midPoll, midControl, withControl] using hb
  rw [this]; exact busy_answer

theorem witness_ControlTransactionFailure :
    let s := midControl Cfg.default (.result ⟨0, 0, 2⟩ 1) [nack]
    s.ctl.cBusy = true ∧ s.ctl.cAt ≠ .idle ∧ s.ctl.sensor = nack :: [] ∧ nack.ack = false ∧
    s.rst = false := by
  refine ⟨rfl, by decide, rfl, rfl, rfl⟩

/-- An operation that ends in a fault, one still in progress, and one that ends `Ok`; and one in a later turn. -/
theorem witness_ControlFrame :
    (∃ t, exec .getTlmEn (withControl Cfg.default [nack]) = .next t ∧ t.ctl.cStatus ≠ .ok) ∧
    (∃ t, exec (.setTlmEn 1) (withControl Cfg.default []) = .next t ∧ t.ctl.cBusy = true) ∧
    (∃ t, exec (.regWr 0 0) (withControl Cfg.default [ack 0]) = .next t ∧ t.ctl.cStatus = .ok) ∧
    (Instr.getTlmEn.port = .control ∧ writesR32 .getTlmEn = false ∧ writesRdata (.setTlmEn 1) = false) ∧
    (∃ s : State, s.Inv ∧ s.ctl.cBusy = true ∧ s.ctl.cOp = some .setTlmEn ∧
      ControlOp.writesRdata .setTlmEn = false ∧ ControlOp.setTlmEn ≠ .getUptime) := by
  refine ⟨⟨_, rfl, by decide⟩, ⟨_, rfl, rfl⟩, ⟨_, rfl, rfl⟩, ⟨rfl, rfl, rfl⟩, ?_⟩
  have h : ∃ t, exec (.setTlmEn 1) State.reset = .next t ∧ t.ctl.cBusy = true ∧ t.ctl.cOp = some .setTlmEn :=
    ⟨_, rfl, rfl, rfl⟩
  obtain ⟨t, he, hb, ho⟩ := h
  exact ⟨t, (reset_inv default_valid).exec rfl he, hb, ho, rfl, by decide⟩

/-! ### The invariant -/

theorem witness_StepKeepsInvariant :
    (State.resetWith tiny).Inv ∧ ∃ t, step (State.resetWith tiny) = .next t :=
  ⟨reset_inv tiny_valid, _, rfl⟩

theorem witness_ResetMeetsInvariant : tiny.Valid := tiny_valid

/-- The video side after `SYNC` has acquired a frame from reset. -/
theorem witness_FrameValidPromise :
    let v := syncOp tiny (withVideo tiny frameBytes).video
    (State.Inv { State.resetWith tiny with video := { v with sensor := [] } }) ∧ v.frameValid = true :=
  ⟨inv_withVideo ((video_inv _).sync tiny_valid) [], by decide +kernel⟩

/-- An idle port with `frame_valid = 0` and a written byte, at the last address of the buffer. -/
theorem witness_FrameValidPromise_port :
    let s := { State.resetWith tiny with video := { (State.resetWith tiny).video with fb := [(1967, 0x5A)] } }
    s.video.vBusy = false ∧ s.video.frameValid = false ∧ (1967 : Word).toNat < s.cfg.fbSize ∧
    s.video.fb.read (1967 : Word).toNat = some 0x5A := by decide

end Sys2Proof.Tests
end

/-! The scope of a step: a turn that accepts no command, the states right after reset, and the pausing of operations. An
operation is its start, which looks at no answer, and then a run over the answers at hand; so the pausing laws of a run
(`Video.run_more`, `Control.run_more`) are those of an operation. -/

namespace Sys2Proof.Machine

open Sys2Proof

/-! ## The states after reset -/

theorem cfgDefault_valid : Cfg.default.Valid := by decide

theorem State.Inv.resetWith {c : Cfg} (hc : c.Valid) : (State.resetWith c).Inv where
  cfgValid := hc
  video := .afterReset hc _ _ _ _ _
  ctl := .afterReset _ _ _ _ _ _
  heldIdle := nofun

/-! ## A turn and the presented command -/

/-- R388 (d): a later turn leaves the command presented on its port alone. -/
theorem State.port_resume (s : State) (p : Port) :
    ((s.resume p).port p).valid = (s.port p).valid ∧ ((s.resume p).port p).word = (s.port p).word := by
  cases p with
  | video => exact s.video.resume_port s.cfg
  | control => exact s.ctl.resume_port s.cfg

theorem hostMove_present_present (s : State) (p : Port) (word word' : CmdWord) :
    hostMove (.present p word') (hostMove (.present p word) s) = hostMove (.present p word') s := by
  cases p <;> rfl

theorem hostMove_setCancel_setCancel (s : State) (p : Port) (level level' : Bool) :
    hostMove (.setCancel p level') (hostMove (.setCancel p level) s) = hostMove (.setCancel p level') s := by
  cases p <;> rfl

/-! ## The start of an operation of the video port -/

theorem onVideo_congr {s : State} {f g : Cfg → Video → Video} (h : f s.cfg s.video = g s.cfg s.video) :
    onVideo s f = onVideo s g := by
  unfold onVideo
  rw [h]

theorem Video.run_idle (c : Cfg) {v : Video} (h : v.vBusy = false) : v.run c = v :=
  Video.runOver_idle c v.sensor v h

/-- An operation that is refused at acceptance has nothing to run. -/
theorem Video.run_ite (c : Cfg) {p : Prop} [Decidable p] {v : Video} (h : v.vBusy = false) (w : Video) :
    (if p then v else w).run c = if p then v else w.run c := by
  split
  · exact Video.run_idle c h
  · rfl

theorem Video.withSensor_xferNext (c : Cfg) (as : List VideoAnswer) (v : Video) :
    (v.withSensor as).xferNext c = (v.xferNext c).withSensor as := by
  by_cases h : v.seg < c.nSeg
  · simp only [Video.xferNext, show (v.withSensor as).seg = v.seg from rfl, h, dif_pos]
    exact Video.withSensor_readSlot as _ v
  · simp only [Video.xferNext, show (v.withSensor as).seg = v.seg from rfl, h, dif_neg, not_false_eq_true]
    rfl

theorem setMaxResets_idle (value : Word) (c : Cfg) (v : Video) : (setMaxResets value c v).vBusy = false := by
  unfold setMaxResets
  split <;> rfl

theorem tlmDec_idle (slot : Slot) (p : Nat) (c : Cfg) (v : Video) : (tlmDec slot p c v).vBusy = false := by
  unfold tlmDec
  split <;> rfl

/-- The video side once operation `i` has been accepted and its operands checked, before any answer is looked at: at the
operation's first wait, or completed. An operation of the other port does not start here. -/
def startVideo (i : Instr) (c : Cfg) (v : Video) : Video :=
  match i with
  | .cfgSession tlm => cfgSession tlm c v
  | .rdPkt slot p =>
    if badPacketIndex c p then (v.accept .rdPkt).raise .badOperand else (v.accept .rdPkt).startPacket slot p
  | .rdSeg slot p =>
    if badPacketIndex c p then (v.accept .rdSeg).raise .badOperand else (v.accept .rdSeg).startPacket slot 0
  | .sync => Video.readSlot 0 { v.accept .sync with resets := 0, invalid := 0, fsState := .unsynchronized }
  | .xfer =>
    if v.fsState ≠ .synchronized then (v.accept .xfer).raise .notSynchronized
    else Video.xferNext c { v.accept .xfer with seg := 0 }
  | .setMaxResets value => setMaxResets value c v
  | .tlmDec slot p => tlmDec slot p c v
  | _ => v

/-- An operation of the video port is its start and then a run over the answers at hand. -/
theorem exec_eq_run_startVideo {i : Instr} (hi : i.port = .video) (s : State) :
    exec i s = onVideo s fun c v => (startVideo i c v).run c := by
  cases i with
  | cfgSession tlm => exact onVideo_congr (Video.run_idle s.cfg rfl).symm
  | rdPkt slot p => exact onVideo_congr (Video.run_ite s.cfg rfl _).symm
  | rdSeg slot p => exact onVideo_congr (Video.run_ite s.cfg rfl _).symm
  | sync => rfl
  | xfer => exact onVideo_congr (Video.run_ite s.cfg rfl _).symm
  | setMaxResets value => exact onVideo_congr (Video.run_idle s.cfg (setMaxResets_idle value s.cfg s.video)).symm
  | tlmDec slot p => exact onVideo_congr (Video.run_idle s.cfg (tlmDec_idle slot p s.cfg s.video)).symm
  | _ => cases hi

/-- The start of an operation looks at no answer. -/
theorem startVideo_withSensor (i : Instr) (c : Cfg) (as : List VideoAnswer) (v : Video) :
    startVideo i c (v.withSensor as) = (startVideo i c v).withSensor as := by
  cases i with
  | rdPkt slot p => exact Video.withSensor_ite .rfl rfl rfl
  | rdSeg slot p => exact Video.withSensor_ite .rfl rfl rfl
  | sync =>
    exact Video.withSensor_readSlot as 0 { v.accept .sync with resets := 0, invalid := 0, fsState := .unsynchronized }
  | xfer => exact Video.withSensor_ite .rfl rfl (Video.withSensor_xferNext c as { v.accept .xfer with seg := 0 })
  | setMaxResets value => exact Video.withSensor_ite .rfl rfl rfl
  | tlmDec slot p => exact Video.withSensor_ite .rfl rfl rfl
  | _ => rfl

theorem startVideo_sensor (i : Instr) (c : Cfg) (v : Video) : (startVideo i c v).sensor = v.sensor := by
  rw [show v = v.withSensor v.sensor from rfl, startVideo_withSensor]
  rfl

/-! ## The pausing of the video engine -/

/-- A later turn with more answers to come: the turn over those at hand, then the rest of it. -/
theorem Video.resume_more (c : Cfg) {more : List VideoAnswer} (h : more ≠ []) {v : Video} (hs : v.sensor ≠ []) :
    (v.withSensor (v.sensor ++ more)).resume c =
      if (v.resume c).vBusy then ((v.resume c).withSensor ((v.resume c).sensor ++ more)).resume c
      else (v.resume c).withSensor ((v.resume c).sensor ++ more) := by
  have resume_eq_run : ∀ w : Video, w.sensor ≠ [] → w.resume c = w.run c := fun w hw => Video.resume_answers c hw w
  rw [resume_eq_run v hs, ← Video.run_more c h v]
  exact resume_eq_run (v.withSensor (v.sensor ++ more)) (List.append_ne_nil_of_left_ne_nil hs more)

theorem State.video_ite (s : State) {p : Prop} [Decidable p] {v a b : Video} (h : v = if p then a else b) :
    ({ s with video := v } : State) = if p then { s with video := a } else { s with video := b } := by
  rw [h]
  exact apply_ite (fun v => { s with video := v }) p a b

/-- The turn that accepts an operation, with more answers to come. -/
theorem exec_videoAnswers {s t : State} {more : List VideoAnswer} (hm : more ≠ []) {i : Instr} (hi : i.port = .video)
    (hb : s.video.vBusy = false) (he : exec i s = .next t) :
    exec i (hostMove (.videoAnswers more) s) = .next (if t.video.vBusy
      then (hostMove (.videoAnswers more) t).resume .video else hostMove (.videoAnswers more) t) := by
  rw [exec_eq_run_startVideo hi, onVideo_idle _ hb] at he
  cases he
  rw [exec_eq_run_startVideo hi, onVideo_idle (s := hostMove (.videoAnswers more) s) _ hb]
  have hrun := Video.run_more s.cfg hm (startVideo i s.cfg s.video)
  rw [startVideo_sensor, ← startVideo_withSensor] at hrun
  exact congrArg Host.Outcome.next (s.video_ite hrun)

/-- A later turn with more answers to come. -/
theorem State.resume_videoAnswers {s : State} {more : List VideoAnswer} (hm : more ≠ []) (hs : s.video.sensor ≠ []) :
    (hostMove (.videoAnswers more) s).resume .video = if (s.resume .video).video.vBusy
      then (hostMove (.videoAnswers more) (s.resume .video)).resume .video
      else hostMove (.videoAnswers more) (s.resume .video) :=
  s.video_ite (Video.resume_more s.cfg hm hs)

/-! ## The start of an operation of the control port -/

theorem onControl_congr {s : State} {f g : Cfg → Control → Control} (h : f s.cfg s.ctl = g s.cfg s.ctl) :
    onControl s f = onControl s g := by
  unfold onControl
  rw [h]

theorem Control.run_idle (c : Cfg) {k : Control} (h : k.cBusy = false) : k.run c = k :=
  Control.runOver_idle c k.sensor k h

/-- The start of a handshake: its check, then its first label. -/
def Control.startHandshake (c : Cfg) (h : Handshake) (k : Control) : Control :=
  if badWordCounts c h.np h.nr then k.raise .badOperand else k.paramLoop h 0

theorem Control.handshake_eq_run (c : Cfg) (h : Handshake) (k : Control) :
    k.handshake c h = (k.startHandshake c h).run c := by
  unfold Control.handshake Control.startHandshake
  split
  · exact (Control.run_idle c rfl).symm
  · rfl

theorem Control.withSensor_startHandshake (c : Cfg) (h : Handshake) (as : List CciAnswer) (k : Control) :
    (k.withSensor as).startHandshake c h = (k.startHandshake c h).withSensor as :=
  Control.withSensor_ite .rfl rfl rfl

/-- The control side once operation `i` has been accepted and its operands checked, before any answer is looked at: at the
operation's first transaction, or completed. An operation of the other port does not start here. -/
def startControl (i : Instr) (c : Cfg) (k : Control) : Control :=
  match i with
  | .regWr addr value => { k.accept .regWr with cAt := .regWrite addr value }
  | .regRd addr => { k.accept .regRd with cAt := .regRead addr }
  | .cciCmd opc np nr => (k.accept .cciCmd).startHandshake c ⟨opc, np, nr⟩
  | .runFfc => (k.accept .runFfc).startHandshake c ⟨c.opcRunFfc, 0, 0⟩
  | .getUptime => (k.accept .getUptime).startHandshake c ⟨c.opcGetUptime, 0, c.uptimeWords⟩
  | .getTlmEn => (k.accept .getTlmEn).startHandshake c ⟨c.opcGetTlmEn, 0, c.enumWords⟩
  | .setTlmEn value => ((k.accept .setTlmEn).setParam 0 value).startHandshake c ⟨c.opcSetTlmEn, c.enumWords, 0⟩
  | .getTlmLoc => (k.accept .getTlmLoc).startHandshake c ⟨c.opcGetTlmLoc, 0, c.enumWords⟩
  | .setTlmLoc value => ((k.accept .setTlmLoc).setParam 0 value).startHandshake c ⟨c.opcSetTlmLoc, c.enumWords, 0⟩
  | .getAgcEn => (k.accept .getAgcEn).startHandshake c ⟨c.opcGetAgcEn, 0, c.enumWords⟩
  | .setAgcEn value => ((k.accept .setAgcEn).setParam 0 value).startHandshake c ⟨c.opcSetAgcEn, c.enumWords, 0⟩
  | _ => k

/-- An operation of the control port is its start and then a run over the answers at hand. -/
theorem exec_eq_run_startControl {i : Instr} (hi : i.port = .control) (s : State) :
    exec i s = onControl s fun c k => (startControl i c k).run c := by
  cases i with
  | regWr addr value => rfl
  | regRd addr => rfl
  | cciCmd opc np nr => exact onControl_congr (Control.handshake_eq_run s.cfg _ _)
  | runFfc => exact onControl_congr (Control.handshake_eq_run s.cfg _ _)
  | getUptime => exact onControl_congr (Control.handshake_eq_run s.cfg _ _)
  | getTlmEn => exact onControl_congr (Control.handshake_eq_run s.cfg _ _)
  | setTlmEn value => exact onControl_congr (Control.handshake_eq_run s.cfg _ _)
  | getTlmLoc => exact onControl_congr (Control.handshake_eq_run s.cfg _ _)
  | setTlmLoc value => exact onControl_congr (Control.handshake_eq_run s.cfg _ _)
  | getAgcEn => exact onControl_congr (Control.handshake_eq_run s.cfg _ _)
  | setAgcEn value => exact onControl_congr (Control.handshake_eq_run s.cfg _ _)
  | _ => cases hi

/-- The start of an operation looks at no answer. -/
theorem startControl_withSensor (i : Instr) (c : Cfg) (as : List CciAnswer) (k : Control) :
    startControl i c (k.withSensor as) = (startControl i c k).withSensor as := by
  cases i with
  | cciCmd opc np nr => exact Control.withSensor_startHandshake c _ as (k.accept .cciCmd)
  | runFfc => exact Control.withSensor_startHandshake c _ as (k.accept .runFfc)
  | getUptime => exact Control.withSensor_startHandshake c _ as (k.accept .getUptime)
  | getTlmEn => exact Control.withSensor_startHandshake c _ as (k.accept .getTlmEn)
  | setTlmEn value => exact Control.withSensor_startHandshake c _ as ((k.accept .setTlmEn).setParam 0 value)
  | getTlmLoc => exact Control.withSensor_startHandshake c _ as (k.accept .getTlmLoc)
  | setTlmLoc value => exact Control.withSensor_startHandshake c _ as ((k.accept .setTlmLoc).setParam 0 value)
  | getAgcEn => exact Control.withSensor_startHandshake c _ as (k.accept .getAgcEn)
  | setAgcEn value => exact Control.withSensor_startHandshake c _ as ((k.accept .setAgcEn).setParam 0 value)
  | _ => rfl

theorem startControl_sensor (i : Instr) (c : Cfg) (k : Control) : (startControl i c k).sensor = k.sensor := by
  rw [show k = k.withSensor k.sensor from rfl, startControl_withSensor]
  rfl

/-! ## The pausing of the control engine -/

/-- A later turn with more answers to come: the turn over those at hand, then the rest of it. -/
theorem Control.resume_more (c : Cfg) {more : List CciAnswer} (h : more ≠ []) {k : Control} (hs : k.sensor ≠ []) :
    (k.withSensor (k.sensor ++ more)).resume c =
      if (k.resume c).cBusy then ((k.resume c).withSensor ((k.resume c).sensor ++ more)).resume c
      else (k.resume c).withSensor ((k.resume c).sensor ++ more) := by
  have resume_eq_run : ∀ w : Control, w.sensor ≠ [] → w.resume c = w.run c := fun w hw => Control.resume_answers c hw w
  rw [resume_eq_run k hs, ← Control.run_more c h k]
  exact resume_eq_run (k.withSensor (k.sensor ++ more)) (List.append_ne_nil_of_left_ne_nil hs more)

theorem State.ctl_ite (s : State) {p : Prop} [Decidable p] {k a b : Control} (h : k = if p then a else b) :
    ({ s with ctl := k } : State) = if p then { s with ctl := a } else { s with ctl := b } := by
  rw [h]
  exact apply_ite (fun k => { s with ctl := k }) p a b

/-- The turn that accepts an operation, with more answers to come. -/
theorem exec_cciAnswers {s t : State} {more : List CciAnswer} (hm : more ≠ []) {i : Instr} (hi : i.port = .control)
    (hb : s.ctl.cBusy = false) (he : exec i s = .next t) :
    exec i (hostMove (.cciAnswers more) s) = .next (if t.ctl.cBusy
      then (hostMove (.cciAnswers more) t).resume .control else hostMove (.cciAnswers more) t) := by
  rw [exec_eq_run_startControl hi, onControl_idle _ hb] at he
  cases he
  rw [exec_eq_run_startControl hi, onControl_idle (s := hostMove (.cciAnswers more) s) _ hb]
  have hrun := Control.run_more s.cfg hm (startControl i s.cfg s.ctl)
  rw [startControl_sensor, ← startControl_withSensor] at hrun
  exact congrArg Host.Outcome.next (s.ctl_ite hrun)

/-- A later turn with more answers to come. -/
theorem State.resume_cciAnswers {s : State} {more : List CciAnswer} (hm : more ≠ []) (hs : s.ctl.sensor ≠ []) :
    (hostMove (.cciAnswers more) s).resume .control = if (s.resume .control).ctl.cBusy
      then (hostMove (.cciAnswers more) (s.resume .control)).resume .control
      else hostMove (.cciAnswers more) (s.resume .control) :=
  s.ctl_ite (Control.resume_more s.cfg hm hs)

/-! ## The statements -/

/-- Settles O9: an operation is its start, which looks at no answer, and a run over answers, and a run over two lists in a
row is a run over the first and then, unless the operation is over, one over the second. -/
theorem pausingIsTransparent : Obligations.PausingIsTransparent := by
  refine ⟨fun s more hm => ⟨?_, ?_, ?_⟩, fun s more hm => ⟨?_, ?_, ?_⟩⟩
  · exact fun i t hi hb he => exec_videoAnswers hm hi hb he
  · exact fun _ hs => State.resume_videoAnswers hm hs
  · exact fun hb hs => congrArg (fun v => { s with video := v }) (Video.resume_free s.cfg hs hb)
  · exact fun i t hi hb he => exec_cciAnswers hm hi hb he
  · exact fun _ hs => State.resume_cciAnswers hm hs
  · exact fun hb hs => congrArg (fun k => { s with ctl := k }) (Control.resume_free s.cfg hs hb)

/-- Settles O6, case by case of a step; what a host move at a port or of the sensor changes is its definition. -/
theorem stepWithoutNewCommand : Obligations.StepWithoutNewCommand := by
  intro s rest
  refine ⟨?_, ?_, ?_, fun hc m ha => step_host hc ha, step_empty, step_invalid, fun p => s.port_resume p,
    fun _ => ⟨rfl, rfl⟩, ⟨rfl, rfl⟩, fun _ => ⟨rfl, rfl⟩, fun _ => rfl, fun _ => rfl, fun p word word' level level' =>
    ⟨hostMove_present_present s p word word', hostMove_setCancel_setCancel s p level level'⟩⟩
  · exact fun hc p ha hr hb => (step_serve hc ha).trans (serve_busy (s := { s with agenda := rest }) (p := p) hr hb)
  · exact fun hc p ha hb hv => (step_serve hc ha).trans (serve_quiet (s := { s with agenda := rest }) hb hv)
  · exact fun hc p ha hr => (step_serve hc ha).trans (serve_held (s := { s with agenda := rest }) hr)

/-- Settles O59: the table of R62 meets the invariant in every legal configuration, and the default one is legal. -/
theorem resetMeetsInvariant : Obligations.ResetMeetsInvariant :=
  ⟨.resetWith cfgDefault_valid, fun _ hc => .resetWith hc⟩

end Sys2Proof.Machine


/-! The invariant of the block through every step, what it promises the host, and the ports and registers at reset. -/

namespace Sys2Proof.Machine

/-! ## Every step and the invariant of the block -/

/-- The invariant does not look at the agenda. -/
theorem State.Inv.withAgenda {s : State} (h : s.Inv) (moves : List Move) :
    State.Inv { s with agenda := moves } :=
  ⟨h.cfgValid, h.video, h.ctl, h.heldIdle⟩

/-- Nothing is in progress while `rst` is asserted. -/
theorem State.Inv.rst_of_busy {s : State} (h : s.Inv) {p : Port} (hb : s.busy p = true) : s.rst = false := by
  by_contra hr
  obtain ⟨hv, hk⟩ := h.heldIdle (by simpa using hr)
  cases p with
  | video => exact absurd (hv.symm.trans hb) (by decide)
  | control => exact absurd (hk.symm.trans hb) (by decide)

/-- Going on with an operation in progress keeps the invariant of the block. -/
theorem State.Inv.resume {s : State} (h : s.Inv) {p : Port} (hb : s.busy p = true) : (s.resume p).Inv := by
  have hheld : ∀ q : Prop, s.rst = true → q := fun _ hr => absurd ((h.rst_of_busy hb).symm.trans hr) (by decide)
  cases p with
  | video => exact ⟨h.cfgValid, h.video.resume h.cfgValid hb, h.ctl, hheld _⟩
  | control => exact ⟨h.cfgValid, h.video, h.ctl.resume h.cfgValid hb, hheld _⟩

@[simp] theorem State.takeCommand_rst (s : State) (p : Port) : (s.takeCommand p).rst = s.rst := by cases p <;> rfl

/-- A turn of an engine keeps the invariant of the block. -/
theorem State.Inv.serve {s t : State} {p : Port} (h : s.Inv) (hs : Machine.serve p s = .next t) : t.Inv := by
  have htake : (s.takeCommand p).Inv := h.onPort p _
  cases hr : s.rst with
  | true => rw [serve_held hr] at hs; cases hs; exact h
  | false =>
  cases hb : s.busy p with
  | true => rw [serve_busy hr hb] at hs; cases hs; exact h.resume hb
  | false =>
  cases hv : (s.port p).valid with
  | false => rw [serve_quiet hb hv] at hs; cases hs; exact h
  | true =>
  cases hd : decodeOn p (s.port p).word with
  | ok i => rw [serve_ok hr hb hv hd] at hs; exact htake.exec (by simpa using hr) hs
  | error e => rw [serve_error hr hb hv hd] at hs; cases hs; exact htake.raiseIllegalOp p

/-- Settles O58: a step is a turn of an engine or a move of the host, and each keeps the invariant. -/
theorem stepKeepsInvariant : Obligations.StepKeepsInvariant := by
  intro s t h hs
  cases ha : s.agenda with
  | nil => rw [step_empty h.cfgValid ha] at hs; exact h.serve hs
  | cons m rest =>
    cases m with
    | host m => rw [step_host h.cfgValid ha] at hs; cases hs; exact (h.withAgenda rest).hostMove m
    | serve p => rw [step_serve h.cfgValid ha] at hs; exact (h.withAgenda rest).serve hs

/-! ## A command the port does not take -/

/-- Settles O7: the turn of an idle port with such a word takes the command and raises `IllegalOp`. -/
theorem unlistedCommandIsIllegal : Obligations.UnlistedCommandIsIllegal := by
  intro s rest e hc hr
  refine ⟨fun ha hb hv hd => ?_, fun ha hb hv hd => ?_⟩
  · exact (step_serve hc ha).trans (serve_error (s := { s with agenda := rest }) (p := .video) hr hb hv hd)
  · exact (step_serve hc ha).trans (serve_error (s := { s with agenda := rest }) (p := .control) hr hb hv hd)

/-! ## Reset and the host's ports -/

theorem Video.atReset_count (c : Cfg) (epoch : Nat) (cmd : CmdPort) (sensor : List VideoAnswer) (tick : Nat)
    (bus : List VideoXact) (k : Slot) : (Video.atReset c epoch cmd sensor tick bus).count k = c.nNormal := by
  fin_cases k <;> rfl

/-- Both engines are at the table of R62. -/
def State.AtReset (c : Cfg) (t : State) : Prop :=
  (∃ epoch cmd sensor tick bus, t.video = Video.atReset c epoch cmd sensor tick bus) ∧
  (∃ epoch cmd sensor tick bus, t.ctl = Control.atReset epoch cmd sensor tick bus)

theorem State.AtReset.driveReset {s : State} {level : Bool} (h : level = true ∨ s.rst = true) :
    (s.driveReset level).AtReset s.cfg := by
  rcases s.driveReset_cases level with ⟨he, _⟩ | ⟨_, hl, hr⟩
  · rw [he]
    exact ⟨⟨_, _, _, _, _, rfl⟩, ⟨_, _, _, _, _, rfl⟩⟩
  · simp [hl, hr] at h

/-- Settles O12: an assertion, a release and the starting state put both engines at the table, whose entries are its
definition. -/
theorem resetValues : Obligations.ResetValues := by
  intro s t ht
  have hreset : t.AtReset s.cfg := by
    rcases ht with rfl | ⟨hr, rfl⟩ | rfl
    · exact .driveReset (.inl rfl)
    · exact .driveReset (.inr hr)
    · exact ⟨⟨_, _, _, _, _, rfl⟩, ⟨_, _, _, _, _, rfl⟩⟩
  obtain ⟨⟨_, _, _, _, _, hvideo⟩, ⟨_, _, _, _, _, hctl⟩⟩ := hreset
  rw [hvideo, hctl]
  exact ⟨rfl, Video.atReset_count _ _ _ _ _ _, rfl, rfl, rfl, rfl, rfl, rfl, rfl, rfl, rfl, rfl, rfl, rfl, rfl, rfl, rfl,
    rfl, rfl, rfl⟩

/-- The parameter read port of an idle engine, at a word that `P` has (R32). -/
theorem State.paramRdata_idle {s : State} {j : BitVec 4} (hb : s.ctl.cBusy = false) (hj : j.toNat < s.cfg.nData) :
    s.paramRdata j = s.ctl.param j.toNat := by
  simp [State.paramRdata, hb, hj]

/-- Settles O14, by the two cases of a write through the parameter port. -/
theorem parameterWritePort : Obligations.ParameterWritePort := by
  intro s idx data
  simp only [hostMove]
  rcases s.ctl.hostWrite_cases s.cfg idx data with ⟨hignored, he⟩ | ⟨⟨hb, hidx⟩, he⟩ <;> rw [he]
  · have hbeyond : s.ctl.cBusy = false → s.cfg.nData ≤ idx.toNat := fun hb => hignored.resolve_left (by simp [hb])
    refine ⟨fun _ => rfl, fun hb hidx => absurd (hbeyond hb) (by omega), fun _ => rfl, fun hb j hj =>
      ⟨State.paramRdata_idle hb hj, (if_neg ?_).symm⟩⟩
    rintro rfl
    exact absurd (hbeyond hb) (by omega)
  · have hparam : ∀ j, (s.ctl.setParam idx.toNat data).param j = if j = idx.toNat then data else s.ctl.param j :=
      fun j => Control.param_setParam s.ctl idx.toNat j data idx.isLt
    refine ⟨fun hb' => absurd (hb.symm.trans hb') (by decide), fun _ _ => ⟨by simp [hparam], fun j hj => by
      simp [hparam, hj], rfl⟩, fun h => absurd h (by omega), fun _ j hj => ⟨State.paramRdata_idle hb hj, ?_⟩⟩
    rw [State.paramRdata_idle (s := { s with ctl := s.ctl.setParam idx.toNat data }) hb hj,
      State.paramRdata_idle hb hj, hparam]
    simp only [BitVec.toNat_inj]

/-- Settles O15: the codes are the definition's. -/
theorem statusAndStateCodes : Obligations.StatusAndStateCodes := ⟨rfl, rfl⟩

/-! ## What `frame_valid` promises -/

theorem lineOf_eq_mod (id : Word) : lineOf id = id.toNat % 256 := by
  simp [lineOf, slice]

theorem tttOf_eq_div (id : Word) : tttOf id = id.toNat / 4096 := by
  have := id.isLt
  simp only [tttOf, slice]
  omega

/-- The frame read port of an idle engine, at a byte of the buffer that has been written (R72). -/
theorem State.fbRdata_written {s : State} {x : Word} {b : Byte} (hb : s.video.vBusy = false)
    (hx : x.toNat < s.cfg.fbSize) (hr : s.video.fb.read x.toNat = some b) : s.fbRdata x = b := by
  simp [State.fbRdata, Video.fbByte, hb, hx, hr]

/-- Settles O60: `frame_valid` rules out an operation in progress, and with the four good slots it is what the host is
promised; a written byte is what the read port of an idle engine shows. -/
theorem frameValidPromise : Obligations.FrameValidPromise := by
  refine ⟨fun s h hf => ?_, fun s x b hb hx hr => State.fbRdata_written hb hx hr⟩
  have hb : s.video.vBusy = false := by
    by_contra hb
    exact absurd (hf.symm.trans (h.video.frameInvalidWhileBusy (by simpa using hb))) (by decide)
  obtain ⟨hfs, _⟩ := h.video.frameSynchronized hf
  refine ⟨hb, hfs, by rw [State.fsStateOut, hfs]; rfl, fun k => ?_⟩
  have hgood := h.video.frameGood hf k
  refine ⟨by rw [← lineOf_eq_mod]; exact hgood.anchorLine, by rw [← tttOf_eq_div]; exact hgood.anchorTtt,
    hgood.firstNotDiscard, fun p hp b hbyte => ?_⟩
  have hwritten := hgood.written p hp b hbyte
  refine ⟨hwritten, fun haddr => ?_⟩
  obtain ⟨w, hw⟩ := Option.isSome_iff_exists.1 hwritten
  obtain ⟨hcount, _⟩ := Video.Inv.count_le h.cfgValid h.video.counts k
  have hend := fbAddr_inRange (c := s.cfg) k.isLt (Nat.lt_of_lt_of_le hp hcount)
  have hstart := fbAddr_eq s.cfg k p b
  rw [Cfg.packetBytes_eq] at hbyte
  have hx : (BitVec.ofNat 16 (fbAddr s.cfg k p b)).toNat = fbAddr s.cfg k p b := by
    rw [BitVec.toNat_ofNat, Nat.mod_eq_of_lt haddr]
  rw [hw, State.fbRdata_written hb (by rw [hx]; omega) (by rw [hx, hw])]

end Sys2Proof.Machine


/-! `RD_PKT` and `RD_SEG` over a script of answers, and the frame of the control operations. -/

namespace Sys2Proof.Machine

/-! ## `RD_PKT` and `RD_SEG` over a script -/

theorem rdPkt_eq_run {c : Cfg} {p : Nat} (hp : p < c.segCap) (slot : Slot) (v : Video) :
    rdPkt slot p c v = ((v.accept .rdPkt).startPacket slot p).run c := by
  simp [rdPkt, badPacketIndex, hp]

theorem rdSeg_eq_run {c : Cfg} {p : Nat} (hp : p < c.segCap) (slot : Slot) (v : Video) :
    rdSeg slot p c v = ((v.accept .rdSeg).startPacket slot 0).run c := by
  simp [rdSeg, badPacketIndex, hp]

/-- Settles O24: the packet loop over its discards, then one packet, with which `ReadPacket` returns and `RD_PKT` is
done. -/
theorem rdPktSkipsDiscards : Obligations.RdPktSkipsDiscards := by
  intro s slot p discards a rest hb hp hsensor hd hn hwhole hvalid
  let v := (s.video.accept .rdPkt).startPacket slot p
  have hloop : v.run s.cfg = Video.runOver s.cfg rest ((v.gotPacket s.cfg slot p discards a).afterPacket s.cfg slot) := by
    rw [Video.run, show v.sensor = discards ++ a :: rest from hsensor]
    exact Video.runOver_packet rest rfl rfl hd (by simpa [v] using hn) (by simpa using hwhole) hvalid
  have hdone : Video.afterPacket s.cfg slot (v.gotPacket s.cfg slot p discards a) =
      (v.gotPacket s.cfg slot p discards a).complete .ok := Video.afterPacket_rdPkt s.cfg slot rfl
  rw [show exec (.rdPkt slot p) s = _ from onVideo_idle _ hb, rdPkt_eq_run hp, hloop, hdone,
    Video.runOver_idle _ _ _ rfl]
  simp [v, Video.gotPacket, Video.complete, Video.startPacket, Video.accept, VideoOp.clearsFrameValid]

/-- Settles O29: `ReadSegment` over the segment, with which `RD_SEG` is done. -/
theorem rdSegResult : Obligations.RdSegResult := by
  intro s slot p g rest hb hp hsensor hg
  let v := (s.video.accept .rdSeg).startPacket slot 0
  let n := s.video.count slot
  have hread : v.run s.cfg = Video.runOver s.cfg rest ((v.afterRead s.cfg slot n g).afterSegment s.cfg slot) := by
    rw [Video.run, show v.sensor = g.answers n ++ rest from hsensor]
    exact Video.runOver_segment rest rfl rfl (.inl rfl) rfl rfl hg
  have hdone : Video.afterSegment s.cfg slot (v.afterRead s.cfg slot n g) = (v.afterRead s.cfg slot n g).complete .ok :=
    Video.afterSegment_rdSeg s.cfg slot rfl
  rw [show exec (.rdSeg slot p) s = _ from onVideo_idle _ hb, rdSeg_eq_run hp, hread, hdone,
    Video.runOver_idle _ _ _ rfl]
  simp [v, n, Video.afterRead, Video.complete, Video.startPacket, Video.accept, VideoOp.clearsFrameValid]

/-! ## The frame of the control operations -/

/-- What an operation has kept, as an equation: of the port's inputs only the cancel level can have changed. -/
theorem Control.Keeps.frame {op : ControlOp} {nr : Nat} {k0 k : Control} (h : Control.Keeps op nr k0 k) :
    k = { k with epoch := k0.epoch, cmd := { k0.cmd with cancel := k.cmd.cancel } } := by
  have hcmd : (⟨k0.cmd.valid, k0.cmd.word, k.cmd.cancel⟩ : CmdPort) = k.cmd := by rw [← h.valid, ← h.word]
  rw [hcmd, ← h.epoch]

/-- The same of an operation that takes no free answer. -/
theorem Control.Keeps.frame_tick {op : ControlOp} {nr : Nat} {k0 k : Control} (h : Control.Keeps op nr k0 k) :
    k = { k with epoch := k0.epoch, tick := k0.tick, cmd := { k0.cmd with cancel := k.cmd.cancel } } := by
  rw [← h.tick]
  exact h.frame

/-- An operation of the control port, on an idle engine, keeps what `Control.Keeps` says of it. -/
theorem exec_control_keeps {i : Instr} (hi : i.port = .control) {s : State} (hb : s.ctl.cBusy = false) :
    ∃ (op : ControlOp) (k : Control), exec i s = .next { s with ctl := k } ∧
      op.writesRdata = writesRdata i ∧ (writesR32 i = false → op ≠ .getUptime) ∧
      Control.Keeps op (paramsWritten s.cfg i) s.ctl k := by
  have get (op : ControlOp) (opc : Word) (words : Nat) := Control.Keeps.getCommand (op := op) s.cfg opc words s.ctl
  have set (op : ControlOp) (opc value : Word) := Control.Keeps.setCommand (op := op) s.cfg opc value s.ctl
  cases i with
  | regWr addr value =>
    exact ⟨.regWr, _, onControl_idle _ hb, rfl, nofun,
      (Control.Keeps.start s.ctl (.regWrite addr value) trivial).run s.cfg⟩
  | regRd addr =>
    exact ⟨.regRd, _, onControl_idle _ hb, rfl, nofun,
      (Control.Keeps.start s.ctl (.regRead addr) rfl).run s.cfg⟩
  | cciCmd opc np nr =>
    exact ⟨.cciCmd, _, onControl_idle _ hb, rfl, nofun,
      .handshake s.cfg (Nat.le_refl nr) (fun l hl => .start s.ctl l hl) rfl⟩
  | runFfc => exact ⟨.runFfc, _, onControl_idle _ hb, rfl, nofun, get ..⟩
  | getUptime => exact ⟨.getUptime, _, onControl_idle _ hb, rfl, nofun, get ..⟩
  | getTlmEn => exact ⟨.getTlmEn, _, onControl_idle _ hb, rfl, nofun, get ..⟩
  | setTlmEn value => exact ⟨.setTlmEn, _, onControl_idle _ hb, rfl, nofun, set ..⟩
  | getTlmLoc => exact ⟨.getTlmLoc, _, onControl_idle _ hb, rfl, nofun, get ..⟩
  | setTlmLoc value => exact ⟨.setTlmLoc, _, onControl_idle _ hb, rfl, nofun, set ..⟩
  | getAgcEn => exact ⟨.getAgcEn, _, onControl_idle _ hb, rfl, nofun, get ..⟩
  | setAgcEn value => exact ⟨.setAgcEn, _, onControl_idle _ hb, rfl, nofun, set ..⟩
  | _ => cases hi

/-- Settles O57: an accepted operation and one that goes on both keep what `Control.Keeps` says, and an operation in progress
holds its status. -/
theorem controlFrame : Obligations.ControlFrame := by
  refine ⟨fun i s t hi he => ?_, fun s op h hb ho => ?_⟩
  · have hstatus := exec_statusHeld he
    cases hb : s.ctl.cBusy with
    | true =>
      obtain ⟨f, hf⟩ := exec_control hi
      rw [hf, onControl_busy _ hb] at he
      cases he
      exact ⟨fun _ _ => rfl, fun _ => rfl, fun _ => rfl, fun _ => ⟨rfl, rfl⟩, fun _ => rfl, rfl⟩
    | false =>
      obtain ⟨op, k, hk, hrdata, hr32, hkeeps⟩ := exec_control_keeps hi hb
      rw [hk] at he
      cases he
      exact ⟨hkeeps.params, fun hw => hkeeps.rdata (hrdata.trans hw), fun hw => hkeeps.r32 (hr32 hw),
        hkeeps.unfinished, hstatus, congrArg (fun k => { s with ctl := k }) hkeeps.frame_tick⟩
  · obtain ⟨n, hkeeps⟩ := Control.Keeps.resume s.cfg hb ho (h.ctl.within ho)
    exact ⟨hkeeps.params, hkeeps.rdata, hkeeps.r32, hkeeps.unfinished, Control.held_resume s.cfg s.ctl,
      congrArg (fun k => { s with ctl := k }) hkeeps.frame⟩

end Sys2Proof.Machine


/-! Who writes the registers and the frame buffer of the video side, in the accepting turn and in each later one. -/

namespace Sys2Proof.Machine

/-! ## What the operations of the video port write -/

/-- The whole address space, for an operation of which it does not matter where it stores. -/
theorem VideoRegion.everywhere (c : Cfg) (op : VideoOp) (cnt : Vector Nat 4) :
    VideoRegion c op cnt (fun _ _ => True) (fun _ => True) (fun _ => True) :=
  ⟨fun _ _ _ _ _ _ => trivial, fun _ _ _ _ _ => trivial, fun _ _ _ _ => trivial, fun _ _ => trivial⟩

/-- What `op` has kept, wherever it stored. -/
abbrev Video.KeepsAnywhere (op : VideoOp) (v0 v : Video) : Prop :=
  Video.Keeps op (fun _ _ => True) (fun _ => True) (fun _ => True) v0 v

theorem VideoAt.within_anywhere {op : VideoOp} {l : VideoAt} (h : l = .backoff → op = .sync) :
    l.Within op (fun _ _ => True) (fun _ => True) := by
  cases l with
  | backoff => exact h rfl
  | _ => trivial

theorem Video.KeepsAnywhere.rdPkt (slot : Slot) (p : Nat) (c : Cfg) (v : Video) :
    Video.KeepsAnywhere .rdPkt v (rdPkt slot p c v) := by
  unfold Machine.rdPkt
  simp only
  split
  · exact Video.Keeps.startRaise _ _ _ _ v .badOperand
  · exact Video.Keeps.run (.everywhere c .rdPkt v.pktCount) (.inl rfl)
      (Video.Keeps.start _ _ _ _ v (.packet slot p) (VideoAt.within_anywhere nofun) 0)

theorem Video.KeepsAnywhere.rdSeg (slot : Slot) (p : Nat) (c : Cfg) (v : Video) :
    Video.KeepsAnywhere .rdSeg v (rdSeg slot p c v) := by
  unfold Machine.rdSeg
  simp only
  split
  · exact Video.Keeps.startRaise _ _ _ _ v .badOperand
  · exact Video.Keeps.run (.everywhere c .rdSeg v.pktCount) (.inr (.inl rfl))
      (Video.Keeps.start _ _ _ _ v (.packet slot 0) (VideoAt.within_anywhere nofun) 0)

/-- No run over answers changes the packet counts, the configuration register and the telemetry file. -/
theorem Video.runOver_config (c : Cfg) (as : List VideoAnswer) (v : Video) :
    (v.runOver c as).pktCount = v.pktCount ∧ (v.runOver c as).maxResets = v.maxResets ∧
      (v.runOver c as).tlm = v.tlm :=
  Video.runOver_induct (P := fun w => w.pktCount = v.pktCount ∧ w.maxResets = v.maxResets ∧ w.tlm = v.tlm)
    (fun w a ⟨hcount, hmax, htlm⟩ _ =>
      have hfixed := w.sameFixed_answer c a
      ⟨hfixed.pktCount.trans hcount, hfixed.maxResets.trans hmax, hfixed.tlm.trans htlm⟩)
    (fun _ _ h => h) as v ⟨rfl, rfl, rfl⟩

theorem syncOp_config (c : Cfg) (v : Video) :
    (syncOp c v).pktCount = v.pktCount ∧ (syncOp c v).maxResets = v.maxResets ∧ (syncOp c v).tlm = v.tlm := by
  obtain ⟨hcount, hmax, htlm⟩ := Video.runOver_config c _
    (Video.readSlot 0 { v.accept .sync with resets := 0, invalid := 0, fsState := .unsynchronized })
  have hfixed := Video.sameFixed_readSlot 0
    { v.accept .sync with resets := 0, invalid := 0, fsState := .unsynchronized }
  exact ⟨hcount.trans hfixed.pktCount, hmax.trans hfixed.maxResets, htlm.trans hfixed.tlm⟩

theorem xferOp_config (c : Cfg) (v : Video) :
    (xferOp c v).pktCount = v.pktCount ∧ (xferOp c v).maxResets = v.maxResets ∧ (xferOp c v).tlm = v.tlm := by
  unfold xferOp
  simp only
  split
  · exact ⟨rfl, rfl, rfl⟩
  · obtain ⟨hcount, hmax, htlm⟩ := Video.runOver_config c _ (Video.xferNext c { v.accept .xfer with seg := 0 })
    have hfixed := Video.sameFixed_xferNext c { v.accept .xfer with seg := 0 }
    exact ⟨hcount.trans hfixed.pktCount, hmax.trans hfixed.maxResets, htlm.trans hfixed.tlm⟩

theorem Video.SyncHolds.syncOp (c : Cfg) (v : Video) : (syncOp c v).SyncHolds c v.maxResets :=
  (Video.SyncHolds.readSlot 0 rfl rfl rfl (Nat.zero_le _) (Nat.zero_le _)
    (by simp [VideoOp.clearsFrameValid])).run

theorem xferOp_notSynchronized {v : Video} (h : v.fsState ≠ .synchronized) (c : Cfg) :
    xferOp c v = (v.accept .xfer).raise .notSynchronized :=
  if_pos h

theorem Video.XferHolds.xferOp {v : Video} (h : v.fsState = .synchronized) (c : Cfg) :
    (xferOp c v).XferHolds v.resets v.vResets := by
  have hstart : Machine.xferOp c v = (Video.readSlot 0 { v.accept .xfer with seg := 0 }).run c := by
    rw [← Video.xferNext_slot (v := { v.accept .xfer with seg := 0 }) c (s := 0) rfl]
    exact if_neg (by simpa using h)
  rw [hstart]
  exact Video.XferHolds.run c (Video.XferHolds.readSlot (v := { v.accept .xfer with seg := 0 }) 0 rfl rfl rfl rfl
    (by simp [VideoOp.clearsFrameValid]) h)

/-- `XFER` writes neither count of resets, and `frame_valid` is 1 after it only if it has completed `Ok`. -/
theorem xferOp_resets_risen (c : Cfg) (v : Video) :
    (xferOp c v).resets = v.resets ∧ (xferOp c v).vResets = v.vResets ∧
      ((xferOp c v).frameValid = true →
        (xferOp c v).vBusy = false ∧ (xferOp c v).vDone = true ∧ (xferOp c v).vStatus = .ok) := by
  by_cases hs : v.fsState = .synchronized
  · have hholds := Video.XferHolds.xferOp hs c
    have hrisen := hholds.risen
    obtain ⟨hresets, hvResets, _⟩ := hholds
    exact ⟨hresets, hvResets, hrisen⟩
  · rw [xferOp_notSynchronized hs]
    exact ⟨rfl, rfl, by simp [VideoOp.clearsFrameValid]⟩

/-- Operation `i` has changed the video side from `v` to `v'` as R20 to R33 list the writers of each register and of the frame
buffer. -/
def VideoWriters (i : Instr) (v v' : Video) : Prop :=
  (v'.fsState = v.fsState ∨ (∃ tlm, i = .cfgSession tlm) ∨ i = .sync ∨ i = .xfer) ∧
  (v'.fb = v.fb ∨ (∃ slot p, i = .rdPkt slot p) ∨ (∃ slot p, i = .rdSeg slot p) ∨ i = .sync ∨ i = .xfer) ∧
  (v'.pktCount = v.pktCount ∨ ∃ tlm, i = .cfgSession tlm) ∧
  (v'.maxResets = v.maxResets ∨ ∃ value, i = .setMaxResets value) ∧
  (v'.tlm = v.tlm ∨ ∃ slot p, i = .tlmDec slot p) ∧
  (v'.resets = v.resets ∨ i = .sync) ∧
  (v'.vResets = v.vResets ∨ i = .sync) ∧
  (v'.invalid = v.invalid ∨ (∃ tlm, i = .cfgSession tlm) ∨ i = .sync ∨ i = .xfer) ∧
  (v'.vFrames = v.vFrames ∨ i = .sync ∨ i = .xfer) ∧
  (v'.frameValid = v.frameValid ∨
    (v'.frameValid = false ∧
      ((∃ tlm, i = .cfgSession tlm) ∨ (∃ slot p, i = .rdPkt slot p) ∨ ∃ slot p, i = .rdSeg slot p)) ∨
    i = .sync ∨ i = .xfer) ∧
  (v.frameValid = false → v'.frameValid = true →
    (i = .sync ∨ i = .xfer) ∧ v'.vBusy = false ∧ v'.vDone = true ∧ v'.vStatus = .ok) ∧
  (v'.skips = v.skips ∨ (∃ slot p, i = .rdPkt slot p) ∨ (∃ slot p, i = .rdSeg slot p) ∨ i = .sync ∨ i = .xfer) ∧
  (v'.seg = v.seg ∨ v'.seg = 0 ∨ i = .sync ∨ i = .xfer)

theorem VideoWriters.refl (i : Instr) (v : Video) : VideoWriters i v v :=
  ⟨.inl rfl, .inl rfl, .inl rfl, .inl rfl, .inl rfl, .inl rfl, .inl rfl, .inl rfl, .inl rfl, .inl rfl,
    fun h h' => absurd (h.symm.trans h') (by decide), .inl rfl, .inl rfl⟩

theorem VideoWriters.cfgSession (tlm : Bool) (c : Cfg) (v : Video) :
    VideoWriters (.cfgSession tlm) v (cfgSession tlm c v) :=
  ⟨.inr (.inl ⟨tlm, rfl⟩), .inl rfl, .inr ⟨tlm, rfl⟩, .inl rfl, .inl rfl, .inl rfl, .inl rfl, .inr (.inl ⟨tlm, rfl⟩),
    .inl rfl, .inr (.inl ⟨rfl, .inl ⟨tlm, rfl⟩⟩), nofun, .inl rfl, .inr (.inl rfl)⟩

/-- An operation that reads packets and assembles no frame. -/
theorem VideoWriters.ofRead {i : Instr} {op : VideoOp} {v v' : Video} (hop : op = .rdPkt ∨ op = .rdSeg)
    (hi : (∃ slot p, i = .rdPkt slot p) ∨ ∃ slot p, i = .rdSeg slot p) (h : Video.KeepsAnywhere op v v') :
    VideoWriters i v v' := by
  obtain ⟨hfs, hresets, hinvalid, hframes, hvResets, hvalid⟩ := h.ofRead hop
  have hwrites {q : Prop} : (∃ slot p, i = .rdPkt slot p) ∨ (∃ slot p, i = .rdSeg slot p) ∨ q :=
    or_assoc.1 (.inl hi)
  exact ⟨.inl hfs, .inr hwrites, .inl h.pktCount, .inl h.maxResets, .inl h.tlm, .inl hresets, .inl hvResets,
    .inl hinvalid, .inl hframes, .inr (.inl ⟨hvalid, .inr hi⟩), fun _ hf => absurd (hvalid.symm.trans hf) (by decide),
    .inr hwrites, (h.segKept hop).imp_right .inl⟩

theorem VideoWriters.sync (c : Cfg) (v : Video) : VideoWriters .sync v (syncOp c v) := by
  obtain ⟨hcount, hmax, htlm⟩ := syncOp_config c v
  have hrisen := (Video.SyncHolds.syncOp c v).risen
  exact ⟨.inr (.inr (.inl rfl)), .inr (.inr (.inr (.inl rfl))), .inl hcount, .inl hmax, .inl htlm, .inr rfl, .inr rfl,
    .inr (.inr (.inl rfl)), .inr (.inl rfl), .inr (.inr (.inl rfl)), fun _ hf => ⟨.inl rfl, hrisen hf⟩,
    .inr (.inr (.inr (.inl rfl))), .inr (.inr (.inl rfl))⟩

theorem VideoWriters.xfer (c : Cfg) (v : Video) : VideoWriters .xfer v (xferOp c v) := by
  obtain ⟨hcount, hmax, htlm⟩ := xferOp_config c v
  obtain ⟨hresets, hvResets, hrisen⟩ := xferOp_resets_risen c v
  exact ⟨.inr (.inr (.inr rfl)), .inr (.inr (.inr (.inr rfl))), .inl hcount, .inl hmax, .inl htlm, .inl hresets,
    .inl hvResets, .inr (.inr (.inr rfl)), .inr (.inr rfl), .inr (.inr (.inr rfl)), fun _ hf => ⟨.inr rfl, hrisen hf⟩,
    .inr (.inr (.inr (.inr rfl))), .inr (.inr (.inr rfl))⟩

theorem VideoWriters.setMaxResets (value : Word) (c : Cfg) (v : Video) :
    VideoWriters (.setMaxResets value) v (setMaxResets value c v) := by
  have hvalid : (v.accept .setMaxResets).frameValid = v.frameValid := by simp [VideoOp.clearsFrameValid]
  unfold Machine.setMaxResets
  simp only
  split <;> exact ⟨.inl rfl, .inl rfl, .inl rfl, .inr ⟨value, rfl⟩, .inl rfl, .inl rfl, .inl rfl, .inl rfl, .inl rfl,
    .inl hvalid, fun h h' => absurd ((hvalid.trans h).symm.trans h') (by decide), .inl rfl, .inr (.inl rfl)⟩

theorem VideoWriters.tlmDec (slot : Slot) (p : Nat) (c : Cfg) (v : Video) :
    VideoWriters (.tlmDec slot p) v (tlmDec slot p c v) := by
  have hvalid : (v.accept .tlmDec).frameValid = v.frameValid := by simp [VideoOp.clearsFrameValid]
  unfold Machine.tlmDec
  simp only
  split <;> exact ⟨.inl rfl, .inl rfl, .inl rfl, .inl rfl, .inr ⟨slot, p, rfl⟩, .inl rfl, .inl rfl, .inl rfl, .inl rfl,
    .inl hvalid, fun h h' => absurd ((hvalid.trans h).symm.trans h') (by decide), .inl rfl, .inr (.inl rfl)⟩

/-- Every operation changes the video side as its writers are listed. -/
theorem exec_videoWriters {i : Instr} {s t : State} (he : exec i s = .next t) :
    VideoWriters i s.video t.video := by
  have video (f : Cfg → Video → Video) (hf : exec i s = onVideo s f)
      (hwriters : VideoWriters i s.video (f s.cfg s.video)) : VideoWriters i s.video t.video := by
    cases hb : s.video.vBusy with
    | true => rw [hf, onVideo_busy _ hb] at he; cases he; exact .refl i _
    | false => rw [hf, onVideo_idle _ hb] at he; cases he; exact hwriters
  cases hp : i.port with
  | control =>
    obtain ⟨f, hf⟩ := exec_control hp
    rw [hf, onControl] at he
    cases he
    split <;> exact .refl i _
  | video =>
    cases i with
    | cfgSession tlm => exact video _ rfl (.cfgSession tlm _ _)
    | rdPkt slot p => exact video _ rfl (.ofRead (.inl rfl) (.inl ⟨slot, p, rfl⟩) (.rdPkt slot p _ _))
    | rdSeg slot p => exact video _ rfl (.ofRead (.inr rfl) (.inr ⟨slot, p, rfl⟩) (.rdSeg slot p _ _))
    | sync => exact video _ rfl (.sync _ _)
    | xfer => exact video _ rfl (.xfer _ _)
    | setMaxResets value => exact video _ rfl (.setMaxResets value _ _)
    | tlmDec slot p => exact video _ rfl (.tlmDec slot p _ _)
    | _ => cases hp

/-! ## What a later turn writes -/

/-- The operation in progress, in a state of the invariant, is one that reads packets (R24). -/
theorem Video.Inv.reads {c : Cfg} {v : Video} (h : v.Inv c) (hb : v.vBusy = true) :
    ∃ op : VideoOp, v.vOp = some op ∧ op.Reads := by
  have hlegal := h.atLegal
  have segments : ReadsSegments v.vOp → ∃ op : VideoOp, v.vOp = some op ∧ op.Reads := by
    rintro (ho | ho | ho)
    · exact ⟨_, ho, .inr (.inl rfl)⟩
    · exact ⟨_, ho, .inr (.inr (.inl rfl))⟩
    · exact ⟨_, ho, .inr (.inr (.inr rfl))⟩
  unfold VideoAtLegal at hlegal
  cases hat : v.vAt with
  | idle => exact absurd hat (h.busyIff.1 hb)
  | packet s p =>
    rw [hat] at hlegal
    obtain ⟨_, ho | ⟨_, ho⟩⟩ := hlegal
    · exact ⟨_, ho, .inl rfl⟩
    · exact segments ho
  | bulk s => rw [hat] at hlegal; exact segments hlegal
  | backoff => rw [hat] at hlegal; exact segments (.inr (.inl hlegal))

/-- What a later turn keeps, in a state of the invariant, wherever it stores. -/
theorem Video.KeepsAnywhere.resume {c : Cfg} {v : Video} {op : VideoOp} (h : v.Inv c) (hb : v.vBusy = true)
    (ho : v.vOp = some op) (hr : op.Reads) : ∃ n, Video.KeepsAnywhere op { v with tick := n } (v.resume c) := by
  have hlabel : v.vAt = .backoff → op = .sync := fun hat => by
    have hlegal := h.atLegal
    rw [VideoAtLegal, hat] at hlegal
    exact Option.some.inj (ho.symm.trans hlegal)
  exact Video.Keeps.resume (.everywhere c op v.pktCount) hr hb ho (VideoAt.within_anywhere hlabel)
    (h.frameInvalidWhileBusy hb)

/-- `RD_PKT` and `RD_SEG` assemble no frame. -/
theorem not_assembles_of_read {op : VideoOp} (h : op = .rdPkt ∨ op = .rdSeg) : ¬ Assembles (some op) := by
  rcases h with rfl | rfl <;> simp [Assembles]

/-- `seg` is 0 in `RD_PKT` and `RD_SEG`, and stays so (R24). -/
theorem Video.KeepsAnywhere.seg_of_read {c : Cfg} {v v' : Video} {op : VideoOp} {n : Nat}
    (h : Video.KeepsAnywhere op { v with tick := n } v') (hop : op = .rdPkt ∨ op = .rdSeg) (hi : v.Inv c)
    (ho : v.vOp = some op) : v'.seg = v.seg := by
  have hzero : v.seg = 0 := hi.segZero (ho ▸ not_assembles_of_read hop)
  rcases h.segKept hop with hseg | hseg
  · exact hseg
  · exact hseg.trans hzero.symm

/-- Settles O43: an accepted operation writes as its writers are listed; one that goes on reads packets, and keeps what
`RD_PKT` and `RD_SEG`, or `SYNC`, or `XFER` hold to while they run. -/
theorem writersOfVideoState : Obligations.WritersOfVideoState := by
  refine ⟨fun i s t he => exec_videoWriters he, fun s h hb => ?_⟩
  obtain ⟨op, ho, hreads⟩ := h.video.reads hb
  obtain ⟨n, hk⟩ := Video.KeepsAnywhere.resume h.video hb ho hreads
  rcases or_assoc.2 hreads with hop | rfl | rfl
  · obtain ⟨hfs, hresets, hinvalid, hframes, hvResets, hvalid⟩ := hk.ofRead hop
    have hmem : s.video.vOp ∈ [some .rdPkt, some .rdSeg, some .sync, some .xfer] := by
      rcases hop with rfl | rfl <;> simp [ho]
    exact ⟨hk.pktCount, hk.maxResets, hk.tlm, hmem, .inl hfs, .inl hresets, .inl hvResets, .inl hinvalid,
      .inl (hk.seg_of_read hop h.video ho), .inl hvalid, fun hf => absurd (hvalid.symm.trans hf) (by decide),
      .inl hframes⟩
  · have hrisen := (Video.SyncHolds.resume h.video hb ho).risen
    exact ⟨hk.pktCount, hk.maxResets, hk.tlm, by simp [ho], .inr (.inl ho), .inr ho, .inr ho, .inr (.inl ho),
      .inr (.inl ho), .inr (.inl ho), hrisen, .inr (.inl ho)⟩
  · obtain ⟨hresets, hvResets⟩ := hk.ofXfer rfl
    have hrisen := (Video.XferHolds.resume h.video hb ho).risen
    exact ⟨hk.pktCount, hk.maxResets, hk.tlm, by simp [ho], .inr (.inr ho), .inl hresets, .inl hvResets,
      .inr (.inr ho), .inr (.inr ho), .inr (.inr ho), hrisen, .inr (.inr ho)⟩

end Sys2Proof.Machine


/-! The frame buffer's stored packets in both views, the short video read, and the two register transactions. -/

namespace Sys2Proof.Machine

/-! ## An entry that holds a packet -/

/-- The bytes of entry `p` of slot `s` are those of the packet with wire bytes `w` (R73, R151). -/
def Video.EntryHolds (c : Cfg) (v : Video) (s : Slot) (p : Nat) (w : List Byte) : Prop :=
  ∀ b < 164, v.fb.read (fbAddr c s p b) = (entryBytes c w)[b]?

section
variable {c : Cfg} {v : Video} {s : Slot} {p : Nat} {w : List Byte}

theorem Video.EntryHolds.fbByte (h : v.EntryHolds c s p w) {b : Nat} (hb : b < 164) {x : Byte}
    (hx : (entryBytes c w)[b]? = some x) : v.fbByte (fbAddr c s p b) = x := by
  rw [Video.fbByte, h b hb, hx, Option.getD_some]

theorem Video.EntryHolds.entryId (h : v.EntryHolds c s p w) : v.entryId c s p = wireId w := by
  rw [Video.entryId, h.fbByte (by decide) (entryBytes_zero c w), h.fbByte (by decide) (entryBytes_one c w), beWord_hi_lo]

theorem Video.EntryHolds.entryCrc (h : v.EntryHolds c s p w) : v.entryCrc c s p = wireCrc w := by
  rw [Video.entryCrc, h.fbByte (by decide) (entryBytes_two c w), h.fbByte (by decide) (entryBytes_three c w),
    beWord_hi_lo]

theorem Video.EntryHolds.entryPayload (h : v.EntryHolds c s p w) (hw : w.length = 164) {i : Nat} (hi : i < 160) :
    v.entryPayload c s p i = w.getD (4 + i) 0 := by
  have hx : (entryBytes c w)[4 + i]? = some (w.getD (4 + i) 0) := by
    rw [entryBytes_payload c w hi, List.getD_eq_getElem?_getD, List.getElem?_eq_getElem (by omega), Option.getD_some]
  rw [entryPayload_eq, h.fbByte (by omega) hx]

end

/-- `DecodePacket` puts the packet into its entry (R151). -/
theorem Video.entryHolds_decodePacket (c : Cfg) (v : Video) (s : Slot) (p : Nat) {w : List Byte} (hw : w.length = 164) :
    (v.decodePacket c s p w).EntryHolds c s p w := fun b hb => by
  rw [Video.decodePacket_fb, fbAddr_eq c s p b, read_write_inside _ _ _ (by rw [entryBytes_length c hw]; exact hb)]

/-- The wire bytes of packet `j` of a bulk read. -/
def bulkPacket (w : List Byte) (j : Nat) : List Byte := (w.drop (164 * j)).take 164

theorem bulkPacket_length {w : List Byte} {j k : Nat} (hw : w.length = 164 * k) (hj : j < k) :
    (bulkPacket w j).length = 164 := by
  simp only [bulkPacket, List.length_take, List.length_drop]
  omega

theorem bulkPacket_getD (w : List Byte) (j : Nat) {b : Nat} (hb : b < 164) :
    (bulkPacket w j).getD b 0 = w.getD (164 * j + b) 0 := by
  simp [bulkPacket, List.getD_eq_getElem?_getD, List.getElem?_drop, hb]

/-- A bulk read puts its packet `j` into entry `j + 1` of the slot (R171). -/
theorem Video.entryHolds_storeBulk (c : Cfg) (v : Video) (s : Slot) {w : List Byte} {j : Nat}
    (hw : w.length = 164 * (v.count s - 1)) (hj : j < v.count s - 1) :
    (v.storeBulk c s w).EntryHolds c s (j + 1) (bulkPacket w j) := fun b hb => by
  have hin : 164 * j + b < (bulkBytes c (v.count s - 1) w).length := by rw [bulkBytes_length c _ w hw]; omega
  rw [Video.storeBulk_fb, fbAddr_bulk c s j b, read_write_inside _ _ _ hin, bulkBytes_get c _ w j b hw hj hb, bulkPacket]

/-! ## What the codec and the bulk read store -/

/-- Settles O21: the entry holds the packet, each view of it is read off the entry's bytes, and a write leaves the bytes
outside it. -/
theorem storedPacketViews : Obligations.StoredPacketViews := by
  intro c v s p w hw v'
  rw [Cfg.packetBytes_eq] at hw
  have hentry : v'.EntryHolds c s p w := v.entryHolds_decodePacket c s p hw
  refine ⟨hentry.entryId, hentry.entryCrc, fun i hi => hentry.entryPayload hw (by simpa using hi),
    (loByte_beWord _ _).symm, (hiByte_beWord _ _).symm, (loByte_beWord _ _).symm, (hiByte_beWord _ _).symm,
    fun i _ => (entryPayload_eq c v' s p i).symm, fun x hx => read_write_outside v.fb _ _ ?_⟩
  rwa [entryBytes_length c hw, ← Cfg.packetBytes_eq c]

/-- Settles O22: the entry holds the packet, whose identifier and checksum are the words whose bytes were sent. -/
theorem packetByteOrderRoundTrip : Obligations.PacketByteOrderRoundTrip := by
  intro c v s p id crc payload hpayload v'
  have hw : ([hiByte id, loByte id, hiByte crc, loByte crc] ++ payload).length = 164 := by simp [hpayload]
  have hentry := v.entryHolds_decodePacket c s p hw
  refine ⟨hentry.entryId.trans (beWord_hi_lo id), hentry.entryCrc.trans (beWord_hi_lo crc), fun i hi => ?_⟩
  rw [hentry.entryPayload hw (by simpa using hi), List.getD_append_right _ _ _ _ (Nat.le_add_right 4 i)]
  exact congrArg (payload.getD · 0) (Nat.add_sub_cancel_left 4 i)

/-- Settles O23: entry `j + 1` holds packet `j` of the bulk read, and a write leaves the bytes outside its run. -/
theorem storedBulkViews : Obligations.StoredBulkViews := by
  intro c v s w hw v'
  have hw : w.length = 164 * (v.count s - 1) := by rw [hw, Video.bulkLen, Cfg.packetBytes_eq]
  refine ⟨fun j hj => ?_, fun x hx => read_write_outside v.fb _ _ ?_⟩
  · have hj : j < v.count s - 1 := by omega
    have hentry : v'.EntryHolds c s (j + 1) (bulkPacket w j) := v.entryHolds_storeBulk c s hw hj
    refine ⟨?_, ?_, fun i hi => ?_⟩
    · rw [hentry.entryId, wireId, bulkPacket_getD w j (by decide), bulkPacket_getD w j (by decide)]
      rfl
    · rw [hentry.entryCrc, wireCrc, bulkPacket_getD w j (by decide), bulkPacket_getD w j (by decide)]
      rfl
    · rw [Cfg.payloadBytes_eq] at hi
      rw [hentry.entryPayload (bulkPacket_length hw hj) hi, bulkPacket_getD w j (by omega)]
  · rwa [bulkBytes_length c _ w hw, ← Cfg.packetBytes_eq c]

/-! ## A short video read -/

/-- A short read at either wait is recorded and raises `IoFault` (R154, R175). -/
theorem Video.answer_short {c : Cfg} {a : VideoAnswer} {v : Video}
    (h : (∃ slot p, v.vAt = .packet slot p ∧ a.bytes.length < c.packetBytes) ∨
      (∃ slot, v.vAt = .bulk slot ∧ a.bytes.length < c.packetBytes * (v.count slot - 1))) :
    ∃ x, v.answer c a = (v.observe x a.cancel).raise .ioFault := by
  unfold Video.answer
  rcases h with ⟨slot, p, hat, hshort⟩ | ⟨slot, hat, hshort⟩ <;> rw [hat]
  · exact ⟨_, v.packetPass_short c slot p (by rwa [Cfg.packetBytes_eq] at hshort)⟩
  · exact ⟨_, v.bulkPass_short c slot hshort⟩

/-- A turn whose first answer raises a fault leaves the answers after it. -/
theorem Video.resume_raise {c : Cfg} {a : VideoAnswer} {rest : List VideoAnswer} {v u : Video} {f : Status}
    (hb : v.vBusy = true) (hs : v.sensor = a :: rest) (ha : v.answer c a = u.raise f) :
    v.resume c = { u.raise f with sensor := rest } := by
  rw [Video.resume, hs]
  exact (Video.runOver_busy c a rest v hb).trans (ha ▸ Video.runOver_idle c rest (u.raise f) rfl)

/-- The columns look at neither the record of the bus, nor the cancel level, nor the answers to come. -/
theorem FaultColumns.ofObserved {x : VideoXact} {b : Bool} {v v' : Video} (rest : List VideoAnswer)
    (h : FaultColumns (v.observe x b) v') : FaultColumns v { v' with sensor := rest } :=
  ⟨h.invalid, h.resets, h.frameValid, h.sync, h.xfer, h.other⟩

/-- Settles O27: at either wait a short read raises `IoFault` before anything is stored, and a fault leaves the columns of
R325's table. -/
theorem shortVideoReadIsIoFault : Obligations.ShortVideoReadIsIoFault := by
  intro s a rest hb hs hshort hr
  obtain ⟨x, hanswer⟩ := Video.answer_short hshort
  have hresume := Video.resume_raise hb hs hanswer
  refine ⟨{ s with video := { (s.video.observe x a.cancel).raise .ioFault with sensor := rest } },
    (serve_busy (p := .video) hr hb).trans (congrArg (fun v => Host.Outcome.next { s with video := v }) hresume),
    rfl, rfl, rfl, rfl, rfl, ?_⟩
  exact (FaultColumns.ofRaise (s.video.observe x a.cancel) (by simp)).ofObserved rest

/-! ## The register transactions -/

/-- A run whose first answer ends the operation leaves the answers after it. -/
theorem Control.run_one {c : Cfg} {a : CciAnswer} {rest : List CciAnswer} {k k' : Control} (hb : k.cBusy = true)
    (hs : k.sensor = a :: rest) (ha : k.answer c a = k') (hend : k'.cBusy = false) :
    k.run c = { k' with sensor := rest } := by
  rw [Control.run, hs, Control.runOver_busy c a rest k hb, ha, Control.runOver_idle c rest k' hend]

/-- The answer to the write of `REG_WR`, acknowledged or not (R81, R260). -/
theorem Control.answer_regWrite_ite (c : Cfg) (a : CciAnswer) {k : Control} {addr value : Word}
    (hat : k.cAt = .regWrite addr value) :
    k.answer c a = (k.wrote c addr value a).complete (if a.ack then .ok else .ioFault) := by
  unfold Control.answer
  rw [hat]
  cases a.ack <;> rfl

/-- The answer to the read of `REG_RD`, acknowledged or not (R82, R262). -/
theorem Control.answer_regRead_ite (c : Cfg) (a : CciAnswer) {k : Control} {addr : Word}
    (hat : k.cAt = .regRead addr) :
    k.answer c a = ({ k.didRead c addr a with cRdata := if a.ack then answerValue a else k.cRdata } : Control).complete
      (if a.ack then .ok else .ioFault) := by
  unfold Control.answer
  rw [hat]
  cases a.ack <;> rfl

/-- Settles O44: the one answer ends the write, acknowledged or not. -/
theorem regWrResult : Obligations.RegWrResult := by
  intro s addr value a rest hb hs
  refine (onControl_idle (regWr addr value) hb).trans (congrArg (fun k => Host.Outcome.next { s with ctl := k }) ?_)
  exact Control.run_one (k := { s.ctl.accept .regWr with cAt := .regWrite addr value }) rfl hs
    (Control.answer_regWrite_ite s.cfg a rfl) rfl

/-- Settles O45: the one answer ends the read, and delivers the value if it was acknowledged. -/
theorem regRdResult : Obligations.RegRdResult := by
  intro s addr a rest hb hs
  refine (onControl_idle (regRd addr) hb).trans (congrArg (fun k => Host.Outcome.next { s with ctl := k }) ?_)
  exact Control.run_one (k := { s.ctl.accept .regRd with cAt := .regRead addr }) rfl hs
    (Control.answer_regRead_ite s.cfg a rfl) rfl

end Sys2Proof.Machine


/-! The command word. The decoder reads the operation off the code alone and then each operand off the fields its format
names (R126, R130): `decode_of_opcode` says so once for all eighteen rows, and the statements about the encoding follow from
what the word of an operation holds in those fields. -/

namespace Sys2Proof

/-! ## The rows of the operation map -/

/-- One operation of each row of R130, in the order of the codes. -/
def Instr.oneOfEach : List Instr :=
  [.cfgSession false, .rdPkt 0 0, .rdSeg 0 0, .sync, .xfer, .setMaxResets 0, .tlmDec 0 0, .regWr 0 0, .regRd 0,
    .cciCmd 0 0 0, .runFfc, .getUptime, .getTlmEn, .setTlmEn 0, .getTlmLoc, .setTlmLoc 0, .getAgcEn, .setAgcEn 0]

theorem Instr.opcode_mem_oneOfEach (i : Instr) : i.opcode ∈ oneOfEach.map opcode := by
  cases i <;> simp [oneOfEach, opcode]

theorem Instr.opcode_lt (i : Instr) : i.opcode < 256 :=
  have hall : ∀ op ∈ oneOfEach.map opcode, op < 256 := by decide
  hall i.opcode i.opcode_mem_oneOfEach

/-- R128: `op[7:4]` tells the port. -/
theorem Instr.port_eq (i : Instr) : i.port = if i.opcode / 16 < 2 then .video else .control := by
  cases i <;> simp [port, opcode]

/-- The operation of `i`'s row with the operands that the fields of `cw` hold (R126). -/
def Instr.withOperandsOf (cw : CmdWord) : Instr → Instr
  | .cfgSession _ => .cfgSession (tlmField cw)
  | .rdPkt _ _ => .rdPkt (slotField cw) (packetField cw)
  | .rdSeg _ _ => .rdSeg (slotField cw) (packetField cw)
  | .tlmDec _ _ => .tlmDec (slotField cw) (packetField cw)
  | .setMaxResets _ => .setMaxResets (fieldB cw)
  | .regWr _ _ => .regWr (fieldA cw) (fieldB cw)
  | .regRd _ => .regRd (fieldA cw)
  | .cciCmd _ _ _ => .cciCmd (fieldA cw) (npField cw) (nrField cw)
  | .setTlmEn _ => .setTlmEn (fieldB cw)
  | .setTlmLoc _ => .setTlmLoc (fieldB cw)
  | .setAgcEn _ => .setAgcEn (fieldB cw)
  | i => i

/-- The fields are no wider than the operands they are read into. -/
theorem Instr.wellFormed_withOperandsOf (cw : CmdWord) (i : Instr) : WellFormed (i.withOperandsOf cw) = true := by
  cases i with
  | rdPkt _ _ => exact decide_eq_true (packetField_lt cw)
  | rdSeg _ _ => exact decide_eq_true (packetField_lt cw)
  | tlmDec _ _ => exact decide_eq_true (packetField_lt cw)
  | cciCmd _ _ _ => simp [withOperandsOf, WellFormed, npField_lt, nrField_lt]
  | _ => rfl

/-! ## What the decoder answers -/

theorem decode_of_opcode {cw : CmdWord} {i : Instr} (h : opField cw = i.opcode) :
    decode cw = .ok (i.withOperandsOf cw) := by
  rw [decode, h]
  cases i <;> rfl

theorem opcode_of_decode {cw : CmdWord} {i : Instr} (h : decode cw = .ok i) : i.opcode = opField cw := by
  unfold decode at h
  split at h <;> cases h <;> exact Eq.symm ‹_›

theorem error_of_decode {cw : CmdWord} {e : DecodeError} (h : decode cw = .error e) : e = .reservedOp (opField cw) := by
  unfold decode at h
  split at h <;> cases h
  rfl

theorem wellFormed_of_decode {cw : CmdWord} {i : Instr} (h : decode cw = .ok i) : WellFormed i = true := by
  have hi : i = i.withOperandsOf cw := Except.ok.inj (h.symm.trans (decode_of_opcode (opcode_of_decode h).symm))
  exact hi ▸ i.wellFormed_withOperandsOf cw

theorem decode_of_unlisted {cw : CmdWord} (h : opField cw ∉ Instr.oneOfEach.map Instr.opcode) :
    decode cw = .error (.reservedOp (opField cw)) := by
  cases hd : decode cw with
  | ok i => exact absurd (opcode_of_decode hd ▸ i.opcode_mem_oneOfEach) h
  | error e => rw [error_of_decode hd]

theorem decodeOn_of_decode {cw : CmdWord} {i : Instr} (h : decode cw = .ok i) (p : Port) :
    decodeOn p cw = if i.port = p then .ok i else .error (.wrongPort i.opcode) := by
  rw [decodeOn, h, opcode_of_decode h]

/-- Words with one code decode alike if they agree in what the rows with that code read. -/
theorem decode_congr {cw cw' : CmdWord} (rows : List Instr) (hop : opField cw = opField cw')
    (hrow : opField cw ∈ rows.map Instr.opcode)
    (hread : ∀ i ∈ rows, i.withOperandsOf cw = i.withOperandsOf cw') : decode cw = decode cw' := by
  obtain ⟨i, hi, hcode⟩ := List.mem_map.1 hrow
  rw [decode_of_opcode hcode.symm, decode_of_opcode (hop.symm.trans hcode.symm), hread i hi]

/-! ## The fields as slices of the command word -/

/-- A slice of the 16 bits from bit `k` is a slice of the word. -/
theorem slice_slice (cw : CmdWord) (k : Nat) {hi lo : Nat} (h : hi < 16) (hlo : lo ≤ hi) :
    slice (BitVec.ofNat 16 (slice cw (k + 15) k)) hi lo = slice cw (k + hi) (k + lo) := by
  apply Nat.eq_of_testBit_eq
  intro b
  simp only [slice, BitVec.toNat_ofNat, Nat.testBit_mod_two_pow, Nat.testBit_div_two_pow]
  have hwidth : k + hi - (k + lo) + 1 = hi - lo + 1 := by omega
  have hinner : k + 15 - k + 1 = 16 := by omega
  have hbit : b + lo + k = b + (k + lo) := by omega
  rw [hwidth, hinner, hbit]
  by_cases hb : b < hi - lo + 1
  · have hin : b + lo < 16 := by omega
    simp [hb, hin]
  · simp [hb]

theorem slotField_eq (cw : CmdWord) : slotField cw = Fin.ofNat 4 (slice cw 25 24) :=
  congrArg (Fin.ofNat 4) (slice_slice cw 16 (by decide) (by decide))

theorem packetField_eq (cw : CmdWord) : packetField cw = slice cw 22 16 := slice_slice cw 16 (by decide) (by decide)

theorem tlmField_eq (cw : CmdWord) : tlmField cw = (slice cw 0 0 == 1) :=
  congrArg (· == 1) (slice_slice cw 0 (by decide) (by decide))

theorem npField_eq (cw : CmdWord) : npField cw = slice cw 4 0 := slice_slice cw 0 (by decide) (by decide)

theorem nrField_eq (cw : CmdWord) : nrField cw = slice cw 12 8 := slice_slice cw 0 (by decide) (by decide)

theorem opField_div_sixteen (cw : CmdWord) : opField cw / 16 = slice cw 39 36 := by
  simp only [opField, slice]
  omega

/-! ## The word of an operation -/

theorem opField_encode (i : Instr) : opField (encode i) = i.opcode :=
  match i with
  | .cfgSession tlm => Laws.EncodeOp.cfgSession tlm
  | .rdPkt s p => Laws.EncodeOp.rdPkt s p
  | .rdSeg s p => Laws.EncodeOp.rdSeg s p
  | .sync => Laws.EncodeOp.sync
  | .xfer => Laws.EncodeOp.xfer
  | .setMaxResets value => Laws.EncodeOp.setMaxResets value
  | .tlmDec s p => Laws.EncodeOp.tlmDec s p
  | .regWr addr value => Laws.EncodeOp.regWr addr value
  | .regRd addr => Laws.EncodeOp.regRd addr
  | .cciCmd opc np nr => Laws.EncodeOp.cciCmd opc np nr
  | .runFfc => Laws.EncodeOp.runFfc
  | .getUptime => Laws.EncodeOp.getUptime
  | .getTlmEn => Laws.EncodeOp.getTlmEn
  | .setTlmEn value => Laws.EncodeOp.setTlmEn value
  | .getTlmLoc => Laws.EncodeOp.getTlmLoc
  | .setTlmLoc value => Laws.EncodeOp.setTlmLoc value
  | .getAgcEn => Laws.EncodeOp.getAgcEn
  | .setAgcEn value => Laws.EncodeOp.setAgcEn value

theorem fieldA_encodeWord_word {op b : Nat} (a : Word) (ho : op < 256) (hb : b < 65536) :
    fieldA (encodeWord op a.toNat b) = a :=
  (fieldA_encodeWord ho a.isLt hb).trans (ofNat_toNat_word a)

theorem fieldB_encodeWord_word {op a : Nat} (b : Word) (ho : op < 256) (ha : a < 65536) :
    fieldB (encodeWord op a b.toNat) = b :=
  (fieldB_encodeWord ho ha b.isLt).trans (ofNat_toNat_word b)

/-- The word of an operation whose operands fit their fields holds these operands. -/
theorem withOperandsOf_encode {i : Instr} (h : WellFormed i = true) : i.withOperandsOf (encode i) = i := by
  have hop := i.opcode_lt
  have hpacket : ∀ (s : Slot) {p : Nat}, p < 128 → slotField (encodeWord i.opcode (encodeS s p) 0) = s ∧
      packetField (encodeWord i.opcode (encodeS s p) 0) = p := fun s _ hp =>
    ⟨slotField_encodeWord s _ hop (by decide), packetField_encodeWord s hp hop (by decide)⟩
  have hvalue : ∀ value : Word, fieldB (encodeWord i.opcode 0 value.toNat) = value := fun value =>
    fieldB_encodeWord_word value hop (by decide)
  cases i with
  | cfgSession tlm => exact congrArg Instr.cfgSession (tlmField_encodeWord tlm hop (by decide))
  | rdPkt s p => obtain ⟨hs, hp⟩ := hpacket s (of_decide_eq_true h); exact congrArg₂ Instr.rdPkt hs hp
  | rdSeg s p => obtain ⟨hs, hp⟩ := hpacket s (of_decide_eq_true h); exact congrArg₂ Instr.rdSeg hs hp
  | tlmDec s p => obtain ⟨hs, hp⟩ := hpacket s (of_decide_eq_true h); exact congrArg₂ Instr.tlmDec hs hp
  | setMaxResets value => exact congrArg Instr.setMaxResets (hvalue value)
  | setTlmEn value => exact congrArg Instr.setTlmEn (hvalue value)
  | setTlmLoc value => exact congrArg Instr.setTlmLoc (hvalue value)
  | setAgcEn value => exact congrArg Instr.setAgcEn (hvalue value)
  | regWr addr value =>
    exact congrArg₂ Instr.regWr (fieldA_encodeWord_word addr hop value.isLt) (fieldB_encodeWord_word value hop addr.isLt)
  | regRd addr => exact congrArg Instr.regRd (fieldA_encodeWord_word addr hop (by decide))
  | cciCmd opc np nr =>
    obtain ⟨hnp, hnr⟩ : np < 32 ∧ nr < 32 := by simpa [WellFormed] using h
    simp only [Instr.withOperandsOf, encode, fieldA_encodeWord_word opc hop (encodeG_lt np nr),
      npField_encodeWord nr hnp hop opc.isLt, nrField_encodeWord np hnr hop opc.isLt]
  | _ => rfl

/-! ## The statements -/

/-- Settles O1: the word of an operation holds its code, and in the fields of its format its operands. -/
theorem decodeInvertsEncode : Obligations.DecodeInvertsEncode := by
  intro i h
  have hdecode : decode (encode i) = .ok i := by
    rw [decode_of_opcode (opField_encode i), withOperandsOf_encode h]
  exact ⟨hdecode, decodeOn_of_decode hdecode⟩

/-- Settles O2: the listed codes are those of the rows, a word with the code of a row is read as that row, and an operation
that was read has its word's code. -/
theorem decoderTakesExactlyTheListedCodes : Obligations.DecoderTakesExactlyTheListedCodes := by
  intro cw codes
  have hcodes : codes = Instr.oneOfEach.map Instr.opcode := rfl
  rw [hcodes]
  refine ⟨fun i h => ⟨opcode_of_decode h, wellFormed_of_decode h, ?_⟩, fun h => ?_, decode_of_unlisted⟩
  · rw [i.port_eq, opcode_of_decode h, opField_div_sixteen]
  · obtain ⟨i, -, hi⟩ := List.mem_map.1 h
    exact ⟨_, decode_of_opcode hi.symm⟩

/-- Settles O3: format by format, the rows read the named fields alone. -/
theorem unnamedBitsAreIgnored : Obligations.UnnamedBitsAreIgnored := by
  intro cw cw' hop
  have hA : slice cw 31 16 = slice cw' 31 16 → fieldA cw = fieldA cw' := congrArg (BitVec.ofNat 16)
  have hB : slice cw 15 0 = slice cw' 15 0 → fieldB cw = fieldB cw' := congrArg (BitVec.ofNat 16)
  refine ⟨fun h => ?formatN, fun h hslot hpacket => ?formatS, fun h htlm => ?formatC, fun h ha hb => ?formatW,
    fun h ha => ?formatA, fun h hb => ?formatV, fun h ha hnp hnr => ?formatG⟩
  case formatN =>
    exact decode_congr [.sync, .xfer, .runFfc, .getUptime, .getTlmEn, .getTlmLoc, .getAgcEn] hop h
      (by simp [Instr.withOperandsOf])
  case formatS =>
    exact decode_congr [.rdPkt 0 0, .rdSeg 0 0, .tlmDec 0 0] hop h
      (by simp [Instr.withOperandsOf, slotField_eq, packetField_eq, hslot, hpacket])
  case formatC =>
    exact decode_congr [.cfgSession false] hop (List.mem_singleton.2 h) (by simp [Instr.withOperandsOf, tlmField_eq, htlm])
  case formatW =>
    exact decode_congr [.regWr 0 0] hop (List.mem_singleton.2 h) (by simp [Instr.withOperandsOf, hA ha, hB hb])
  case formatA =>
    exact decode_congr [.regRd 0] hop (List.mem_singleton.2 h) (by simp [Instr.withOperandsOf, hA ha])
  case formatV =>
    exact decode_congr [.setMaxResets 0, .setTlmEn 0, .setTlmLoc 0, .setAgcEn 0] hop h
      (by simp [Instr.withOperandsOf, hB hb])
  case formatG =>
    exact decode_congr [.cciCmd 0 0 0] hop (List.mem_singleton.2 h)
      (by simp [Instr.withOperandsOf, hA ha, npField_eq, nrField_eq, hnp, hnr])

/-- Settles O4, by evaluation of the decoder on each word. -/
theorem exampleWordsDecode : Obligations.ExampleWordsDecode := by
  unfold Obligations.ExampleWordsDecode
  decide

end Sys2Proof


/-! Acceptance of a command: the turn that takes it, the busy port that does not, and the operand checks of R127. -/

namespace Sys2Proof.Machine

/-! ## The turn -/

/-- Settles O5: either way the step is the turn of port `p` with the turn used up, and that turn accepts the command. -/
theorem stepRunsDecodedOperation : Obligations.StepRunsDecodedOperation := by
  intro s p rest i hc hturn hr hb hv hd
  have hstep : step s = serve p { s with agenda := rest } := by
    obtain ha | ⟨ha, rfl, rfl⟩ := hturn
    · exact step_serve hc ha
    · rw [step_empty hc ha, ← ha]
  exact hstep.trans (serve_ok (s := { s with agenda := rest }) (p := p) hr hb hv hd)

/-- Settles O8, port by port: an operation acts on its own side, and only if that is idle. -/
theorem busyPortTakesNoCommand : Obligations.BusyPortTakesNoCommand := by
  intro i s hb
  cases hp : i.port with
  | video =>
    obtain ⟨f, hf⟩ := exec_video hp
    exact (hf s).trans (onVideo_busy f (by rwa [hp] at hb))
  | control =>
    obtain ⟨f, hf⟩ := exec_control hp
    exact (hf s).trans (onControl_busy f (by rwa [hp] at hb))

/-! ## The operand checks -/

theorem rdPkt_badOperand {c : Cfg} (slot : Slot) {p : Nat} (h : c.segCap ≤ p) (v : Video) :
    rdPkt slot p c v = (v.accept .rdPkt).raise .badOperand := if_pos (decide_eq_true h)

theorem rdSeg_badOperand {c : Cfg} (slot : Slot) {p : Nat} (h : c.segCap ≤ p) (v : Video) :
    rdSeg slot p c v = (v.accept .rdSeg).raise .badOperand := if_pos (decide_eq_true h)

theorem cciCmd_badOperand {c : Cfg} (opc : Word) {np nr : Nat} (h : c.nData < np ∨ c.nData < nr) (k : Control) :
    cciCmd opc np nr c k = (k.accept .cciCmd).raise .badOperand :=
  if_pos (by simpa [badWordCounts] using h)

/-- A segment read refused at acceptance has cleared `frame_valid` (R31) and reports `BadOperand`; the synchronizer and its
results are not touched (R325). -/
theorem Video.raise_badOperand_accept {op : VideoOp} (h : op = .rdPkt ∨ op = .rdSeg) (v : Video) :
    (v.accept op).raise .badOperand = { v with
      frameValid := false
      vStatus := .badOperand, vDone := true, vBusy := false, vOp := none, vAt := .idle, seg := 0 } := by
  rcases h with rfl | rfl <;>
    simp [Video.accept, Video.raise, Video.complete, VideoOp.clearsFrameValid, faultFsState, faultFrames, faultResets]

/-- Settles O28: the check fails before anything is run, and what acceptance and the fault change is what is listed. -/
theorem badOperandIsRefused : Obligations.BadOperandIsRefused := by
  intro s
  refine ⟨fun hb i slot p hi hp => ?_, fun hb opc np nr h => ?_⟩
  · rcases hi with rfl | rfl
    · exact (onVideo_idle (rdPkt slot p) hb).trans (by
        rw [rdPkt_badOperand slot hp, Video.raise_badOperand_accept (.inl rfl)])
    · exact (onVideo_idle (rdSeg slot p) hb).trans (by
        rw [rdSeg_badOperand slot hp, Video.raise_badOperand_accept (.inr rfl)])
  · refine (onControl_idle (cciCmd opc np nr) hb).trans ?_
    rw [cciCmd_badOperand opc h]
    rfl

end Sys2Proof.Machine


/-! The packet loop over discard packets that end the operation or leave it waiting, and the frame of `RD_PKT` and `RD_SEG`. -/

namespace Sys2Proof.Machine

/-! ## The two turns of the video engine -/

theorem exec_rdPkt_of_eq {s : State} {slot : Slot} {p : Nat} {v : Video} (hb : s.video.vBusy = false)
    (hv : rdPkt slot p s.cfg s.video = v) : exec (.rdPkt slot p) s = .next { s with video := v } :=
  hv ▸ onVideo_idle (rdPkt slot p) hb

theorem serve_video_of_eq {s : State} {v : Video} (hr : s.rst = false) (hb : s.video.vBusy = true)
    (hv : s.video.resume s.cfg = v) : serve .video s = .next { s with video := v } :=
  hv ▸ serve_busy (p := .video) hr hb

/-! ## A discard packet that ends the operation -/

/-- How a discard packet ends the operation when `n` have been skipped before it (R152): past the bound with
`DiscardTimeout`, whatever the cancel input; within it with `Cancelled`, if that is high. -/
def DiscardFault (c : Cfg) (n : Nat) (cancel : Bool) (f : Status) : Prop :=
  (f = .discardTimeout ∧ c.maxDiscardSkips = some n) ∨
    (f = .cancelled ∧ cancel = true ∧ ∀ bound, c.maxDiscardSkips = some bound → n + 1 ≤ bound)

theorem DiscardFault.withinBound {c : Cfg} {n : Nat} {cancel : Bool} {f : Status} (h : DiscardFault c n cancel f) :
    ∀ bound, c.maxDiscardSkips = some bound → n ≤ bound := by
  rintro bound hbound
  obtain ⟨-, hn⟩ | ⟨-, -, hn⟩ := h
  · exact (Option.some.inj (hn.symm.trans hbound)).le
  · exact (Nat.le_succ n).trans (hn bound hbound)

theorem Video.skipDiscard_fault {c : Cfg} {f : Status} {v : Video} (h : DiscardFault c v.skips v.cmd.cancel f) :
    v.skipDiscard c = ({ v with skips := v.skips + 1 } : Video).raise f := by
  obtain ⟨rfl, hbound⟩ | ⟨rfl, hcancel, hbound⟩ := h
  · exact if_pos (by simp [tooManySkips, hbound])
  · rw [Video.skipDiscard, tooManySkips_false hbound]
    exact if_pos hcancel

/-- The video side once the discard packet `a` after the discards `ds` has ended the operation with `f`. -/
def Video.discardFaulted (c : Cfg) (s : Slot) (p : Nat) (ds : List VideoAnswer) (a : VideoAnswer) (f : Status)
    (v : Video) : Video :=
  ({ v.gotPacket c s p ds a with skips := v.skips + ds.length + 1 } : Video).raise f

/-- The packet loop over tolerated discards and then one that ends the operation (R152). -/
theorem Video.runOver_discardFault {c : Cfg} {s : Slot} {p : Nat} {v : Video} {ds : List VideoAnswer} {a : VideoAnswer}
    {f : Status} (as : List VideoAnswer) (hat : v.vAt = .packet s p) (hb : v.vBusy = true)
    (hd : ∀ d ∈ ds, DiscardAnswer c d) (hw : c.packetBytes ≤ a.bytes.length)
    (hdiscard : isDiscard c (wireId a.bytes) = true) (hf : DiscardFault c (v.skips + ds.length) a.cancel f) :
    Video.runOver c (ds ++ a :: as) v = (v.discardFaulted c s p ds a f).withSensor as := by
  rw [Cfg.packetBytes_eq] at hw
  obtain ⟨hat', hb', -, -⟩ := Video.afterDiscards_facts c s p ds v
  have hread : ((v.afterDiscards c s p ds).observe (.read 164 164) a.cancel).decodePacket c s p (a.bytes.take 164) =
      v.gotPacket c s p ds a := by
    rw [Video.afterDiscards_then c s p (List.length_take_of_le hw) a.cancel _ ds v hd, Video.gotPacket,
      List.replicate_succ']
  have hanswer : (v.afterDiscards c s p ds).answer c a = v.discardFaulted c s p ds a f := by
    rw [Video.answer, hat', hat]
    refine (Video.packetPass_discard c s p _ hw (by rwa [wireId_take _ (by decide)])).trans ?_
    rw [hread]
    exact Video.skipDiscard_fault (v := v.gotPacket c s p ds a) hf
  rw [Video.runOver_discards (a :: as) ds v hat hb hd hf.withinBound, Video.runOver_busy c a as _ (hb'.trans hb), hanswer]
  exact Video.runOver_idle c as _ rfl

/-- `RD_PKT` on an idle port, over tolerated discards and then one that ends it: a read for each packet, and nothing of the
synchronizer (R152, R325). -/
theorem exec_rdPkt_discardFault {s : State} {slot : Slot} {p : Nat} {ds : List VideoAnswer} {a : VideoAnswer}
    {rest : List VideoAnswer} {f : Status} (hb : s.video.vBusy = false) (hp : p < s.cfg.segCap)
    (hs : s.video.sensor = ds ++ a :: rest) (hd : ∀ d ∈ ds, DiscardAnswer s.cfg d)
    (hw : s.cfg.packetBytes ≤ a.bytes.length) (hdiscard : isDiscard s.cfg (wireId a.bytes) = true)
    (hf : DiscardFault s.cfg ds.length a.cancel f) :
    ∃ t, exec (.rdPkt slot p) s = .next t ∧ t.video.vStatus = f ∧ t.video.vBusy = false ∧ t.video.vDone = true ∧
      t.video.frameValid = false ∧ t.video.fsState = s.video.fsState ∧ t.video.sensor = rest ∧
      t.video.bus = s.video.bus ++ List.replicate (ds.length + 1) (.read s.cfg.packetBytes s.cfg.packetBytes) := by
  let v := (s.video.accept .rdPkt).startPacket slot p
  have hrun : rdPkt slot p s.cfg s.video = (v.discardFaulted s.cfg slot p ds a f).withSensor rest := by
    rw [rdPkt_eq_run hp, Video.run, show v.sensor = ds ++ a :: rest from hs]
    exact Video.runOver_discardFault rest rfl rfl hd hw hdiscard (by rwa [Video.startPacket_skips, Nat.zero_add])
  refine ⟨_, exec_rdPkt_of_eq hb hrun, rfl, rfl, rfl, Bool.and_false _, rfl, rfl, ?_⟩
  rw [Cfg.packetBytes_eq]
  rfl

/-- A fault of the packet loop leaves the columns of R325's table. -/
theorem Video.faultColumns_discardFaulted (c : Cfg) (s : Slot) (p : Nat) (ds : List VideoAnswer) (a : VideoAnswer)
    {f : Status} (v : Video) (hf : f = .discardTimeout ∨ f = .cancelled) (rest : List VideoAnswer) :
    FaultColumns v ((v.discardFaulted c s p ds a f).withSensor rest) := by
  have h : FaultColumns { v.gotPacket c s p ds a with skips := v.skips + ds.length + 1 }
      (v.discardFaulted c s p ds a f) := .ofRaise _ (by rcases hf with rfl | rfl <;> simp)
  exact ⟨h.invalid, h.resets, h.frameValid, h.sync, h.xfer, h.other⟩

/-- Settles O25: the discards before the last are skipped, the last one raises the fault, and a fault leaves the columns of
R325's table; `RD_PKT` is the loop from no discards skipped. -/
theorem discardLoopFaults : Obligations.DiscardLoopFaults := by
  refine ⟨fun s slot p ds a rest hb hp hs hd hw hdiscard => ⟨fun hbound => ?_, fun hbound hcancel => ?_⟩,
    fun s slot p ds a rest f hr hb hat hs hd hw hdiscard hf => ?_⟩
  · exact exec_rdPkt_discardFault hb hp hs hd hw hdiscard (.inl ⟨rfl, hbound⟩)
  · exact exec_rdPkt_discardFault hb hp hs hd hw hdiscard (.inr ⟨rfl, hcancel, hbound⟩)
  · have hturn : s.video.resume s.cfg = (s.video.discardFaulted s.cfg slot p ds a f).withSensor rest := by
      rw [← Video.runOver_discardFault rest hat hb hd hw hdiscard hf, ← hs]
      exact Video.resume_answers s.cfg (by simp [hs]) s.video
    refine ⟨_, serve_video_of_eq hr hb hturn, rfl, rfl, rfl, rfl, rfl, ?_,
      fun x hx => ?_, Video.faultColumns_discardFaulted s.cfg slot p ds a s.video (hf.imp And.left And.left) rest⟩
    · rw [Cfg.packetBytes_eq]
      rfl
    · rw [Cfg.packetBytes_eq] at hw hx
      refine read_write_outside s.video.fb _ _ ?_
      rwa [entryBytes_length s.cfg (List.length_take_of_le hw)]

/-! ## Discard packets without a bound -/

/-- What a run of discard packets leaves of the status and the done flag. -/
theorem Video.afterDiscards_status (c : Cfg) (s : Slot) (p : Nat) (ds : List VideoAnswer) : ∀ v : Video,
    (v.afterDiscards c s p ds).vStatus = v.vStatus ∧ (v.afterDiscards c s p ds).vDone = v.vDone := by
  induction ds with
  | nil => exact fun v => ⟨rfl, rfl⟩
  | cons d ds ih => exact fun v => ih (v.skipOne c s p d)

/-- With no bound, the packet loop is still waiting when its answers were all discard packets (R380 (b)). -/
theorem Video.runOver_unbounded {c : Cfg} {s : Slot} {p : Nat} {v : Video} {ds : List VideoAnswer}
    (hnone : c.maxDiscardSkips = none) (hat : v.vAt = .packet s p) (hb : v.vBusy = true)
    (hd : ∀ d ∈ ds, DiscardAnswer c d) :
    Video.runOver c ds v = (v.afterDiscards c s p ds).withSensor [] := by
  have h := Video.runOver_discards [] ds v hat hb hd (by simp [hnone])
  rwa [List.append_nil] at h

/-- Settles O26: without a bound the answers are all skipped, which leaves the label, the flags and the status. -/
theorem unboundedDiscardLoopRunsOn : Obligations.UnboundedDiscardLoopRunsOn := by
  refine ⟨fun s slot p hnone hb hp hd => ?_, fun s slot p hnone hr hb hat hs hd => ?_⟩
  · let v := (s.video.accept .rdPkt).startPacket slot p
    obtain ⟨hat, hbusy, -, hskips⟩ := v.afterDiscards_facts s.cfg slot p s.video.sensor
    obtain ⟨-, hdone⟩ := v.afterDiscards_status s.cfg slot p s.video.sensor
    have hrun : rdPkt slot p s.cfg s.video = (v.afterDiscards s.cfg slot p s.video.sensor).withSensor [] :=
      (rdPkt_eq_run hp slot s.video).trans (Video.runOver_unbounded hnone rfl rfl hd)
    exact ⟨_, exec_rdPkt_of_eq hb hrun, hbusy, hdone, hat,
      hskips.trans (Nat.zero_add _), rfl⟩
  · obtain ⟨hat', hbusy, hop, hskips⟩ := s.video.afterDiscards_facts s.cfg slot p s.video.sensor
    obtain ⟨hstatus, hdone⟩ := s.video.afterDiscards_status s.cfg slot p s.video.sensor
    have hturn : s.video.resume s.cfg = (s.video.afterDiscards s.cfg slot p s.video.sensor).withSensor [] :=
      (Video.resume_answers s.cfg hs s.video).trans (Video.runOver_unbounded hnone hat hb hd)
    exact ⟨_, serve_video_of_eq hr hb hturn, hbusy.trans hb, hdone, hstatus, hop,
      hat'.trans hat, hskips, rfl⟩

/-! ## The frame of `RD_PKT` and `RD_SEG` -/

/-- Entry 1 of a slot follows entry 0 (R71). -/
theorem fbAddr_second (c : Cfg) (s : Nat) : fbAddr c s 1 0 = fbAddr c s 0 0 + 164 := by
  simp only [fbAddr, Cfg.packetBytes_eq]
  omega

/-- The addresses of entry `p` of a slot. -/
def InEntry (c : Cfg) (slot : Slot) (p x : Nat) : Prop := fbAddr c slot p 0 ≤ x ∧ x < fbAddr c slot p 0 + 164

/-- The addresses of the entries 0 to `n - 1` of a slot. -/
def InSegment (c : Cfg) (slot : Slot) (n x : Nat) : Prop := fbAddr c slot 0 0 ≤ x ∧ x < fbAddr c slot 0 0 + 164 * n

/-- One packet entry is the region that `RD_PKT` stores to. -/
theorem VideoRegion.entry (c : Cfg) (cnt : Vector Nat 4) (slot : Slot) (p : Nat) :
    VideoRegion c .rdPkt cnt (fun k q => k = slot ∧ q = p) (fun _ => False) (InEntry c slot p) where
  packet := by
    rintro k q ⟨rfl, rfl⟩ x hlow hhigh
    exact ⟨hlow, hhigh⟩
  bulk _ hk := hk.elim
  toBulk h := absurd rfl h
  anySlot := nofun

/-- The active entries of one slot are the region that `RD_SEG` stores to. -/
theorem VideoRegion.segment (c : Cfg) {cnt : Vector Nat 4} {slot : Slot} (hn : 0 < cnt.get slot) :
    VideoRegion c .rdSeg cnt (fun k q => k = slot ∧ q = 0) (fun k => k = slot) (InSegment c slot (cnt.get slot)) where
  packet := by
    rintro k q ⟨rfl, rfl⟩ x hlow hhigh
    exact ⟨hlow, by omega⟩
  bulk := by
    rintro k rfl x hlow hhigh
    rw [fbAddr_second] at hlow hhigh
    exact ⟨by omega, by omega⟩
  toBulk _ _ _ h := h.1
  anySlot := nofun

/-- What `RD_PKT` or `RD_SEG` has kept, as an equation: of the port's inputs only the cancel level can have changed. -/
theorem Video.Keeps.readFrame {op : VideoOp} {P : Slot → Nat → Prop} {B : Slot → Prop} {R : Nat → Prop} {v0 v : Video}
    (hop : op = .rdPkt ∨ op = .rdSeg) (h : Video.Keeps op P B R v0 v) :
    v = { v with
      fsState := v0.fsState, resets := v0.resets, invalid := v0.invalid
      pktCount := v0.pktCount, maxResets := v0.maxResets, vFrames := v0.vFrames
      vResets := v0.vResets, tlm := v0.tlm, epoch := v0.epoch
      cmd := { v0.cmd with cancel := v.cmd.cancel } } := by
  obtain ⟨hfs, hresets, hinvalid, hframes, hvResets, -⟩ := h.ofRead hop
  have hcmd : (⟨v0.cmd.valid, v0.cmd.word, v.cmd.cancel⟩ : CmdPort) = v.cmd := by rw [← h.valid, ← h.word]
  rw [hcmd, ← hfs, ← hresets, ← hinvalid, ← hframes, ← hvResets, ← h.pktCount, ← h.maxResets, ← h.tlm, ← h.epoch]

/-- The frame of `RD_PKT` and `RD_SEG` from `s` to `t`, stores inside the region `R`. -/
structure ReadFrame (R : Nat → Prop) (s t : State) : Prop where
  mem : ∀ x, ¬ R x → t.video.fb.read x = s.video.fb.read x
  held : HeldWhileBusy s.video t.video
  others : t = { s with video := { t.video with
    fsState := s.video.fsState, resets := s.video.resets, invalid := s.video.invalid
    pktCount := s.video.pktCount, maxResets := s.video.maxResets, vFrames := s.video.vFrames
    vResets := s.video.vResets, tlm := s.video.tlm, epoch := s.video.epoch
    cmd := { s.video.cmd with cancel := t.video.cmd.cancel } } }

section
variable {R : Nat → Prop} {s : State}

theorem ReadFrame.refl : ReadFrame R s s := ⟨fun _ _ => rfl, .same rfl rfl rfl, rfl⟩

/-- An operation that has kept what `Video.Keeps` says, from `s` but for the count of free answers. -/
theorem ReadFrame.ofKeeps {op : VideoOp} {P : Slot → Nat → Prop} {B : Slot → Prop} {n : Nat} {v : Video}
    (hop : op = .rdPkt ∨ op = .rdSeg) (h : Video.Keeps op P B R { s.video with tick := n } v)
    (hheld : HeldWhileBusy s.video v) : ReadFrame R s { s with video := v } where
  mem := h.mem
  held := hheld
  others := congrArg (fun v => { s with video := v }) (h.readFrame hop)

/-- The accepting turn: a busy port takes nothing, an idle one runs the operation and no free answer. -/
theorem ReadFrame.ofExec {i : Instr} {t : State} {op : VideoOp} {P : Slot → Nat → Prop} {B : Slot → Prop}
    {f : Cfg → Video → Video} (hi : exec i s = onVideo s f) (hop : op = .rdPkt ∨ op = .rdSeg)
    (hk : Video.Keeps op P B R s.video (f s.cfg s.video)) (he : exec i s = .next t) :
    ReadFrame R s t ∧ t.video.tick = s.video.tick := by
  have hheld := exec_resultsHeld he
  cases hb : s.video.vBusy with
  | true =>
    rw [hi, onVideo_busy f hb] at he
    cases he
    exact ⟨.refl, rfl⟩
  | false =>
    rw [hi, onVideo_idle f hb] at he
    cases he
    exact ⟨.ofKeeps (n := s.video.tick) hop hk hheld, hk.tick⟩

/-- A later turn. -/
theorem ReadFrame.ofResume {op : VideoOp} {P : Slot → Nat → Prop} {B : Slot → Prop} (h : s.Inv)
    (hb : s.video.vBusy = true) (ho : s.video.vOp = some op) (hop : op = .rdPkt ∨ op = .rdSeg)
    (hr : VideoRegion s.cfg op s.video.pktCount P B R) (hl : s.video.vAt.Within op P B) :
    ReadFrame R s (s.resume .video) := by
  obtain ⟨n, hk⟩ := Video.Keeps.resume hr (hop.imp_right .inl) hb ho hl (h.video.frameInvalidWhileBusy hb)
  exact .ofKeeps hop hk (Video.held_resume s.cfg s.video)

end

section
variable {P : Slot → Nat → Prop} {B : Slot → Prop} {R : Nat → Prop} {c : Cfg} {v : Video} {slot : Slot}

theorem Video.Keeps.rdPkt {p : Nat} (hr : VideoRegion c .rdPkt v.pktCount P B R) (hp : P slot p) :
    Video.Keeps .rdPkt P B R v (rdPkt slot p c v) := by
  unfold Machine.rdPkt
  simp only
  split
  · exact .startRaise _ _ _ _ v .badOperand
  · exact .run hr (.inl rfl) (.start _ _ _ _ v (.packet slot p) hp 0)

theorem Video.Keeps.rdSeg (p : Nat) (hr : VideoRegion c .rdSeg v.pktCount P B R) (hp : P slot 0) :
    Video.Keeps .rdSeg P B R v (rdSeg slot p c v) := by
  unfold Machine.rdSeg
  simp only
  split
  · exact .startRaise _ _ _ _ v .badOperand
  · exact .run hr (.inr (.inl rfl)) (.start _ _ _ _ v (.packet slot 0) hp 0)

end

/-- Settles O30: in either turn the operation keeps what `Video.Keeps` says of its region, the entry for `RD_PKT` and the
slot's active entries for `RD_SEG`. -/
theorem packetAndSegmentReadFrame : Obligations.PacketAndSegmentReadFrame := by
  intro s t slot p
  simp only [Cfg.packetBytes_eq]
  refine ⟨fun h => ?_, fun h hn => ?_⟩
  · have hr := VideoRegion.entry s.cfg s.video.pktCount slot p
    have haccept := ReadFrame.ofExec (t := t) (i := .rdPkt slot p) rfl (.inl rfl) (Video.Keeps.rdPkt hr ⟨rfl, rfl⟩)
    have hframe : ReadFrame (InEntry s.cfg slot p) s t := by
      obtain he | ⟨hinv, hb, ho, hat, rfl⟩ := h
      · exact (haccept he).1
      · exact .ofResume hinv hb ho (.inl rfl) hr (by rw [hat]; exact ⟨rfl, rfl⟩)
    exact ⟨fun x hx => hframe.mem x fun ⟨hlow, hhigh⟩ => by omega, hframe.held, fun he => (haccept he).2, hframe.others⟩
  · have hr := VideoRegion.segment s.cfg (cnt := s.video.pktCount) hn
    have haccept := ReadFrame.ofExec (t := t) (i := .rdSeg slot p) rfl (.inr rfl) (Video.Keeps.rdSeg p hr ⟨rfl, rfl⟩)
    have hframe : ReadFrame (InSegment s.cfg slot (s.video.count slot)) s t := by
      obtain he | ⟨hinv, hb, ho, hat, rfl⟩ := h
      · exact (haccept he).1
      · have hlabel : s.video.vAt.Within .rdSeg (fun k q => k = slot ∧ q = 0) (fun k => k = slot) := by
          obtain hat | hat := hat <;> rw [hat]
          · exact ⟨rfl, rfl⟩
          · rfl
        exact .ofResume hinv hb ho (.inr rfl) hr hlabel
    exact ⟨fun x hx => hframe.mem x fun ⟨hlow, hhigh⟩ => by omega, hframe.held, fun he => (haccept he).2,
      hframe.others⟩

end Sys2Proof.Machine


/-! The frame of `SYNC` and `XFER`. -/

namespace Sys2Proof.Machine

/-- The addresses of the active entries of the four slots (R71). -/
def InFrame (c : Cfg) (cnt : Vector Nat 4) (x : Nat) : Prop :=
  ∃ k : Slot, fbAddr c k 0 0 ≤ x ∧ x < fbAddr c k 0 0 + 164 * cnt.get k

/-- What `SYNC` or `XFER` keeps while it stores packet 0 and the bulk read of each slot. -/
abbrev Video.KeepsFrame (op : VideoOp) (c : Cfg) (v0 v : Video) : Prop :=
  Video.Keeps op (fun _ p => p = 0) (fun _ => True) (InFrame c v0.pktCount) v0 v

section
variable {op : VideoOp} {c : Cfg} {v : Video}

theorem VideoRegion.inFrame (c : Cfg) (op : VideoOp) (hn : ∀ k, 0 < v.count k) :
    VideoRegion c op v.pktCount (fun _ p => p = 0) (fun _ => True) (InFrame c v.pktCount) :=
  .frame c op hn

/-- A label of `SYNC` or `XFER` is packet 0 of a slot, a bulk read, or in `SYNC` the backoff (R24, R190, R202). -/
theorem Video.Inv.within_frame (h : v.Inv c) (ho : v.vOp = some op) (hop : op = .sync ∨ op = .xfer) :
    v.vAt.Within op (fun _ p => p = 0) (fun _ => True) := by
  have hlegal := h.atLegal
  unfold VideoAtLegal at hlegal
  cases hat : v.vAt with
  | idle => trivial
  | packet s p =>
    rw [hat, ho] at hlegal
    obtain ⟨-, hread | ⟨hzero, -⟩⟩ := hlegal
    · rcases hop with rfl | rfl <;> cases hread
    · exact hzero
  | bulk s => trivial
  | backoff =>
    rw [hat, ho] at hlegal
    exact Option.some.inj hlegal

theorem Video.KeepsFrame.syncOp (hn : ∀ k, 0 < v.count k) : Video.KeepsFrame .sync c v (syncOp c v) := by
  have hr := VideoRegion.inFrame c .sync hn
  have hstart : Video.KeepsFrame .sync c v
      { v.accept .sync with resets := 0, invalid := 0, fsState := .unsynchronized, vAt := .idle } :=
    ⟨fun _ _ => rfl, fun _ => rfl, trivial, by simp, nofun, rfl, rfl, rfl, rfl, rfl, rfl, rfl, by simp⟩
  exact .run hr (.inr (.inr (.inl rfl))) (hstart.readSlot hr rfl (.inl rfl) 0)

theorem Video.KeepsFrame.xferOp (hn : ∀ k, 0 < v.count k) : Video.KeepsFrame .xfer c v (xferOp c v) := by
  have hr := VideoRegion.inFrame c .xfer hn
  by_cases hs : v.fsState = .synchronized
  · have hstart : Video.KeepsFrame .xfer c v { v.accept .xfer with seg := 0, vAt := .idle } :=
      (Video.Keeps.start _ _ _ _ v .idle trivial v.skips).frameRegs (.inr rfl) v.fsState v.invalid 0 v.vFrames
        (v.accept .xfer).frameValid
    have hfirst : Machine.xferOp c v = (Video.readSlot 0 { v.accept .xfer with seg := 0 }).run c := by
      rw [← Video.xferNext_slot (v := { v.accept .xfer with seg := 0 }) c (s := 0) rfl]
      exact if_neg (by simpa using hs)
    rw [hfirst]
    exact .run hr (.inr (.inr (.inr rfl))) (hstart.readSlot hr rfl (.inr rfl) 0)
  · rw [xferOp_notSynchronized hs]
    exact .startRaise _ _ _ _ v .notSynchronized

end

/-- The frame of `SYNC` and `XFER` from `s` to `t`. -/
structure AssemblyFrame (op : VideoOp) (s t : State) : Prop where
  mem : ∀ x, ¬ InFrame s.cfg s.video.pktCount x → t.video.fb.read x = s.video.fb.read x
  xferResets : op = .xfer → t.video.resets = s.video.resets ∧ t.video.vResets = s.video.vResets
  held : HeldWhileBusy s.video t.video
  others : t = { s with video := { t.video with
    pktCount := s.video.pktCount, maxResets := s.video.maxResets, tlm := s.video.tlm, epoch := s.video.epoch
    cmd := { s.video.cmd with cancel := t.video.cmd.cancel } } }

section
variable {op : VideoOp} {s t : State}

theorem AssemblyFrame.refl : AssemblyFrame op s s := ⟨fun _ _ => rfl, fun _ => ⟨rfl, rfl⟩, .same rfl rfl rfl, rfl⟩

/-- An operation that has kept what `Video.KeepsFrame` says, from `s` but for the count of free answers. -/
theorem AssemblyFrame.ofKeeps {n : Nat} {v : Video} (h : Video.KeepsFrame op s.cfg { s.video with tick := n } v)
    (hheld : HeldWhileBusy s.video v) : AssemblyFrame op s { s with video := v } where
  mem := h.mem
  xferResets := h.ofXfer
  held := hheld
  others := by
    have hcmd : (⟨s.video.cmd.valid, s.video.cmd.word, v.cmd.cancel⟩ : CmdPort) = v.cmd := by
      rw [← h.valid, ← h.word]
    rw [hcmd, ← h.pktCount, ← h.maxResets, ← h.tlm, ← h.epoch]

/-- The accepting turn: a busy port takes nothing, an idle one runs the operation and no free answer. -/
theorem AssemblyFrame.ofExec {i : Instr} {f : Cfg → Video → Video} (hi : exec i s = onVideo s f)
    (hk : Video.KeepsFrame op s.cfg s.video (f s.cfg s.video)) (he : exec i s = .next t) :
    AssemblyFrame op s t ∧ t.video.tick = s.video.tick := by
  have hheld := exec_resultsHeld he
  cases hb : s.video.vBusy with
  | true =>
    rw [hi, onVideo_busy f hb] at he
    cases he
    exact ⟨.refl, rfl⟩
  | false =>
    rw [hi, onVideo_idle f hb] at he
    cases he
    exact ⟨.ofKeeps (n := s.video.tick) hk hheld, hk.tick⟩

/-- A later turn. -/
theorem AssemblyFrame.ofResume (hn : ∀ k, 0 < s.video.count k) (h : s.Inv) (hb : s.video.vBusy = true)
    (ho : s.video.vOp = some op) (hop : op = .sync ∨ op = .xfer) : AssemblyFrame op s (s.resume .video) := by
  obtain ⟨n, hk⟩ := Video.Keeps.resume (VideoRegion.inFrame s.cfg op hn) (.inr (.inr hop)) hb ho
    (h.video.within_frame ho hop) (h.video.frameInvalidWhileBusy hb)
  exact .ofKeeps (n := n) hk (Video.held_resume s.cfg s.video)

/-- Either turn. -/
theorem AssemblyFrame.ofTurn {i : Instr} {f : Cfg → Video → Video} (hi : exec i s = onVideo s f)
    (hop : op = .sync ∨ op = .xfer) (hn : ∀ k, 0 < s.video.count k)
    (hk : Video.KeepsFrame op s.cfg s.video (f s.cfg s.video))
    (h : exec i s = .next t ∨
      (s.Inv ∧ s.video.vBusy = true ∧ s.video.vOp = some op ∧ t = s.resume .video)) :
    AssemblyFrame op s t ∧ (exec i s = .next t → t.video.tick = s.video.tick) := by
  refine ⟨?_, fun he => (AssemblyFrame.ofExec hi hk he).2⟩
  obtain he | ⟨hinv, hb, ho, rfl⟩ := h
  · exact (AssemblyFrame.ofExec hi hk he).1
  · exact .ofResume hn hinv hb ho hop

/-- An address that the statement puts outside the active entries of all four slots. -/
theorem not_inFrame {c : Cfg} {v : Video} {x : Nat}
    (h : ∀ k : Slot, x < fbAddr c k 0 0 ∨ fbAddr c k 0 0 + c.packetBytes * v.count k ≤ x) :
    ¬ InFrame c v.pktCount x := by
  rintro ⟨k, hlow, hhigh⟩
  have hk := h k
  rw [Cfg.packetBytes_eq, Video.count] at hk
  omega

end

/-- Settles O42: in either turn the operation keeps what `Video.Keeps` says of the region of the four slots' active
entries. -/
theorem syncAndXferFrame : Obligations.SyncAndXferFrame := by
  rintro i s t (rfl | rfl) hn h
  · obtain ⟨hframe, htick⟩ := AssemblyFrame.ofTurn (op := .sync) rfl (.inl rfl) hn (.syncOp hn) h
    exact ⟨fun x hx => hframe.mem x (not_inFrame hx), nofun, hframe.held, htick, hframe.others⟩
  · obtain ⟨hframe, htick⟩ := AssemblyFrame.ofTurn (op := .xfer) rfl (.inr rfl) hn (.xferOp hn) h
    exact ⟨fun x hx => hframe.mem x (not_inFrame hx), fun _ => hframe.xferResets rfl, hframe.held, htick,
      hframe.others⟩

end Sys2Proof.Machine


/-! `SYNC` and `XFER`: their outcomes segment by segment, whole runs of them over a script of answers, and what they leave
when they end; with the two configuration operations. -/

namespace Sys2Proof.Machine

/-! ## The operations without a transaction -/

/-- Settles O16: what acceptance and completion do not overwrite is what R186 lists. -/
theorem cfgSessionResult : Obligations.CfgSessionResult :=
  fun tlm _ hb => onVideo_idle (cfgSession tlm) hb

theorem setMaxResets_accepted {value : Word} (h : value.toNat ≤ 254) (c : Cfg) (v : Video) :
    setMaxResets value c v = ({ v.accept .setMaxResets with maxResets := value.toNat } : Video).complete .ok :=
  if_neg (by simpa [badMaxResets] using h)

theorem setMaxResets_refused {value : Word} (h : 254 < value.toNat) (c : Cfg) (v : Video) :
    setMaxResets value c v = (v.accept .setMaxResets).raise .badOperand :=
  if_pos (decide_eq_true h)

/-- Settles O17, by the operand check; accepting `SET_MAX_RESETS` leaves `frame_valid` (R31). -/
theorem setMaxResetsResult : Obligations.SetMaxResetsResult := by
  intro value s hb
  refine ⟨fun h => (onVideo_idle (setMaxResets value) hb).trans ?_,
    fun h => (onVideo_idle (setMaxResets value) hb).trans ?_⟩
  · rw [setMaxResets_accepted h]
    simp [Video.accept, Video.complete, VideoOp.clearsFrameValid]
  · rw [setMaxResets_refused h]
    simp [Video.accept, Video.raise, Video.complete, VideoOp.clearsFrameValid, faultFsState, faultFrames, faultResets]

/-! ## A fault inside `SYNC` or `XFER` (R325) -/

section
variable {v : Video} {f : Status}

theorem Video.raise_sync (ho : v.vOp = some .sync) (hf : f ≠ .syncFailure) :
    v.raise f = ({ v with fsState := .unsynchronized, vFrames := 0, vResets := v.resets } : Video).complete f := by
  simp [Video.raise, faultFsState, faultFrames, faultResets, ho, hf]

theorem Video.raise_syncFailure (ho : v.vOp = some .sync) :
    v.raise .syncFailure =
      ({ v with fsState := .failed, vFrames := 0, vResets := v.resets } : Video).complete .syncFailure := by
  simp [Video.raise, faultFsState, faultFrames, faultResets, ho]

theorem Video.raise_xfer (ho : v.vOp = some .xfer) (hf : f ≠ .notSynchronized) :
    v.raise f = ({ v with fsState := .unsynchronized, vFrames := 0 } : Video).complete f := by
  simp [Video.raise, faultFsState, faultFrames, faultResets, ho, hf]

theorem Video.raise_notSynchronized (ho : v.vOp = some .xfer) :
    v.raise .notSynchronized = ({ v with vFrames := 0 } : Video).complete .notSynchronized := by
  simp [Video.raise, faultFsState, faultFrames, faultResets, ho]

/-- Cancel high where another segment is due ends the operation (R210). -/
theorem Video.readSlot_cancelled (k : Slot) (h : v.cmd.cancel = true) : v.readSlot k = v.raise .cancelled :=
  if_pos h

end

/-! ## The start of `SYNC` and `XFER` -/

/-- `SYNC` accepted, at its first `step1` (R190). -/
def Video.syncBegun (v : Video) : Video := { v.accept .sync with resets := 0, invalid := 0, fsState := .unsynchronized }

/-- `XFER` accepted in `Synchronized`, at `reread` of slot 0 (R202). -/
def Video.xferBegun (v : Video) : Video := { v.accept .xfer with seg := 0 }

theorem syncOp_eq_run (c : Cfg) (v : Video) : syncOp c v = (v.syncBegun.readSlot 0).run c := rfl

theorem xferOp_eq_run {v : Video} (h : v.fsState = .synchronized) (c : Cfg) :
    xferOp c v = (v.xferBegun.readSlot 0).run c := by
  rw [← Video.xferNext_slot (v := v.xferBegun) c (s := 0) rfl]
  exact if_neg (by simpa using h)

/-- Settles O38: the state is checked before anything is run, and the fault leaves `fs_state` (R203). -/
theorem xferNeedsSynchronized : Obligations.XferNeedsSynchronized := by
  intro s hb hfs
  refine (onVideo_idle xferOp hb).trans ?_
  rw [xferOp_notSynchronized hfs, Video.raise_notSynchronized rfl]
  simp [Video.accept, Video.complete, VideoOp.clearsFrameValid]

/-- Settles O39: `step1` and `reread` of slot 0 sample the cancel input first, and a completed operation runs over no
answer. -/
theorem cancelledBeforeFirstRead : Obligations.CancelledBeforeFirstRead := by
  intro s hb hcancel
  refine ⟨(onVideo_idle syncOp hb).trans ?_, fun hfs => (onVideo_idle xferOp hb).trans ?_⟩
  · rw [syncOp_eq_run, Video.readSlot_cancelled (v := s.video.syncBegun) 0 hcancel, Video.run_idle _ rfl,
      Video.raise_sync rfl (by decide)]
    simp [Video.syncBegun, Video.accept, Video.complete, VideoOp.clearsFrameValid]
  · rw [xferOp_eq_run hfs, Video.readSlot_cancelled (v := s.video.xferBegun) 0 hcancel, Video.run_idle _ rfl,
      Video.raise_xfer rfl (by decide)]
    simp [Video.xferBegun, Video.accept, Video.complete, VideoOp.clearsFrameValid]

/-! ## What a completed `SYNC` or `XFER` leaves -/

/-- A later turn of the video engine, in a state of the invariant. -/
theorem State.Inv.serve_video_busy {s t : State} (h : s.Inv) (hb : s.video.vBusy = true)
    (hs : Machine.serve .video s = .next t) : t = { s with video := s.video.resume s.cfg } := by
  rw [serve_video_of_eq (h.rst_of_busy (p := .video) hb) hb rfl] at hs
  exact (Host.Outcome.next.inj hs).symm

/-- Settles O40: in either turn `SYNC` holds to `Video.SyncHolds`. -/
theorem syncCompletionTable : Obligations.SyncCompletionTable := by
  intro s t h hidle
  have hholds : t.video.SyncHolds t.cfg s.video.maxResets := by
    obtain ⟨hb, he⟩ | ⟨hinv, hb, ho, hs⟩ := h
    · cases he.symm.trans (onVideo_idle syncOp hb)
      exact .syncOp s.cfg s.video
    · cases hinv.serve_video_busy hb hs
      exact .resume hinv.video hb ho
  obtain ⟨-, htable⟩ := hholds
  rwa [if_neg (by simp [hidle])] at htable

/-- Settles O41: in either turn `XFER` holds to `Video.XferHolds`. -/
theorem xferCompletionTable : Obligations.XferCompletionTable := by
  intro s t h hidle
  have hholds : t.video.XferHolds s.video.resets s.video.vResets := by
    obtain ⟨hb, hfs, he⟩ | ⟨hinv, hb, ho, hs⟩ := h
    · cases he.symm.trans (onVideo_idle xferOp hb)
      exact .xferOp hfs s.cfg
    · cases hinv.serve_video_busy hb hs
      exact .resume hinv.video hb ho
  obtain ⟨hresets, hvResets, htable⟩ := hholds
  rw [if_neg (by simp [hidle])] at htable
  obtain ⟨hdone, htable⟩ := htable
  exact ⟨hdone, hresets, hvResets, htable⟩

/-! ## `SYNC` and `XFER` over a script -/

/-- `SYNC` accepted with cancel low, waiting for its first packet. -/
def Video.syncStart (v : Video) : Video := ({ v.syncBegun with seg := 0 } : Video).startPacket 0 0

theorem exec_sync_eq {s : State} (hb : s.video.vBusy = false) (hcancel : s.video.cmd.cancel = false) :
    exec .sync s = .next { s with video := Video.runOver s.cfg s.video.sensor s.video.syncStart } := by
  refine (onVideo_idle syncOp hb).trans ?_
  rw [syncOp_eq_run, Video.readSlot_go 0 s.video.syncBegun hcancel]
  rfl

theorem Video.SyncAt.syncStart {n : Nat} {v : Video} (hn : ∀ k, v.count k = n) : v.syncStart.SyncAt n 0 :=
  ⟨rfl, rfl, rfl, rfl, rfl, hn⟩

/-- `SYNC` on an idle port over tolerated misses: what is left is a run from `step1` of slot 0, the misalignments
counted (R190, R193, R195). -/
theorem exec_sync_attempts {s : State} {ts : List Attempt} {n : Nat} (as : List VideoAnswer)
    (hb : s.video.vBusy = false) (hcancel : s.video.cmd.cancel = false) (hn : ∀ k, s.video.count k = n)
    (ha : s.cfg.anchor < n) (hm : ∀ t ∈ ts, t.Missed s.cfg n) (hmax : misalignments ts ≤ s.video.maxResets)
    (hs : s.video.sensor = ts.flatMap (Attempt.answers n) ++ as) :
    ∃ v : Video, exec .sync s = .next { s with video := Video.runOver s.cfg as v } ∧ v.SyncAt n 0 ∧
      v = { s.video.syncStart with
        cmd := { s.video.cmd with cancel := false }
        fb := attemptStored s.cfg n ts s.video.fb
        fsState := v.fsState
        resets := misalignments ts
        bus := s.video.bus ++ attemptBus s.cfg n ts } := by
  have hzero : s.video.syncStart.resets + misalignments ts = misalignments ts := Nat.zero_add _
  obtain ⟨v, hrun, hat, hv⟩ := Video.SyncAt.attempts ha as ts s.video.syncStart (.syncStart hn) hcancel hm
    (hzero.trans_le hmax)
  rw [hzero] at hv
  exact ⟨v, by rw [exec_sync_eq hb hcancel, hs, hrun], hat, hv⟩

/-- Settles O31: the misses lead back to `step1`, and from there the four segments complete `SYNC`. -/
theorem syncAcquiresFrame : Obligations.SyncAcquiresFrame := by
  intro s missed frame rest n hb hcancel hn ha hm hmax hgood hs
  obtain ⟨v, he, hat, hv⟩ := exec_sync_attempts (frameAnswers n frame ++ rest) hb hcancel hn ha hm hmax hs
  have hresets : v.resets = misalignments missed := by rw [hv]
  have hfb : v.fb = attemptStored s.cfg n missed s.video.fb := by rw [hv]
  have hbus : v.bus = s.video.bus ++ attemptBus s.cfg n missed := by rw [hv]
  refine ⟨_, he, ?_⟩
  rw [hat.goodFrame rest ha hgood, hresets, hfb, hbus, List.append_assoc]
  exact ⟨rfl, rfl, rfl, rfl, rfl, rfl, rfl, rfl, rfl, rfl, rfl, rfl⟩

/-- Settles O32: the misses lead back to `step1` with `resets` at `max_resets`, and the next misalignment exceeds it. -/
theorem syncFailsPastMaxResets : Obligations.SyncFailsPastMaxResets := by
  intro s missed g b rest n hb hcancel hn ha hm hmax hg hl hs
  obtain ⟨v, he, hat, hv⟩ := exec_sync_attempts (g.answers n ++ b :: rest) hb hcancel hn ha hm hmax.le hs
  have hmaxResets : v.maxResets = s.video.maxResets := by rw [hv]; rfl
  have hresets : v.resets = v.maxResets := by rw [hmaxResets, ← hmax, hv]
  have hbus : v.bus = s.video.bus ++ attemptBus s.cfg n missed := by rw [hv]
  have hframe : v.frameValid = false := by rw [hv]; exact Bool.and_false _
  refine ⟨_, he, ?_⟩
  rw [hat.fails rest hg ha hl hresets, hmaxResets, hbus, List.append_assoc]
  exact ⟨rfl, rfl, rfl, rfl, hframe, rfl, rfl, rfl, rfl⟩

theorem misalignments_eq_zero {ts : List Attempt} (h : ∀ t ∈ ts, t.backoff = none) : misalignments ts = 0 :=
  List.countP_eq_zero.2 fun t ht => by simp [h t ht]

/-- Settles O33: all segments but the last lead back to `step1`, and the last one leads there in `SeekingFirstSegment`. -/
theorem syncSeeksWithoutBound : Obligations.SyncSeeksWithoutBound := by
  intro s seeks n hb hcancel hn ha hseek hne hs
  obtain ⟨init, last, rfl⟩ := List.eq_nil_or_concat' seeks |>.resolve_left hne
  have hinit : ∀ t ∈ init, t.Missed s.cfg n ∧ t.backoff = none := fun t ht => hseek t (List.mem_append_left _ ht)
  obtain ⟨hmissed, hnone⟩ := hseek last (by simp)
  have hzero : misalignments init = 0 := misalignments_eq_zero fun t ht => (hinit t ht).2
  obtain ⟨v, he, hat, hv⟩ := exec_sync_attempts (ts := init) (last.answers n ++ []) hb hcancel hn ha
    (fun t ht => (hinit t ht).1) (hzero ▸ Nat.zero_le _) (by simpa using hs)
  obtain ⟨v', hrun, hat', hv'⟩ := hat.missed [] hmissed ha (by simp [hnone])
  rw [hrun, Video.runOver_nil] at he
  have hresets : v'.resets = 0 := by rw [hv', hv, hzero, hnone]; rfl
  have hfs : v'.fsState = .seekingFirstSegment := by rw [hv', hnone]; rfl
  have hinvalid : v'.invalid = 0 := by rw [hv', hv]; rfl
  have hdone : v'.vDone = false := by rw [hv', hv]; rfl
  exact ⟨_, he, hat'.busy, hdone, exec_resultsHeld he hat'.busy, hfs, hresets, hinvalid, hat'.at_⟩

/-- `XFER` accepted in `Synchronized` with cancel low, waiting for its first packet. -/
def Video.xferStart (v : Video) : Video := ({ v.xferBegun with seg := 0 } : Video).startPacket 0 0

theorem exec_xfer_eq {s : State} (hb : s.video.vBusy = false) (hfs : s.video.fsState = .synchronized)
    (hcancel : s.video.cmd.cancel = false) :
    exec .xfer s = .next { s with video := Video.runOver s.cfg s.video.sensor s.video.xferStart } := by
  refine (onVideo_idle xferOp hb).trans ?_
  rw [xferOp_eq_run hfs, Video.readSlot_go 0 s.video.xferBegun hcancel]
  rfl

theorem Video.XferAt.xferStart {n : Nat} {v : Video} (hn : ∀ k, v.count k = n) : v.xferStart.XferAt n 0 :=
  ⟨rfl, rfl, rfl, rfl, rfl, hn⟩

/-- Settles O37: from `reread` of slot 0 the four segments complete `XFER`. -/
theorem xferTransfersFrame : Obligations.XferTransfersFrame := by
  intro s frame rest n hb hfs hcancel hn ha hgood hs
  rw [exec_xfer_eq hb hfs hcancel, hs, (Video.XferAt.xferStart hn).goodFrame rest ha hgood]
  rfl

/-! ## The outcomes of the anchor check -/

/-- A slot before the last has a next one. -/
theorem succ_lt_of_ne_last : ∀ {k : Slot}, k ≠ 3 → k.val + 1 < 4 := by decide

section
variable {c : Cfg} {k : Slot} {id : Word}

theorem anchorOutcome_stale (hl : lineOf id = c.anchor) (ht : tttOf id = 0) : anchorOutcome c k id = .stale := by
  simp [anchorOutcome, hl, ht]

theorem anchorOutcome_wrongSegment (hl : lineOf id = c.anchor) (ht : tttOf id ≠ k.val + 1) (h0 : tttOf id ≠ 0) :
    anchorOutcome c k id = .wrongSegment := by
  simp [anchorOutcome, hl, ht, h0]

end

section
variable {c : Cfg} {k : Slot} {v : Video}

theorem Video.staleReread_within (k : Slot) (h : v.invalid + 1 ≤ c.invalidLimit) :
    v.staleReread c k = ({ v with invalid := v.invalid + 1 } : Video).readSlot k :=
  if_neg (Nat.not_lt.2 h)

theorem Video.staleReread_past (k : Slot) (h : c.invalidLimit < v.invalid + 1) :
    v.staleReread c k = ({ v with invalid := v.invalid + 1 } : Video).raise .frameInvalid :=
  if_pos h

theorem Video.syncAfterSegment_misaligned (h : v.checkAnchor c k = .misaligned) :
    v.syncAfterSegment c k = { v with vAt := .backoff } := by
  rw [Video.syncAfterSegment, h]

theorem Video.syncAfterSegment_matchedLast (h : v.checkAnchor c 3 = .matched) :
    v.syncAfterSegment c 3 = ({ v with seg := 4 } : Video).syncSuccess := by
  rw [Video.syncAfterSegment, h]
  exact Video.syncNext_end c (v := { v with seg := 4 }) rfl

theorem Video.syncAfterSegment_matched {k' : Slot} (h : v.checkAnchor c k = .matched) (hk : k'.val = k.val + 1) :
    v.syncAfterSegment c k = ({ v with seg := k'.val } : Video).readSlot k' := by
  rw [Video.syncAfterSegment, h, hk]
  exact Video.syncNext_slot c (v := { v with seg := k.val + 1 }) hk.symm

theorem Video.syncAfterSegment_stale (h : v.checkAnchor c k = .stale) (hk : k ≠ 0) :
    v.syncAfterSegment c k = v.staleReread c k := by
  rw [Video.syncAfterSegment, h]
  exact if_neg hk

theorem Video.syncAfterSegment_seek (h : v.checkAnchor c k = .wrongSegment ∨ (v.checkAnchor c k = .stale ∧ k = 0)) :
    v.syncAfterSegment c k = v.seekFirst := by
  rw [Video.syncAfterSegment]
  obtain h | ⟨h, hk⟩ := h <;> rw [h]
  exact if_pos hk

theorem Video.xferAfterSegment_invalid
    (h : v.checkAnchor c k = .misaligned ∨ v.checkAnchor c k = .wrongSegment) :
    v.xferAfterSegment c k = v.raise .frameInvalid := by
  rw [Video.xferAfterSegment]
  obtain h | h := h <;> rw [h]

theorem Video.xferAfterSegment_matchedLast (h : v.checkAnchor c 3 = .matched) :
    v.xferAfterSegment c 3 = ({ v with seg := 4 } : Video).xferSuccess := by
  rw [Video.xferAfterSegment, h]
  exact Video.xferNext_end c (v := { v with seg := 4 }) rfl

theorem Video.xferAfterSegment_matched {k' : Slot} (h : v.checkAnchor c k = .matched) (hk : k'.val = k.val + 1) :
    v.xferAfterSegment c k = ({ v with seg := k'.val } : Video).readSlot k' := by
  rw [Video.xferAfterSegment, h, hk]
  exact Video.xferNext_slot c (v := { v with seg := k.val + 1 }) hk.symm

theorem Video.xferAfterSegment_stale (h : v.checkAnchor c k = .stale) :
    v.xferAfterSegment c k = v.staleReread c k := by
  rw [Video.xferAfterSegment, h]

end

/-! ## What the anchor check and its outcomes leave alone -/

/-- From `v` to `v'` nothing is stored, nothing read, no misalignment counted, and `XFER` leaves `v_resets`. -/
def Video.ReadsKept (v v' : Video) : Prop :=
  v'.fb = v.fb ∧ v'.bus = v.bus ∧ v'.resets = v.resets ∧ (v.vOp = some .xfer → v'.vResets = v.vResets)

theorem Video.readsKept_raise (f : Status) (v : Video) : v.ReadsKept (v.raise f) :=
  ⟨rfl, rfl, rfl, fun ho => by simp [faultResets, ho]⟩

theorem Video.readsKept_readSlot (k : Slot) (v : Video) : v.ReadsKept (v.readSlot k) := by
  rcases v.readSlot_cases k with h | h <;> rw [h]
  · exact v.readsKept_raise .cancelled
  · exact ⟨rfl, rfl, rfl, fun _ => rfl⟩

theorem Video.readsKept_staleReread (c : Cfg) (k : Slot) (v : Video) : v.ReadsKept (v.staleReread c k) := by
  rcases Nat.lt_or_ge c.invalidLimit (v.invalid + 1) with h | h
  · rw [Video.staleReread_past k h]
    exact Video.readsKept_raise .frameInvalid { v with invalid := v.invalid + 1 }
  · rw [Video.staleReread_within k h]
    exact Video.readsKept_readSlot k { v with invalid := v.invalid + 1 }

theorem Video.readsKept_syncAfterSegment (c : Cfg) (k : Slot) {v : Video} (ho : v.vOp = some .sync) :
    v.ReadsKept (v.syncAfterSegment c k) := by
  have hseek : v.ReadsKept v.seekFirst := Video.readsKept_readSlot 0 { v with fsState := .seekingFirstSegment }
  unfold Video.syncAfterSegment
  split
  · unfold Video.syncNext
    split
    · exact Video.readsKept_readSlot _ { v with seg := k.val + 1 }
    · exact ⟨rfl, rfl, rfl, fun hx => absurd (ho.symm.trans hx) (by decide)⟩
  · exact ⟨rfl, rfl, rfl, fun _ => rfl⟩
  · split
    · exact hseek
    · exact v.readsKept_staleReread c k
  · exact hseek

theorem Video.readsKept_xferAfterSegment (c : Cfg) (k : Slot) (v : Video) : v.ReadsKept (v.xferAfterSegment c k) := by
  unfold Video.xferAfterSegment
  split
  · unfold Video.xferNext
    split
    · exact Video.readsKept_readSlot _ { v with seg := k.val + 1 }
    · exact ⟨rfl, rfl, rfl, fun _ => rfl⟩
  · exact v.readsKept_staleReread c k
  · exact v.readsKept_raise .frameInvalid
  · exact v.readsKept_raise .frameInvalid

/-! ## One segment in `SYNC` and in `XFER` -/

/-- A later turn over one segment: it is read, and then checked as the operation does (R171, R191). -/
theorem Video.resume_segment {c : Cfg} {v : Video} {k : Slot} {g : Segment} {n : Nat} (hb : v.vBusy = true)
    (hop : ReadsSegments v.vOp) (hat : v.vAt = .packet k 0) (hskips : v.skips = 0) (hn : v.count k = n)
    (hg : g.Readable c n) (hs : v.sensor = g.answers n) :
    v.resume c = ((v.afterRead c k n g).afterSegment c k).withSensor [] := by
  have hne : v.sensor ≠ [] := by simp [hs, Segment.answers]
  have hrun := Video.runOver_segment [] hat hb hop hskips hn hg
  rw [List.append_nil, ← hs] at hrun
  exact (Video.resume_answers c hne v).trans hrun

/-- `SYNC`, another segment due after one with the anchor's line, cancel high (R206, R210). -/
theorem Video.syncAfterSegment_cancelled {c : Cfg} {k : Slot} {v : Video} {id : Word} (ho : v.vOp = some .sync)
    (hcheck : v.checkAnchor c k = anchorOutcome c k id) (hl : lineOf id = c.anchor) (hcancel : v.cmd.cancel = true)
    (hlast : tttOf id = k.val + 1 → k ≠ 3)
    (hlimit : tttOf id = 0 → k ≠ 0 → v.invalid + 1 ≤ c.invalidLimit) :
    v.syncAfterSegment c k =
      ({ v with invalid := if tttOf id = 0 ∧ k ≠ 0 then v.invalid + 1 else v.invalid } : Video).raise .cancelled := by
  have hseek : v.seekFirst = v.raise .cancelled := by
    rw [Video.raise_sync ho (by decide)]
    exact (Video.readSlot_cancelled (v := { v with fsState := .seekingFirstSegment }) 0 hcancel).trans
      (Video.raise_sync ho (by decide))
  by_cases h0 : tttOf id = 0
  · rw [anchorOutcome_stale hl h0] at hcheck
    by_cases hk : k = 0
    · rw [Video.syncAfterSegment_seek (.inr ⟨hcheck, hk⟩), hseek, if_neg fun h => h.2 hk]
    · rw [Video.syncAfterSegment_stale hcheck hk, Video.staleReread_within k (hlimit h0 hk), if_pos ⟨h0, hk⟩]
      exact Video.readSlot_cancelled k hcancel
  · rw [if_neg fun h => h0 h.1]
    by_cases hm : tttOf id = k.val + 1
    · rw [anchorOutcome_matched hl hm] at hcheck
      rw [Video.syncAfterSegment_matched (k' := ⟨k.val + 1, succ_lt_of_ne_last (hlast hm)⟩) hcheck rfl]
      exact Video.readSlot_cancelled _ hcancel
    · rw [anchorOutcome_wrongSegment hl hm h0] at hcheck
      rw [Video.syncAfterSegment_seek (.inl hcheck), hseek]

/-- `XFER`, another segment due, cancel high (R206, R210). -/
theorem Video.xferAfterSegment_cancelled {c : Cfg} {k : Slot} {v : Video} {id : Word}
    (hcheck : v.checkAnchor c k = anchorOutcome c k id) (hl : lineOf id = c.anchor) (hcancel : v.cmd.cancel = true)
    (hdue : (tttOf id = k.val + 1 ∧ k ≠ 3) ∨ (tttOf id = 0 ∧ v.invalid + 1 ≤ c.invalidLimit)) :
    v.xferAfterSegment c k =
      ({ v with invalid := if tttOf id = 0 then v.invalid + 1 else v.invalid } : Video).raise .cancelled := by
  obtain ⟨hm, hlast⟩ | ⟨h0, hlimit⟩ := hdue
  · rw [anchorOutcome_matched hl hm] at hcheck
    rw [Video.xferAfterSegment_matched (k' := ⟨k.val + 1, succ_lt_of_ne_last hlast⟩) hcheck rfl, if_neg (by omega)]
    exact Video.readSlot_cancelled _ hcancel
  · rw [anchorOutcome_stale hl h0] at hcheck
    rw [Video.xferAfterSegment_stale hcheck, Video.staleReread_within k hlimit, if_pos h0]
    exact Video.readSlot_cancelled k hcancel

/-- Settles O34: the turn reads the segment, and each outcome of the anchor check has its line of R190. -/
theorem syncSegmentOutcomes : Obligations.SyncSegmentOutcomes := by
  intro s k g n hb ho hat hskips hn ha hg hs hr
  let v := s.video.afterRead s.cfg k n g
  have hov : v.vOp = some .sync := ho
  have hcheck : v.checkAnchor s.cfg k = anchorOutcome s.cfg k (g.anchorId s.cfg) := Video.checkAnchor_afterRead hg ha
  have hturn : s.video.resume s.cfg = (v.syncAfterSegment s.cfg k).withSensor [] :=
    (Video.resume_segment hb (.inr (.inl ho)) hat hskips hn hg hs).trans (by rw [Video.afterSegment_sync _ _ hov])
  have hheld : HeldWhileBusy s.video ((v.syncAfterSegment s.cfg k).withSensor []) := hturn ▸ s.video.held_resume s.cfg
  obtain ⟨hfb, hbus, hresets, -⟩ := Video.readsKept_syncAfterSegment s.cfg k hov
  refine ⟨_, serve_video_of_eq hr hb hturn, hfb, hbus, hresets, hheld, fun hl => ?_, fun hl ht hk => ?_,
    fun hl ht k' hk hcancel => ?_, fun hl ht hk hlimit hcancel => ?_, fun hl ht hk hlimit => ?_,
    fun hl ht hk hcancel => ?_, fun hl hcancel hlast hlimit => ?_⟩
  · rw [Video.syncAfterSegment_misaligned (hcheck.trans (anchorOutcome_misaligned hl))]
    exact ⟨hb, rfl, rfl, rfl⟩
  · subst hk
    rw [Video.syncAfterSegment_matchedLast (hcheck.trans (anchorOutcome_matched hl ht))]
    exact ⟨rfl, rfl, rfl, rfl, rfl, rfl, rfl⟩
  · rw [Video.syncAfterSegment_matched (hcheck.trans (anchorOutcome_matched hl ht)) hk, Video.readSlot_go k' _ hcancel]
    exact ⟨hb, rfl, rfl, rfl⟩
  · rw [Video.syncAfterSegment_stale (hcheck.trans (anchorOutcome_stale hl ht)) hk,
      Video.staleReread_within (v := v) k hlimit, Video.readSlot_go k _ hcancel]
    exact ⟨hb, rfl, rfl, rfl⟩
  · rw [Video.syncAfterSegment_stale (hcheck.trans (anchorOutcome_stale hl ht)) hk,
      Video.staleReread_past (v := v) k hlimit, Video.raise_sync (v := { v with invalid := _ }) ho (by decide)]
    exact ⟨rfl, rfl, rfl, rfl, rfl, rfl⟩
  · have hseek : v.checkAnchor s.cfg k = .wrongSegment ∨ (v.checkAnchor s.cfg k = .stale ∧ k = 0) := by
      rw [hcheck]
      by_cases h0 : tttOf (g.anchorId s.cfg) = 0
      · exact .inr ⟨anchorOutcome_stale hl h0, hk.resolve_left (not_not.2 h0)⟩
      · exact .inl (anchorOutcome_wrongSegment hl ht h0)
    rw [Video.syncAfterSegment_seek hseek, Video.seekFirst, Video.readSlot_go 0 _ hcancel]
    exact ⟨hb, rfl, rfl, rfl⟩
  · rw [Video.syncAfterSegment_cancelled hov hcheck hl hcancel hlast hlimit,
      Video.raise_sync (v := { v with invalid := _ }) ho (by decide)]
    exact ⟨rfl, rfl, rfl, rfl, rfl, rfl, rfl, rfl⟩

/-- Settles O36: the turn reads the segment, and each outcome of the anchor check has its line of R202. -/
theorem xferSegmentOutcomes : Obligations.XferSegmentOutcomes := by
  intro s k g n hb ho hat hskips hn ha hg hs hr
  let v := s.video.afterRead s.cfg k n g
  have hov : v.vOp = some .xfer := ho
  have hcheck : v.checkAnchor s.cfg k = anchorOutcome s.cfg k (g.anchorId s.cfg) := Video.checkAnchor_afterRead hg ha
  have hturn : s.video.resume s.cfg = (v.xferAfterSegment s.cfg k).withSensor [] :=
    (Video.resume_segment hb (.inr (.inr ho)) hat hskips hn hg hs).trans (by rw [Video.afterSegment_xfer _ _ hov])
  have hheld : HeldWhileBusy s.video ((v.xferAfterSegment s.cfg k).withSensor []) := hturn ▸ s.video.held_resume s.cfg
  obtain ⟨hfb, hbus, hresets, hvResets⟩ := Video.readsKept_xferAfterSegment s.cfg k v
  refine ⟨_, serve_video_of_eq hr hb hturn, hfb, hbus, hresets, hvResets hov, hheld, fun hbad => ?_,
    fun hl ht hk => ?_, fun hl ht k' hk hcancel => ?_, fun hl ht hlimit hcancel => ?_, fun hl ht hlimit => ?_,
    fun hl hcancel hdue => ?_⟩
  · have hinvalid : v.checkAnchor s.cfg k = .misaligned ∨ v.checkAnchor s.cfg k = .wrongSegment := by
      rw [hcheck]
      by_cases hl : lineOf (g.anchorId s.cfg) = s.cfg.anchor
      · obtain ⟨ht, h0⟩ := hbad.resolve_left (not_not.2 hl)
        exact .inr (anchorOutcome_wrongSegment hl ht h0)
      · exact .inl (anchorOutcome_misaligned hl)
    rw [Video.xferAfterSegment_invalid hinvalid, Video.raise_xfer hov (by decide)]
    exact ⟨rfl, rfl, rfl, rfl, rfl⟩
  · subst hk
    rw [Video.xferAfterSegment_matchedLast (hcheck.trans (anchorOutcome_matched hl ht))]
    exact ⟨rfl, rfl, rfl, rfl, rfl, rfl⟩
  · rw [Video.xferAfterSegment_matched (hcheck.trans (anchorOutcome_matched hl ht)) hk, Video.readSlot_go k' _ hcancel]
    exact ⟨hb, rfl, rfl, rfl⟩
  · rw [Video.xferAfterSegment_stale (hcheck.trans (anchorOutcome_stale hl ht)),
      Video.staleReread_within (v := v) k hlimit, Video.readSlot_go k _ hcancel]
    exact ⟨hb, rfl, rfl, rfl⟩
  · rw [Video.xferAfterSegment_stale (hcheck.trans (anchorOutcome_stale hl ht)),
      Video.staleReread_past (v := v) k hlimit, Video.raise_xfer (v := { v with invalid := _ }) ho (by decide)]
    exact ⟨rfl, rfl, rfl, rfl, rfl⟩
  · rw [Video.xferAfterSegment_cancelled hcheck hl hcancel hdue,
      Video.raise_xfer (v := { v with invalid := _ }) ho (by decide)]
    exact ⟨rfl, rfl, rfl, rfl, rfl, rfl, rfl⟩

/-! ## The end of a backoff -/

/-- The video side once a backoff of `SYNC` has ended and its misalignment has been counted (R193). -/
def Video.backoffCounted (c : Cfg) (b : VideoAnswer) (v : Video) : Video :=
  { v.observe (.backoff c.backoffMs) b.cancel with resets := v.resets + 1, fsState := .unsynchronized }

/-- A later turn over the end of a backoff: past `max_resets` `SYNC` fails, else slot 0 is due (R190, R193, R194). -/
theorem Video.resume_backoff {c : Cfg} {v : Video} {b : VideoAnswer} (hb : v.vBusy = true) (hat : v.vAt = .backoff)
    (hs : v.sensor = [b]) :
    v.resume c = (if v.maxResets < v.resets + 1 then (v.backoffCounted c b).raise .syncFailure
      else (v.backoffCounted c b).readSlot 0).withSensor [] := by
  have hrun : Video.runOver c v.sensor v = (v.answer c b).withSensor [] := by
    rw [hs, Video.runOver_busy c b [] v hb]
    rfl
  have hanswer : v.answer c b = v.backoffPass c b := by rw [Video.answer, hat]
  refine (Video.resume_answers c (by simp [hs]) v).trans (hrun.trans ?_)
  rw [hanswer, Video.backoffPass, Video.syncAfterBackoff_eq]
  rfl

/-- Settles O35: the misalignment is counted, and then the limit and the cancel input decide. -/
theorem syncBackoffOutcomes : Obligations.SyncBackoffOutcomes := by
  intro s b hr hb ho hat hs
  have hov : (s.video.backoffCounted s.cfg b).vOp = some .sync := ho
  have hturn := Video.resume_backoff (c := s.cfg) hb hat hs
  have hheld := s.video.held_resume s.cfg
  rcases Nat.lt_or_ge s.video.maxResets (s.video.resets + 1) with hmax | hmax
  · rw [if_pos hmax, Video.raise_syncFailure hov] at hturn
    exact ⟨_, serve_video_of_eq hr hb hturn, rfl, rfl, rfl, rfl, rfl,
      fun _ => ⟨rfl, rfl, rfl, rfl, rfl, rfl⟩, fun h => absurd hmax h.not_gt, fun h => absurd hmax h.not_gt⟩
  rw [if_neg hmax.not_gt] at hturn
  cases hcancel : b.cancel with
  | true =>
    rw [Video.readSlot_cancelled 0 (show _ = true from hcancel), Video.raise_sync hov (by decide)] at hturn
    exact ⟨_, serve_video_of_eq hr hb hturn, rfl, rfl, rfl, rfl, rfl, fun h => absurd h hmax.not_gt,
      fun _ _ => ⟨rfl, rfl, rfl, rfl, rfl, rfl⟩, nofun⟩
  | false =>
    rw [Video.readSlot_go 0 _ (show _ = false from hcancel)] at hturn
    rw [hturn] at hheld
    exact ⟨_, serve_video_of_eq hr hb hturn, rfl, rfl, rfl, rfl, rfl, fun h => absurd h hmax.not_gt, nofun,
      fun _ _ => ⟨hb, rfl, rfl, rfl, hheld hb⟩⟩

end Sys2Proof.Machine


/-! The telemetry decoder: its fields as numbers, the bytes each field is made from, and `TLM_DEC`, which stores the
decoded row in `T`. -/

namespace Sys2Proof

/-- Row `t`, except that the field made from byte range `k` of the layout (in R222's order) is `u`'s; range 2 is the status
dword, from which five fields are made. -/
def TelemetryRow.withRange (t u : TelemetryRow) (k : Nat) : TelemetryRow where
  revision := if k = 0 then u.revision else t.revision
  msecSinceBoot := if k = 1 then u.msecSinceBoot else t.msecSinceBoot
  ffcDesired := if k = 2 then u.ffcDesired else t.ffcDesired
  ffcState := if k = 2 then u.ffcState else t.ffcState
  agcState := if k = 2 then u.agcState else t.agcState
  shutterLockout := if k = 2 then u.shutterLockout else t.shutterLockout
  overtempImminent := if k = 2 then u.overtempImminent else t.overtempImminent
  swRevision := if k = 3 then u.swRevision else t.swRevision
  frameCounter := if k = 4 then u.frameCounter else t.frameCounter
  frameMean := if k = 5 then u.frameMean else t.frameMean
  fpaTempRaw := if k = 6 then u.fpaTempRaw else t.fpaTempRaw
  fpaTempK100 := if k = 7 then u.fpaTempK100 else t.fpaTempK100
  fpaTempLastFfc := if k = 8 then u.fpaTempLastFfc else t.fpaTempLastFfc
  msecLastFfc := if k = 9 then u.msecLastFfc else t.msecLastFfc
  agcRoiTop := if k = 10 then u.agcRoiTop else t.agcRoiTop
  agcRoiLeft := if k = 11 then u.agcRoiLeft else t.agcRoiLeft
  agcRoiBottom := if k = 12 then u.agcRoiBottom else t.agcRoiBottom
  agcRoiRight := if k = 13 then u.agcRoiRight else t.agcRoiRight
  agcClipHigh := if k = 14 then u.agcClipHigh else t.agcClipHigh
  agcClipLow := if k = 15 then u.agcClipLow else t.agcClipLow
  videoFormat := if k = 16 then u.videoFormat else t.videoFormat

end Sys2Proof

namespace Sys2Proof.Machine

/-! ## Fields as numbers (R223 to R226) -/

theorem tlmDword_toNat_bytes (c : Cfg) (f : Nat → Byte) (o : Nat) : (tlmDword c f o).toNat =
    if c.tlmDwordMswFirst then
      65536 * (256 * (f o).toNat + (f (o + 1)).toNat) + (256 * (f (o + 2)).toNat + (f (o + 2 + 1)).toNat)
    else 65536 * (256 * (f (o + 2)).toNat + (f (o + 2 + 1)).toNat) + (256 * (f o).toNat + (f (o + 1)).toNat) := by
  rw [tlmDword_toNat, tlmWord_toNat, tlmWord_toNat]

theorem getLsbD_eq_testBit {x : DWord} {n : Nat} (h : x.toNat = n) (i : Nat) : x.getLsbD i = n.testBit i := by
  rw [← h, BitVec.testBit_toNat]

theorem extractTwo_toNat {x : DWord} {n : Nat} (h : x.toNat = n) (i : Nat) :
    (x.extractLsb' i 2).toNat = n / 2 ^ i % 4 := by
  rw [BitVec.extractLsb'_toNat, h, Nat.shiftRight_eq_div_pow]

/-- Settles O19: a word field is a word of the payload, a dword field a dword, and a status field a part of the status
dword. -/
theorem telemetryFieldValues : Obligations.TelemetryFieldValues := by
  intro c payload
  have word := tlmWord_toNat payload
  have dword := tlmDword_toNat_bytes c payload
  have status := dword c.tlmLayout.status
  refine ⟨word _, word _, word _, word _, word _, word _, word _, word _, word _, word _, word _,
    dword _, dword _, dword _, dword _, ?swRevision,
    getLsbD_eq_testBit status _, extractTwo_toNat status _, getLsbD_eq_testBit status _, getLsbD_eq_testBit status _,
    getLsbD_eq_testBit status _, by decide⟩
  case swRevision =>
    refine (tlmSwRevision_toNat payload _).trans ?_
    rw [word, word, word, word]

/-! ## One field apart (R246) -/

/-- A value made from the bytes of range `j` differs between two payloads that agree outside range `k` only if `k = j`. -/
theorem eq_ite_of_agreeOutside {l : TlmLayout} {n : Nat} (hv : l.Valid n) {a b : Nat → Byte} {k o len : Nat}
    (hk : l.ranges[k]? = some (o, len)) (h : AgreeOutside n o len a b) {j o' len' : Nat}
    (hj : l.ranges[j]? = some (o', len')) {α : Type} {x y : α}
    (hxy : (∀ i, o' ≤ i → i < o' + len' → a i = b i) → x = y) : y = if k = j then y else x := by
  obtain ⟨hkl, hkr⟩ := List.getElem?_eq_some_iff.1 hk
  obtain ⟨hjl, hjr⟩ := List.getElem?_eq_some_iff.1 hj
  split
  · rfl
  next hne =>
    have hagree := agree_of_otherField hv hkl (by rwa [hkr]) hjl (Ne.symm hne)
    rw [hjr] at hagree
    exact (hxy hagree).symm

/-- Two payloads that agree outside range `k` of a legal layout decode to rows that agree outside that range's field. -/
theorem decodeTelemetry_of_agreeOutside {c : Cfg} (hv : c.tlmLayout.Valid c.payloadBytes) {a b : Nat → Byte}
    (k : Nat) {o len : Nat} (hk : c.tlmLayout.ranges[k]? = some (o, len)) (h : AgreeOutside c.payloadBytes o len a b) :
    decodeTelemetry c b = (decodeTelemetry c a).withRange (decodeTelemetry c b) k := by
  have field {j o' len'} (hj : c.tlmLayout.ranges[j]? = some (o', len')) {α : Type} {x y : α} :=
    eq_ite_of_agreeOutside hv hk h hj (x := x) (y := y)
  have word {j o'} (hj : c.tlmLayout.ranges[j]? = some (o', 2)) := field hj tlmWord_congr
  have dword {j o'} (hj : c.tlmLayout.ranges[j]? = some (o', 4)) := field hj (tlmDword_congr (c := c))
  have status {α : Type} (f : DWord → α) :=
    field (j := 2) rfl fun hs => congrArg f (tlmDword_congr (c := c) (o := c.tlmLayout.status) hs)
  simp only [decodeTelemetry, TelemetryRow.withRange, TelemetryRow.mk.injEq]
  exact ⟨word rfl, dword rfl, status (·.getLsbD _), status (·.extractLsb' _ 2), status (·.getLsbD _),
    status (·.getLsbD _), status (·.getLsbD _), field rfl tlmSwRevision_congr, dword rfl, word rfl, word rfl, word rfl,
    word rfl, dword rfl, word rfl, word rfl, word rfl, word rfl, word rfl, word rfl, dword rfl⟩

/-- Settles O20, range by range. -/
theorem telemetryOffsetIsolation : Obligations.TelemetryOffsetIsolation := by
  intro c a b hv
  have range := decodeTelemetry_of_agreeOutside hv (a := a) (b := b)
  exact ⟨range 0 rfl, range 1 rfl, range 2 rfl, range 3 rfl, range 4 rfl, range 5 rfl, range 6 rfl, range 7 rfl,
    range 8 rfl, range 9 rfl, range 10 rfl, range 11 rfl, range 12 rfl, range 13 rfl, range 14 rfl, range 15 rfl,
    range 16 rfl⟩

/-! ## `TLM_DEC` (R220) -/

theorem tlmDec_accepted {c : Cfg} {p : Nat} (h : p < c.segCap) (slot : Slot) (v : Video) :
    tlmDec slot p c v =
      ({ v.accept .tlmDec with tlm := decodeTelemetry c (v.entryPayload c slot p) } : Video).complete .ok :=
  if_neg (by simpa [badPacketIndex] using h)

theorem tlmDec_refused {c : Cfg} {p : Nat} (h : c.segCap ≤ p) (slot : Slot) (v : Video) :
    tlmDec slot p c v = (v.accept .tlmDec).raise .badOperand :=
  if_pos (decide_eq_true h)

theorem entryPayload_eq_fun (c : Cfg) (v : Video) (s : Slot) (p : Nat) :
    v.entryPayload c s p = fun i => v.fbByte (fbAddr c s p (4 + i)) :=
  funext (entryPayload_eq c v s p)

/-- The host reads `T` itself of an idle engine (R33). -/
theorem State.telemetryOut_idle {s : State} (h : s.video.vBusy = false) : s.telemetryOut = s.video.tlm := by
  simp [State.telemetryOut, h]

theorem exec_tlmDec_idle {s : State} (hb : s.video.vBusy = false) (slot : Slot) (p : Nat) :
    exec (.tlmDec slot p) s = .next { s with video := tlmDec slot p s.cfg s.video } :=
  onVideo_idle (tlmDec slot p) hb

theorem tlmDec_tlm (slot : Slot) (p : Nat) (c : Cfg) (v : Video) : (tlmDec slot p c v).tlm =
    if p < c.segCap then decodeTelemetry c fun i => v.fbByte (fbAddr c slot p (4 + i)) else v.tlm := by
  split
  next h => rw [tlmDec_accepted h, entryPayload_eq_fun, Video.complete_tlm]
  next h => rw [tlmDec_refused (not_lt.1 h), Video.raise_tlm, Video.accept_tlm]

/-- Settles O18, by the operand check; the engine is idle before and after, so the host reads `T` itself. -/
theorem tlmDecResult : Obligations.TlmDecResult := by
  intro slot p s hb
  refine ⟨fun h => (exec_tlmDec_idle hb slot p).trans ?_, fun h => (exec_tlmDec_idle hb slot p).trans ?_,
    State.telemetryOut_idle hb, fun t ht => ?_⟩
  · rw [tlmDec_accepted h, entryPayload_eq_fun]
    simp [Video.accept, Video.complete, VideoOp.clearsFrameValid]
  · rw [tlmDec_refused h]
    simp [Video.accept, Video.raise, Video.complete, VideoOp.clearsFrameValid, faultFsState, faultFrames, faultResets]
  · rw [exec_tlmDec_idle hb] at ht
    cases ht
    rw [State.telemetryOut_idle (tlmDec_idle slot p s.cfg s.video), State.telemetryOut_idle hb, tlmDec_tlm]

end Sys2Proof.Machine


/-! The register primitives in a row, the bare command handshake from its writes to its end, and how a transaction or the
busy poll of any operation of the control port ends it (R263, R270 to R276). -/

namespace Sys2Proof.Machine

/-! ## The two turns of the control engine -/

theorem exec_cciCmd_of_eq {s : State} {opc : Word} {np nr : Nat} {k : Control} (hb : s.ctl.cBusy = false)
    (hk : cciCmd opc np nr s.cfg s.ctl = k) : exec (.cciCmd opc np nr) s = .next { s with ctl := k } :=
  hk ▸ onControl_idle (cciCmd opc np nr) hb

theorem serve_control_of_eq {s : State} {k : Control} (hr : s.rst = false) (hb : s.ctl.cBusy = true)
    (hk : s.ctl.resume s.cfg = k) : serve .control s = .next { s with ctl := k } :=
  hk ▸ serve_busy (p := .control) hr hb

/-- A later turn with answers at hand is a run over them. -/
theorem Control.resume_of_sensor (c : Cfg) {as : List CciAnswer} {k : Control} (has : as ≠ []) (hs : k.sensor = as) :
    k.resume c = Control.runOver c as k := by
  subst hs
  exact Control.resume_answers c has k

/-! ## The word counts of a handshake -/

theorem badWordCounts_eq_false {c : Cfg} {np nr : Nat} (hnp : np ≤ c.nData) (hnr : nr ≤ c.nData) :
    badWordCounts c np nr = false := by
  simp [badWordCounts, hnp, hnr]

/-- A handshake that its check refuses makes no transaction (R127, R270). -/
theorem Control.handshake_badOperand {c : Cfg} {h : Handshake} (hbad : c.nData < h.np ∨ c.nData < h.nr) (k : Control) :
    k.handshake c h = k.raise .badOperand :=
  if_pos (by simpa [badWordCounts] using hbad)

/-- A `GET_*` of more words than `P` has, `op` and its opcode whichever they are. -/
theorem onControl_getCommand_badOperand {s : State} (op : ControlOp) (opc : Cfg → Word) (hb : s.ctl.cBusy = false)
    (hn : s.cfg.nData < s.cfg.enumWords) :
    onControl s (fun c k => getCommand op (opc c) c.enumWords c k) = .next { s with ctl := { s.ctl with
      cStatus := .badOperand, cDone := true, cBusy := false, cOp := none, cAt := .idle } } := by
  rw [onControl_idle _ hb, getCommand, Control.handshake_badOperand (.inr hn)]
  rfl

/-- A `SET_*` of more words than `P` has; its `P[0]` stays written (log 20). -/
theorem onControl_setCommand_badOperand {s : State} (op : ControlOp) (opc : Cfg → Word) (value : Word)
    (hb : s.ctl.cBusy = false) (hn : s.cfg.nData < s.cfg.enumWords) :
    onControl s (fun c k => setCommand op (opc c) value c k) = .next { s with ctl := { s.ctl with
      params := (s.ctl.setParam 0 value).params
      cStatus := .badOperand, cDone := true, cBusy := false, cOp := none, cAt := .idle } } := by
  rw [onControl_idle _ hb, setCommand, Control.handshake_badOperand (.inl hn)]
  rfl

/-- Settles O52: `np` of a `SET_*` and `nr` of a `GET_*` are `ENUM_WORDS`, which the handshake's check refuses. -/
theorem enumWordsBeyondDataIsBadOperand : Obligations.EnumWordsBeyondDataIsBadOperand := by
  intro s value hb hn
  refine ⟨fun i hi => ?_, fun i hi => ?_⟩
  · simp only [List.mem_cons, List.not_mem_nil, or_false] at hi
    rcases hi with rfl | rfl | rfl
    · exact onControl_getCommand_badOperand .getTlmEn Cfg.opcGetTlmEn hb hn
    · exact onControl_getCommand_badOperand .getTlmLoc Cfg.opcGetTlmLoc hb hn
    · exact onControl_getCommand_badOperand .getAgcEn Cfg.opcGetAgcEn hb hn
  · simp only [List.mem_cons, List.not_mem_nil, or_false] at hi
    rcases hi with rfl | rfl | rfl
    · exact onControl_setCommand_badOperand .setTlmEn Cfg.opcSetTlmEn value hb hn
    · exact onControl_setCommand_badOperand .setTlmLoc Cfg.opcSetTlmLoc value hb hn
    · exact onControl_setCommand_badOperand .setAgcEn Cfg.opcSetAgcEn value hb hn

/-! ## A write and then a read -/

/-- Settles O46: the write leaves the port idle with the second answer at hand, and the read delivers its two bytes. -/
theorem writeThenRead : Obligations.WriteThenRead := by
  intro s t addr value a b rest hb hs _ hack h0 h1 hwr
  rw [regWrResult s addr value a (b :: rest) hb hs] at hwr
  cases hwr
  refine ⟨_, regRdResult _ addr b rest rfl rfl, if_pos hack, (if_pos hack).trans ?_⟩
  rw [h0, h1]
  exact beWord_hi_lo value

/-! ## The handshake that succeeds -/

/-- Settles O47: `CCI_CMD` is one handshake, and copies nothing from `P` after it. -/
theorem cciCmdResult : Obligations.CciCmdResult := by
  intro s opc np nr x rest hc hb hnp hnr hs hx
  obtain ⟨-, -, -, -, -, -, -, -, hdata, -⟩ := hc
  obtain ⟨k', hrun, hk', hparam⟩ := Control.handshake_succeeds (k := s.ctl.accept .cciCmd) (h := ⟨opc, np, nr⟩) rest rfl
    (badWordCounts_eq_false hnp hnr) hdata hs hx
  have hop : k'.cOp = some .cciCmd := by rw [hk']; rfl
  have hrdata : k'.cRdata = s.ctl.cRdata := by rw [hk']; rfl
  have hr32 : k'.cR32 = s.ctl.cR32 := by rw [hk']; rfl
  have hfinish : k'.finish = k'.complete .ok := Control.finish_plain hop nofun nofun nofun nofun
  rw [hfinish] at hrun
  exact ⟨_, exec_cciCmd_of_eq hb hrun,
    .of (k := s.ctl.accept .cciCmd) rfl rfl k'.cRdata k'.cR32 rfl hk' hparam, hrdata, hr32⟩

/-! ## A transaction that is not acknowledged -/

/-- A turn whose first answer raises a fault leaves the answers after it. -/
theorem Control.resume_raise {c : Cfg} {a : CciAnswer} {rest : List CciAnswer} {k u : Control} {f : Status}
    (hb : k.cBusy = true) (hs : k.sensor = a :: rest) (ha : k.answer c a = u.raise f) :
    k.resume c = { u.raise f with sensor := rest } := by
  rw [Control.resume_of_sensor c (List.cons_ne_nil a rest) hs, Control.runOver_busy c a rest k hb, ha]
  exact Control.runOver_idle c rest (u.raise f) rfl

/-- Settles O56: at every label but the idle one the answer ends a transaction, which raises `IoFault` before anything is
copied or stored. -/
theorem controlTransactionFailure : Obligations.ControlTransactionFailure := by
  intro s a rest hb hat hs hack hr
  obtain ⟨x, hanswer⟩ := s.ctl.answer_nack s.cfg hat hack
  exact ⟨_, serve_control_of_eq hr hb (Control.resume_raise hb hs hanswer), rfl, rfl, rfl, rfl, rfl, rfl, rfl⟩

/-! ## A busy answer that ends the operation -/

/-- How a busy answer ends the operation after `n` busy status reads (R273, R276): at the poll bound with `CciTimeout`,
whatever the cancel input; below it with `Cancelled`, if that is high. -/
def PollFault (c : Cfg) (n : Nat) (cancel : Bool) (f : Status) : Prop :=
  (f = .cciTimeout ∧ c.cciPollLimit = some (n + 1)) ∨
    (f = .cancelled ∧ cancel = true ∧ ∀ limit, c.cciPollLimit = some limit → n + 1 < limit)

theorem PollFault.belowLimit {c : Cfg} {n : Nat} {cancel : Bool} {f : Status} (hf : PollFault c n cancel f) :
    ∀ limit, c.cciPollLimit = some limit → n < limit := by
  rintro limit hlimit
  obtain ⟨-, hn⟩ | ⟨-, -, hn⟩ := hf
  · exact Nat.lt_of_succ_le (Option.some.inj (hn.symm.trans hlimit)).le
  · exact (Nat.lt_succ_self n).trans (hn limit hlimit)

theorem pollLimitReached_eq_false {c : Cfg} {n : Nat} (h : ∀ limit, c.cciPollLimit = some limit → n < limit) :
    pollLimitReached c n = false := by
  unfold pollLimitReached
  split
  · rfl
  next limit hlimit => exact decide_eq_false (not_le.2 (h limit hlimit))

theorem Control.afterPoll_fault {c : Cfg} {n : Nat} {w : Word} {f : Status} {k : Control} (h : Handshake)
    (hbusy : isBusy c w = true) (hf : PollFault c n k.cmd.cancel f) : k.afterPoll c h (n + 1) w = k.raise f := by
  obtain ⟨rfl, hlimit⟩ | ⟨rfl, hcancel, hlimit⟩ := hf
  · exact Control.afterPoll_timeout c h _ k hbusy (by simp [pollLimitReached, hlimit])
  · exact Control.afterPoll_cancelled c h _ hbusy (pollLimitReached_eq_false hlimit) hcancel

/-- What a fault in the busy poll leaves, from `k` to `k'`: the status, the flags, `P` and the result registers as they were,
and the transactions made (R275, R325). -/
def Control.PollEnded (f : Status) (xacts : List CciXact) (rest : List CciAnswer) (k k' : Control) : Prop :=
  k'.cStatus = f ∧ k'.cDone = true ∧ k'.cBusy = false ∧ k'.params = k.params ∧ k'.cRdata = k.cRdata ∧
    k'.cR32 = k.cR32 ∧ k'.sensor = rest ∧ k'.bus = k.bus ++ xacts

/-- The last answer of the poll, at `k1`, where the transactions `xacts` after `k` have led. -/
theorem Control.pollEnded_runOver {c : Cfg} {h : Handshake} {n : Nat} {a : CciAnswer} {f : Status} {k k1 : Control}
    {xacts : List CciXact} (rest : List CciAnswer) (hb : k.cBusy = true)
    (hk1 : k1 = { k with
      cmd := { k.cmd with cancel := k1.cmd.cancel }
      cAt := .poll h n
      bus := k.bus ++ xacts })
    (hack : a.ack = true) (hbusy : isBusy c (answerValue a) = true) (hf : PollFault c n a.cancel f) :
    Control.PollEnded f (xacts ++ [CciXact.ofRead c c.regStatus a]) rest k (Control.runOver c (a :: rest) k1) := by
  have hb1 : k1.cBusy = true := by rw [hk1]; exact hb
  have hat : k1.cAt = .poll h n := by rw [hk1]
  have hanswer : k1.answer c a = (k1.observe (CciXact.ofRead c c.regStatus a) a.cancel).raise f :=
    (Control.answer_poll c hat hack).trans (Control.afterPoll_fault h hbusy hf)
  rw [Control.runOver_busy c a rest k1 hb1, hanswer, Control.runOver_idle c rest _ rfl, hk1]
  exact ⟨rfl, rfl, rfl, rfl, rfl, rfl, rfl, List.append_assoc ..⟩

/-- `CCI_CMD` on an idle port, over tolerated busy answers and then one that ends it. -/
theorem exec_cciCmd_pollFault {s : State} {opc : Word} {np nr : Nat} {x : HandshakeScript} {busy : List CciAnswer}
    {a : CciAnswer} {rest : List CciAnswer} {f : Status} (hb : s.ctl.cBusy = false) (hnp : np ≤ s.cfg.nData)
    (hnr : nr ≤ s.cfg.nData) (hs : s.ctl.sensor = x.writeAnswers ++ (busy ++ a :: rest)) (hw : x.WritesAcked np)
    (hbs : ∀ b ∈ busy, BusyAnswer s.cfg b) (hack : a.ack = true) (hbusy : isBusy s.cfg (answerValue a) = true)
    (hf : PollFault s.cfg busy.length a.cancel f) :
    ∃ t, exec (.cciCmd opc np nr) s = .next t ∧ Control.PollEnded f (handshakeWrites s.cfg ⟨opc, np, nr⟩ s.ctl ++
      (busy ++ [a]).map (CciXact.ofRead s.cfg s.cfg.regStatus)) rest s.ctl t.ctl := by
  obtain ⟨k1, hrun, hk1⟩ := Control.handshake_polls (k := s.ctl.accept .cciCmd) (h := ⟨opc, np, nr⟩) (a :: rest) rfl
    (badWordCounts_eq_false hnp hnr) hs hw hbs hf.belowLimit
  rw [List.map_append, ← List.append_assoc]
  exact ⟨_, exec_cciCmd_of_eq hb hrun,
    Control.pollEnded_runOver (k := s.ctl.accept .cciCmd) rest rfl hk1 hack hbusy hf⟩

/-- A later turn of any operation in its busy poll, over tolerated busy answers and then one that ends it. -/
theorem serve_control_pollFault {s : State} {h : Handshake} {polls : Nat} {busy : List CciAnswer} {a : CciAnswer}
    {rest : List CciAnswer} {f : Status} (hr : s.rst = false) (hb : s.ctl.cBusy = true) (hat : s.ctl.cAt = .poll h polls)
    (hs : s.ctl.sensor = busy ++ a :: rest) (hbs : ∀ b ∈ busy, BusyAnswer s.cfg b) (hack : a.ack = true)
    (hbusy : isBusy s.cfg (answerValue a) = true) (hf : PollFault s.cfg (polls + busy.length) a.cancel f) :
    ∃ t, serve .control s = .next t ∧
      Control.PollEnded f ((busy ++ [a]).map (CciXact.ofRead s.cfg s.cfg.regStatus)) rest s.ctl t.ctl := by
  obtain ⟨k1, hrun, hk1⟩ := Control.runOver_busyPolls (c := s.cfg) (a :: rest) busy polls s.ctl hb hat hbs hf.belowLimit
  rw [List.map_append]
  exact ⟨_, serve_control_of_eq hr hb ((Control.resume_of_sensor s.cfg (by simp) hs).trans hrun),
    Control.pollEnded_runOver rest hb hk1 hack hbusy hf⟩

/-- Settles O53: the busy answers before the last are below the bound, and the last one is at it. -/
theorem pollBoundTimesOut : Obligations.PollBoundTimesOut := by
  refine ⟨fun s opc np nr x busy a rest hb hnp hnr hs hw hbs hack hbusy hlimit => ?_,
    fun s h polls busy a rest hr hb hat hs hbs hack hbusy hlimit => ?_⟩
  · exact exec_cciCmd_pollFault hb hnp hnr hs hw hbs hack hbusy (.inl ⟨rfl, hlimit⟩)
  · exact serve_control_pollFault hr hb hat hs hbs hack hbusy (.inl ⟨rfl, hlimit⟩)

/-- Settles O54: all the busy answers are below the bound, and the last one has the cancel input high. -/
theorem pollIsCancelled : Obligations.PollIsCancelled := by
  refine ⟨fun s opc np nr x busy a rest hb hnp hnr hs hw hbs hack hbusy hcancel hlimit => ?_,
    fun s h polls busy a rest hr hb hat hs hbs hack hbusy hcancel hlimit => ?_⟩
  · exact exec_cciCmd_pollFault hb hnp hnr hs hw hbs hack hbusy (.inr ⟨rfl, hcancel, hlimit⟩)
  · exact serve_control_pollFault hr hb hat hs hbs hack hbusy (.inr ⟨rfl, hcancel, hlimit⟩)

/-! ## Busy answers without a bound -/

/-- Settles O55: without a bound all the busy answers are polled, and with the last the answers at hand are used up. -/
theorem unboundedPollRunsOn : Obligations.UnboundedPollRunsOn := by
  refine ⟨fun s opc np nr x busy hnone hb hnp hnr hs hw hbs => ?_, fun s h polls hnone hr hb hat hs hbs => ?_⟩
  · obtain ⟨k1, hrun, hk1⟩ := Control.handshake_polls (k := s.ctl.accept .cciCmd) (h := ⟨opc, np, nr⟩) [] rfl
      (badWordCounts_eq_false hnp hnr) (by rwa [List.append_nil]) hw hbs (by simp [hnone])
    refine ⟨_, exec_cciCmd_of_eq hb hrun, ?_⟩
    rw [Control.runOver_nil, hk1]
    exact ⟨rfl, rfl, rfl, rfl, rfl⟩
  · obtain ⟨k1, hrun, hk1⟩ := Control.runOver_busyPolls (c := s.cfg) [] s.ctl.sensor polls s.ctl hb hat hbs
      (by simp [hnone])
    rw [List.append_nil] at hrun
    refine ⟨_, serve_control_of_eq hr hb ((Control.resume_of_sensor s.cfg hs rfl).trans hrun), ?_⟩
    rw [Control.runOver_nil, hk1]
    exact ⟨hb, rfl, rfl, rfl, rfl, rfl, rfl, rfl, rfl⟩

end Sys2Proof.Machine


/-! The eight composed commands on the path that succeeds: each is one handshake from the control side its operation was
accepted on, and what its last step copies from `P` (R286 to R297). -/

namespace Sys2Proof.Machine

/-! ## What the last step copies -/

/-- The operations that copy their first result word to `c_rdata` (R286). -/
def enumGetOps : List ControlOp := [.getTlmEn, .getTlmLoc, .getAgcEn]

theorem Control.finish_cRdata {k : Control} {op : ControlOp} (h : k.cOp = some op) :
    k.finish.cRdata = if op ∈ enumGetOps then k.param 0 else k.cRdata := by
  unfold Control.finish
  rw [h]
  cases op <;> rfl

theorem Control.finish_cR32 {k : Control} {op : ControlOp} (h : k.cOp = some op) :
    k.finish.cR32 = if op = .getUptime then k.param 1 ++ k.param 0 else k.cR32 := by
  unfold Control.finish
  rw [h]
  cases op <;> rfl

theorem Control.finish_param (k : Control) (j : Nat) : k.finish.param j = k.param j := by
  obtain ⟨r, d, hfinish⟩ := k.finish_cases
  rw [hfinish]
  rfl

/-- `N_DATA` is at least the two words of the uptime and at most the words of `P` (R8, R32). -/
theorem nData_bounds_of_valid {c : Cfg} (hc : c.Valid) : 2 ≤ c.nData ∧ c.nData ≤ 16 := by
  obtain ⟨-, -, -, -, -, -, -, hmin, hmax, -⟩ := hc
  exact ⟨hmin, hmax⟩

/-! ## One handshake as an operation -/

theorem onControl_of_eq {s : State} {f : Cfg → Control → Control} {k : Control} (hb : s.ctl.cBusy = false)
    (hk : f s.cfg s.ctl = k) : onControl s f = .next { s with ctl := k } :=
  hk ▸ onControl_idle f hb

/-- A handshake that succeeds, as the body of any operation on an idle port; `k` is the control side that the operation was
accepted on, with the `P[0]` of a `SET_*` already written. -/
theorem onControl_handshake_succeeds {s : State} {f : Cfg → Control → Control} {k : Control} (op : ControlOp)
    {h : Handshake} {x : HandshakeScript} {rest : List CciAnswer} (hc : s.cfg.Valid) (hb : s.ctl.cBusy = false)
    (hf : f s.cfg s.ctl = (k.accept op).handshake s.cfg h) (hbus : k.bus = s.ctl.bus)
    (hnp : h.np ≤ s.cfg.nData) (hnr : h.nr ≤ s.cfg.nData) (hs : k.sensor = x.answers ++ rest)
    (hx : x.Succeeds s.cfg h.np h.nr) :
    ∃ t, onControl s f = .next t ∧ HandshakeDone s h k x rest t ∧
      t.ctl.cRdata = (if op ∈ enumGetOps then t.ctl.param 0 else k.cRdata) ∧
      t.ctl.cR32 = if op = .getUptime then t.ctl.param 1 ++ t.ctl.param 0 else k.cR32 := by
  obtain ⟨k', hrun, hk', hparam⟩ := Control.handshake_succeeds (k := k.accept op) rest rfl
    (badWordCounts_eq_false hnp hnr) (nData_bounds_of_valid hc).2 hs hx
  have hop : k'.cOp = some op := by rw [hk']; rfl
  have hrdata : k'.cRdata = k.cRdata := by rw [hk']; rfl
  have hr32 : k'.cR32 = k.cR32 := by rw [hk']; rfl
  have hlast : ∀ j, ({ k'.finish with sensor := rest } : Control).param j = k'.param j := k'.finish_param
  obtain ⟨rd, d, hfinish⟩ := k'.finish_cases
  refine ⟨_, onControl_of_eq hb (hf.trans hrun),
    .of (k := k.accept op) hbus rfl rd d (by rw [hfinish]) hk' hparam, ?_, ?_⟩
  · rw [hlast 0, ← hrdata]
    exact Control.finish_cRdata hop
  · rw [hlast 0, hlast 1, ← hr32]
    exact Control.finish_cR32 hop

/-! ## `RUN_FFC` and `GET_UPTIME` -/

/-- Settles O48: no word is sent or received, and the last step copies nothing. -/
theorem runFfcResult : Obligations.RunFfcResult := by
  intro s x rest hc hb hs hx
  exact onControl_handshake_succeeds (k := s.ctl) .runFfc hc hb rfl rfl (Nat.zero_le _) (Nat.zero_le _) hs hx

/-- Settles O49: the two words that the last step copies are the two results. -/
theorem getUptimeResult : Obligations.GetUptimeResult := by
  intro s x w0 w1 rest hc hb hs hx hw
  obtain ⟨t, ht, hdone, hrdata, hr32⟩ := onControl_handshake_succeeds (k := s.ctl)
    (f := fun c k => getCommand .getUptime c.opcGetUptime c.uptimeWords c k) (h := ⟨s.cfg.opcGetUptime, 0, 2⟩)
    .getUptime hc hb (by rw [← s.cfg.uptimeWords_eq]; rfl) rfl (Nat.zero_le _) (nData_bounds_of_valid hc).1 hs hx
  have h0 : t.ctl.param 0 = answerValue w0 := hdone.results 0 w0 (by rw [hw]; rfl)
  have h1 : t.ctl.param 1 = answerValue w1 := hdone.results 1 w1 (by rw [hw]; rfl)
  exact ⟨t, ht, hdone, by rw [hr32, if_pos rfl, h0, h1], hrdata⟩

/-! ## The enumerations -/

/-- A `GET_*` of an enumeration, `op` and its opcode whichever they are. -/
theorem onControl_getCommand_succeeds {s : State} {x : HandshakeScript} {w0 : CciAnswer} {rest : List CciAnswer}
    (op : ControlOp) (opc : Cfg → Word) (hop : op ∈ enumGetOps) (hc : s.cfg.Valid) (hb : s.ctl.cBusy = false)
    (hn : s.cfg.enumWords ≤ s.cfg.nData) (hs : s.ctl.sensor = x.answers ++ rest)
    (hx : x.Succeeds s.cfg 0 s.cfg.enumWords) (hw : x.results[0]? = some w0) :
    ∃ t, onControl s (fun c k => getCommand op (opc c) c.enumWords c k) = .next t ∧
      HandshakeDone s ⟨opc s.cfg, 0, s.cfg.enumWords⟩ s.ctl x rest t ∧
      t.ctl.cRdata = answerValue w0 ∧ t.ctl.cR32 = s.ctl.cR32 := by
  have huptime : op ≠ .getUptime := by rintro rfl; exact absurd hop (by decide)
  obtain ⟨t, ht, hdone, hrdata, hr32⟩ := onControl_handshake_succeeds (k := s.ctl)
    (f := fun c k => getCommand op (opc c) c.enumWords c k) op hc hb rfl rfl (Nat.zero_le _) hn hs hx
  exact ⟨t, ht, hdone, (hrdata.trans (if_pos hop)).trans (hdone.results 0 w0 hw), hr32.trans (if_neg huptime)⟩

/-- A `SET_*` of an enumeration, `op` and its opcode whichever they are. -/
theorem onControl_setCommand_succeeds {s : State} {x : HandshakeScript} {rest : List CciAnswer} (op : ControlOp)
    (opc : Cfg → Word) (value : Word) (hop : op ∉ enumGetOps) (huptime : op ≠ .getUptime) (hc : s.cfg.Valid)
    (hb : s.ctl.cBusy = false) (hn : s.cfg.enumWords ≤ s.cfg.nData) (hs : s.ctl.sensor = x.answers ++ rest)
    (hx : x.Succeeds s.cfg s.cfg.enumWords 0) :
    ∃ t, onControl s (fun c k => setCommand op (opc c) value c k) = .next t ∧
      HandshakeDone s ⟨opc s.cfg, s.cfg.enumWords, 0⟩ (s.ctl.setParam 0 value) x rest t ∧
      t.ctl.param 0 = value ∧ (∀ j, j ≠ 0 → t.ctl.param j = s.ctl.param j) ∧
      t.ctl.cRdata = s.ctl.cRdata ∧ t.ctl.cR32 = s.ctl.cR32 := by
  obtain ⟨t, ht, hdone, hrdata, hr32⟩ := onControl_handshake_succeeds (k := s.ctl.setParam 0 value)
    (f := fun c k => setCommand op (opc c) value c k) op hc hb rfl rfl hn (Nat.zero_le _) hs hx
  have hparam : ∀ j, t.ctl.param j = (s.ctl.setParam 0 value).param j := fun j =>
    hdone.otherParams j (hx.resultCount.trans_le (Nat.zero_le j))
  refine ⟨t, ht, hdone, (hparam 0).trans ?_, fun j hj => (hparam j).trans (s.ctl.param_setParam_ne value hj),
    hrdata.trans (if_neg hop), hr32.trans (if_neg huptime)⟩
  exact s.ctl.param_setParam 0 0 value (by decide)

/-- Settles O50: the three differ in operation and opcode alone. -/
theorem getEnumResult : Obligations.GetEnumResult := by
  intro s x w0 rest hc hb hn hs hx hw i opc hi
  simp only [List.mem_cons, List.not_mem_nil, or_false, Prod.mk.injEq] at hi
  obtain ⟨rfl, rfl⟩ | ⟨rfl, rfl⟩ | ⟨rfl, rfl⟩ := hi
  · exact onControl_getCommand_succeeds .getTlmEn Cfg.opcGetTlmEn (by decide) hc hb hn hs hx hw
  · exact onControl_getCommand_succeeds .getTlmLoc Cfg.opcGetTlmLoc (by decide) hc hb hn hs hx hw
  · exact onControl_getCommand_succeeds .getAgcEn Cfg.opcGetAgcEn (by decide) hc hb hn hs hx hw

/-- Settles O51: the three differ in operation and opcode alone. -/
theorem setEnumResult : Obligations.SetEnumResult := by
  intro s value x rest hc hb hn hs hx i opc hi
  simp only [List.mem_cons, List.not_mem_nil, or_false, Prod.mk.injEq] at hi
  obtain ⟨rfl, rfl⟩ | ⟨rfl, rfl⟩ | ⟨rfl, rfl⟩ := hi
  · exact onControl_setCommand_succeeds .setTlmEn Cfg.opcSetTlmEn value (by decide) nofun hc hb hn hs hx
  · exact onControl_setCommand_succeeds .setTlmLoc Cfg.opcSetTlmLoc value (by decide) nofun hc hb hn hs hx
  · exact onControl_setCommand_succeeds .setAgcEn Cfg.opcSetAgcEn value (by decide) nofun hc hb hn hs hx

end Sys2Proof.Machine


/-! The two engines share no state: an operation and a turn of either engine are updates of its own side of the block, so
turns of the two commute. -/

namespace Sys2Proof.Machine

/-- An operation of the video port is an update of the video side. -/
theorem exec_video_next {i : Instr} (hi : i.port = .video) {s t : State} (he : exec i s = .next t) :
    ∃ v, t = { s with video := v } := by
  obtain ⟨f, hf⟩ := exec_video hi
  rw [hf] at he
  cases hb : s.video.vBusy with
  | true => rw [onVideo_busy f hb] at he; cases he; exact ⟨s.video, rfl⟩
  | false => rw [onVideo_idle f hb] at he; cases he; exact ⟨_, rfl⟩

/-- An operation of the control port is an update of the control side. -/
theorem exec_control_next {i : Instr} (hi : i.port = .control) {s t : State} (he : exec i s = .next t) :
    ∃ k, t = { s with ctl := k } := by
  obtain ⟨f, hf⟩ := exec_control hi
  rw [hf] at he
  cases hb : s.ctl.cBusy with
  | true => rw [onControl_busy f hb] at he; cases he; exact ⟨s.ctl, rfl⟩
  | false => rw [onControl_idle f hb] at he; cases he; exact ⟨_, rfl⟩

/-- Settles O11: an operation updates the side of its own port and nothing else. -/
theorem portsShareNoState : Obligations.PortsShareNoState := by
  intro i s t he
  cases hi : i.port with
  | video =>
    obtain ⟨v, rfl⟩ := exec_video_next hi he
    exact ⟨rfl, rfl, rfl, fun _ => rfl, nofun⟩
  | control =>
    obtain ⟨k, rfl⟩ := exec_control_next hi he
    exact ⟨rfl, rfl, rfl, nofun, fun _ => rfl⟩

/-- Settles O10: what a turn makes of its engine's side depends on the configuration, the reset input and that side alone,
and the other engine's turn changes none of the three. -/
theorem engineTurnsCommute : Obligations.EngineTurnsCommute := by
  intro s a b ha hb
  obtain ⟨v, hvideo⟩ := serve_video_form s.cfg s.rst s.video
  obtain ⟨k, hcontrol⟩ := serve_control_form s.cfg s.rst s.ctl
  have ea : { s with video := v } = a := Host.Outcome.next.inj ((hvideo s rfl rfl rfl).symm.trans ha)
  subst ea
  have eb : { s with video := v, ctl := k } = b :=
    Host.Outcome.next.inj ((hcontrol { s with video := v } rfl rfl rfl).symm.trans hb)
  subst eb
  exact ⟨{ s with ctl := k }, hcontrol s rfl rfl rfl, hvideo { s with ctl := k } rfl rfl rfl⟩

end Sys2Proof.Machine


/-! The reset input as a level (R360): both ports idle while it is asserted, and the outside world's side of the block kept. -/

namespace Sys2Proof.Machine

/-- At the table of R62 both ports are idle. -/
theorem State.AtReset.busy_eq_false {c : Cfg} {t : State} (h : t.AtReset c) (p : Port) : t.busy p = false := by
  obtain ⟨⟨_, _, _, _, _, hvideo⟩, ⟨_, _, _, _, _, hctl⟩⟩ := h
  cases p with
  | video => exact congrArg Video.vBusy hvideo
  | control => exact congrArg Control.cBusy hctl

theorem State.driveReset_low_of_released {s : State} (hr : s.rst = false) : s.driveReset false = s :=
  if_neg (by simp [hr])

theorem State.driveReset_sensor_bus (level : Bool) (s : State) :
    (s.driveReset level).video.sensor = s.video.sensor ∧ (s.driveReset level).ctl.sensor = s.ctl.sensor ∧
    (s.driveReset level).video.bus = s.video.bus ∧ (s.driveReset level).ctl.bus = s.ctl.bus := by
  rcases s.driveReset_cases level with ⟨he, _⟩ | ⟨he, _⟩ <;> rw [he]
  · exact ⟨rfl, rfl, rfl, rfl⟩
  · exact ⟨rfl, rfl, rfl, rfl⟩

@[simp] theorem State.driveReset_port (level : Bool) (s : State) (p : Port) : (s.driveReset level).port p = s.port p := by
  rcases s.driveReset_cases level with ⟨he, _⟩ | ⟨he, _⟩ <;> rw [he]
  cases p <;> rfl

@[simp] theorem State.driveReset_cfg (level : Bool) (s : State) : (s.driveReset level).cfg = s.cfg := by
  rcases s.driveReset_cases level with ⟨he, _⟩ | ⟨he, _⟩ <;> rw [he]
  rfl

@[simp] theorem State.driveReset_agenda (level : Bool) (s : State) : (s.driveReset level).agenda = s.agenda := by
  rcases s.driveReset_cases level with ⟨he, _⟩ | ⟨he, _⟩ <;> rw [he]
  rfl

/-- Settles O13: an input driven high puts both engines at the table of R62, whose ports are idle, and a turn while it is
high is held. -/
theorem resetIsALevel : Obligations.ResetIsALevel := by
  intro s level p t
  have hlevel : t.rst = level := s.driveReset_rst level
  refine ⟨hlevel, fun ht => ⟨serve_held ht, ?_⟩, serve_held, s.driveReset_sensor_bus level,
    ⟨s.driveReset_port level p, s.driveReset_cfg level, s.driveReset_agenda level⟩, ?_⟩
  · exact (State.AtReset.driveReset (.inl (hlevel.symm.trans ht))).busy_eq_false p
  · rintro hr rfl
    exact State.driveReset_low_of_released hr

end Sys2Proof.Machine
